-- ==== Sys2Proof/Word.lean ====
section
/-! DEFINITION. The word types of the serial line block and the closed lists of names the spec numbers
(registers, address spaces, rings). -/

namespace Sys2Proof

/-- One datum, one register of the set, one storage cell: 8 bits (R30, R50). -/
abbrev Byte := BitVec 8

/-- A hook handle as the command word carries it; zero stands for "null" (R26, R82). -/
abbrev Handle := BitVec 32

/-- The word HOST presents on the command port (R80). -/
abbrev CommandWord := BitVec 48

/-- The word the block gives back on the command port (R84). -/
abbrev ResponseWord := BitVec 18

/-- The six registers of the register set, in the order of R30. -/
inductive Reg where
  | brh | brl | csa | csb | csc | dr
  deriving DecidableEq, Repr

/-- The three address spaces of R50. -/
inductive Space where
  | rxb | txb | reg
  deriving DecidableEq, Repr

/-- The two rings of R20. -/
inductive Ring where
  | rx | tx
  deriving DecidableEq, Repr

/-- The two line states of R27. -/
inductive Line where
  | uninitialized | active
  deriving DecidableEq, Repr

end Sys2Proof
end

