-- ==== Sys2Proof/Config.lean ====
section
/-! DEFINITION. What is fixed for one block (the parameters of R9) and the free values the spec leaves to
"any value". The parameters are a record that `State` carries and no step changes, so that every statement
over states is a statement for every parameter value in range (assumption log 1). -/

namespace Sys2Proof

/-- The six platform addresses `ADDR[0..5]` (R9, R58). -/
structure RegAddrs where
  brh : Nat
  brl : Nat
  csa : Nat
  csb : Nat
  csc : Nat
  dr  : Nat
  deriving DecidableEq, Repr

/-- The parameters of R9, under the names of its table. -/
structure Params where
  cRx     : Nat
  cTx     : Nat
  clockHz : Nat
  divMax  : Nat
  hasMpcm : Bool
  pRxc    : Nat
  pTxc    : Nat
  pUdre   : Nat
  pUpe    : Nat
  pU2x    : Nat
  pMpcm   : Nat
  pRxcie  : Nat
  pUdrie  : Nat
  pRxen   : Nat
  pTxen   : Nat
  addr    : RegAddrs
  lineId  : Nat
  flushPollsWhenMasked : Bool
  deriving DecidableEq, Repr

/-- `ATOM_BITS` of R9: the width of one atomically readable and writable unit. -/
def Config.atomBits : Nat := 8

/-- The bit positions in CSA, in the order of R9. -/
def Params.csaPositions (p : Params) : List Nat :=
  [p.pRxc, p.pTxc, p.pUdre, p.pUpe, p.pU2x, p.pMpcm]

/-- The bit positions in CSB, in the order of R9. -/
def Params.csbPositions (p : Params) : List Nat :=
  [p.pRxcie, p.pUdrie, p.pRxen, p.pTxen]

/-- The platform address of each register, in the order of R30. -/
def Params.addresses (p : Params) : List Nat :=
  [p.addr.brh, p.addr.brl, p.addr.csa, p.addr.csb, p.addr.csc, p.addr.dr]

/-- The ranges of R9: a record that fails this is not a configuration of the model (U1, R201). Distinct
positions within a register are D26, distinct addresses D37. -/
def Params.ok (p : Params) : Bool :=
  decide (2 ≤ p.cRx) && decide (p.cRx ≤ 2 ^ Config.atomBits) &&
  decide (2 ≤ p.cTx) && decide (p.cTx ≤ 2 ^ Config.atomBits) &&
  decide (1 ≤ p.clockHz) && decide (p.divMax ≤ 65535) &&
  p.csaPositions.all (fun i => decide (i < 8)) && decide p.csaPositions.Nodup &&
  p.csbPositions.all (fun i => decide (i < 8)) && decide p.csbPositions.Nodup &&
  decide p.addresses.Nodup

/-- The parameters `State.reset` carries: the default positions of R9, the clock of the source's one example,
the capacities of the spec's programs, the conservative `false` for the masked FLUSH (assumption log 2). No
statement rests on one of the OPEN values. -/
def Config.default : Params where
  cRx := 4
  cTx := 4
  clockHz := 16000000
  divMax := 65535
  hasMpcm := true
  pRxc := 7
  pTxc := 6
  pUdre := 5
  pUpe := 2
  pU2x := 1
  pMpcm := 0
  pRxcie := 7
  pUdrie := 5
  pRxen := 4
  pTxen := 3
  addr := ⟨0, 1, 2, 3, 4, 5⟩
  lineId := 0
  flushPollsWhenMasked := false

/-- FREE VALUE (U7, U9): the n-th byte drawn for a value the spec gives as "any value": the bits of CSA no rule
names, and what a read of DR gives when no byte waits. No body: nothing can be proved of it. -/
opaque Config.freeByte : Nat → Byte

/-- FREE VALUE (U10): what a storage cell that nothing has written holds. -/
opaque Config.freeCell : Space → Nat → Byte

/-- FREE VALUE (U19): what the hook oracle answers at its n-th call, given handle, byte and status (R87, R203).
The call number lets the answer depend on every earlier call. -/
opaque Config.hookAnswer : Nat → Handle → Byte → Byte → Bool

end Sys2Proof
end

