-- ==== Sys2Proof/Syntax.lean ====
section
/-! DEFINITION. The operations of the block: one constructor per row of spec/opcode_table.json (R4, R81, R86).
DETACH is no row: it is `attach 0` (R94, R122). -/

namespace Sys2Proof

/-- The ten commands of R81 with their operands as R82 assembles them, and the two entry points of R86. -/
inductive Instr where
  | ready
  | beginLine (baud : BitVec 32) (frame : Byte)
  | endLine
  | avail
  | peek
  | read
  | availw
  | flush
  | write (byte : Byte)
  | attach (handle : Handle)
  | irqRx
  | irqUdre
  deriving DecidableEq, Repr

/-- The pseudo-command DETACH (R94, R122). -/
def Instr.detach : Instr := .attach 0

/-- The pseudo-command `BEGIN baud` with the default frame configuration 8N1 (R91, R94). -/
def Instr.beginDefault (baud : BitVec 32) : Instr := .beginLine baud 0x06

end Sys2Proof
end

