-- ==== Sys2Proof/Machine/Operands.lean ====
section
/-! DEFINITION. The operands of the commands: the frame configurations (R90), the divisor (R112), the
well-formedness of BEGIN (R113), the hook handle (R82), and which line state admits a command (R199). -/

namespace Sys2Proof.Machine

/-- The parity of a frame configuration (R90). -/
inductive Parity where
  | none | even | odd
  deriving DecidableEq, Repr

/-- One named combination of R90: data bits, parity, stop bits, and its fixed bit pattern. -/
structure FrameRow where
  bits   : Nat
  parity : Parity
  stop   : Nat
  value  : Byte
  deriving DecidableEq, Repr

/-- The table of R90, row by row as the spec prints it: data, not computed. -/
def frameTable : List FrameRow :=
  [⟨5, .none, 1, 0x00⟩, ⟨6, .none, 1, 0x02⟩, ⟨7, .none, 1, 0x04⟩, ⟨8, .none, 1, 0x06⟩,
   ⟨5, .none, 2, 0x08⟩, ⟨6, .none, 2, 0x0A⟩, ⟨7, .none, 2, 0x0C⟩, ⟨8, .none, 2, 0x0E⟩,
   ⟨5, .even, 1, 0x20⟩, ⟨6, .even, 1, 0x22⟩, ⟨7, .even, 1, 0x24⟩, ⟨8, .even, 1, 0x26⟩,
   ⟨5, .even, 2, 0x28⟩, ⟨6, .even, 2, 0x2A⟩, ⟨7, .even, 2, 0x2C⟩, ⟨8, .even, 2, 0x2E⟩,
   ⟨5, .odd, 1, 0x30⟩, ⟨6, .odd, 1, 0x32⟩, ⟨7, .odd, 1, 0x34⟩, ⟨8, .odd, 1, 0x36⟩,
   ⟨5, .odd, 2, 0x38⟩, ⟨6, .odd, 2, 0x3A⟩, ⟨7, .odd, 2, 0x3C⟩, ⟨8, .odd, 2, 0x3E⟩]

/-- Membership in `VALID_FRAME` (R91). -/
def validFrame (v : Byte) : Bool := frameTable.any fun r => r.value == v

/-- The parity field of CSC: 0 for none, 2 for even, 3 for odd (R35, R91). -/
def Parity.code : Parity → Nat
  | .none => 0
  | .even => 2
  | .odd  => 3

/-- The bit layout every row of R90 follows (R91): a check on the transcription, not a definition of a row. -/
def frameLayout (bits : Nat) (parity : Parity) (stop : Nat) : Nat :=
  parity.code * 16 + (stop - 1) * 8 + (bits - 5) * 2

/-- The divisor of R112, over unbounded integers, `/` floor division: it can be -1. -/
def divisor (clockHz baud : Nat) : Int := ((clockHz + 8 * baud) / (16 * baud) : Nat) - 1

/-- The well-formedness of BEGIN (R113): (a) a listed frame pattern, (b) a baud rate of at least 1, (c) a divisor
the baud registers hold. -/
def beginOk (p : Params) (baud : BitVec 32) (frame : Byte) : Bool :=
  validFrame frame && decide (1 ≤ baud.toNat) &&
  decide (0 ≤ divisor p.clockHz baud.toNat) && decide (divisor p.clockHz baud.toNat ≤ (p.divMax : Int))

/-- The byte for BRH: `d[15:8]` (R31, R54). -/
def divisorHigh (p : Params) (baud : BitVec 32) : Byte :=
  BitVec.ofNat 8 ((divisor p.clockHz baud.toNat).toNat / 256)

/-- The byte for BRL: `d[7:0]` (R31, R54). -/
def divisorLow (p : Params) (baud : BitVec 32) : Byte :=
  BitVec.ofNat 8 (divisor p.clockHz baud.toNat).toNat

/-- The hook reference a handle operand stands for: 0 is `none` (R82, R121). -/
def hookOf (h : Handle) : Option Handle := if h = 0 then none else some h

/-- Which line state admits a command (R199). The entry points are not presented by HOST; when they are
invoked is R172. -/
def admitted (i : Instr) (line : Line) : Bool :=
  match i with
  | .ready => true
  | .beginLine _ _ => true
  | .endLine => decide (line = .active)
  | .avail => true
  | .peek => true
  | .read => true
  | .availw => true
  | .flush => decide (line = .active)
  | .write _ => decide (line = .active)
  | .attach _ => true
  | .irqRx => true
  | .irqUdre => true

end Sys2Proof.Machine
end

