-- ==== Sys2Proof/WellFormed.lean ====
section
/-! DEFINITION. The static check on an instruction: R113 for BEGIN. No other command has an operand the spec
gives no meaning (R82). The check itself, `Machine.beginOk`, is in Machine/Operands.lean. -/

namespace Sys2Proof

/-- An instruction the spec gives a meaning, under the parameters `p` (R113; U2, U3, U4). -/
def Instr.wellFormed (p : Params) : Instr → Bool
  | .ready => true
  | .beginLine baud frame => Machine.beginOk p baud frame
  | .endLine => true
  | .avail => true
  | .peek => true
  | .read => true
  | .availw => true
  | .flush => true
  | .write _ => true
  | .attach _ => true
  | .irqRx => true
  | .irqUdre => true

end Sys2Proof
end

