-- ==== Sys2Proof/Decode.lean ====
section
/-! DEFINITION. From words to instructions and back: the command word (R80 to R83), the vector number (R86),
the opcode table as data (R81), and the response word (R84) is in Machine/Ops.lean. Decoding is total and
rejects by name. -/

namespace Sys2Proof

/-- Why a word is not a command (R83). The block's answer to each is the same: nothing happens. -/
inductive DecodeError where
  /-- `op` selects no command: 0x0A to 0xFF (R83a). -/
  | reservedOpcode (op : Byte)
  /-- A field the command does not use is not zero (R83b). -/
  | unusedFieldNotZero (op : Byte)
  deriving DecidableEq, Repr

/-- `op = W[47:40]` (R80). -/
def opField (w : CommandWord) : Byte := w.extractLsb' 40 8

/-- `a = W[39:32]` (R80). -/
def aField (w : CommandWord) : Byte := w.extractLsb' 32 8

/-- `b = W[31:0]` (R80). -/
def bField (w : CommandWord) : BitVec 32 := w.extractLsb' 0 32

/-- Accept `i` only where the unused fields are zero (R83b). -/
def whenUnusedZero (w : CommandWord) (unusedZero : Bool) (i : Instr) : Except DecodeError Instr :=
  if unusedZero then .ok i else .error (.unusedFieldNotZero (opField w))

/-- The decoder of the command port (R81, R83): every 48-bit word is one row of the table or rejected. -/
def decodeCommand (w : CommandWord) : Except DecodeError Instr :=
  let a := aField w
  let b := bField w
  match (opField w).toNat with
  | 0 => whenUnusedZero w (a == 0 && b == 0) .ready
  | 1 => .ok (.beginLine b a)
  | 2 => whenUnusedZero w (a == 0 && b == 0) .endLine
  | 3 => whenUnusedZero w (a == 0 && b == 0) .avail
  | 4 => whenUnusedZero w (a == 0 && b == 0) .peek
  | 5 => whenUnusedZero w (a == 0 && b == 0) .read
  | 6 => whenUnusedZero w (a == 0 && b == 0) .availw
  | 7 => whenUnusedZero w (a == 0 && b == 0) .flush
  | 8 => whenUnusedZero w (b == 0) (.write a)
  | 9 => whenUnusedZero w (a == 0) (.attach b)
  | _ => .error (.reservedOpcode (opField w))

/-- The vector numbering of one line (R86): 0 is IRQ_RX, 1 is IRQ_UDRE. -/
def decodeVector (v : BitVec 1) : Instr := if v = 0 then .irqRx else .irqUdre

/-- The table index of entry `v` of a line (R86). -/
def vectorIndex (lineId : Nat) (v : BitVec 1) : Nat := 2 * lineId + v.toNat

/-- The line-to-handler table read backwards (R86, R171): the handler of this line that a table index selects,
if it is one of this line's two entries. -/
def routeVector (lineId idx : Nat) : Option Instr :=
  if idx = vectorIndex lineId 0 then some (decodeVector 0)
  else if idx = vectorIndex lineId 1 then some (decodeVector 1)
  else none

/-- What stands for an instruction outside the block: a word on the command port or a vector number. -/
inductive Encoded where
  | command (w : CommandWord)
  | vector (v : BitVec 1)
  deriving DecidableEq, Repr

/-- The decoder on either port. -/
def decode : Encoded → Except DecodeError Instr
  | .command w => decodeCommand w
  | .vector v => .ok (decodeVector v)

/-- The three fields of the word, most significant first (R80). -/
def commandWord (op : Byte) (a : Byte) (b : BitVec 32) : CommandWord := (op ++ a ++ b : BitVec (8 + 8 + 32))

/-- The encoder, from the table of R81 and the numbering of R86. -/
def encode : Instr → Encoded
  | .ready => .command (commandWord 0x00 0 0)
  | .beginLine baud frame => .command (commandWord 0x01 frame baud)
  | .endLine => .command (commandWord 0x02 0 0)
  | .avail => .command (commandWord 0x03 0 0)
  | .peek => .command (commandWord 0x04 0 0)
  | .read => .command (commandWord 0x05 0 0)
  | .availw => .command (commandWord 0x06 0 0)
  | .flush => .command (commandWord 0x07 0 0)
  | .write byte => .command (commandWord 0x08 byte 0)
  | .attach handle => .command (commandWord 0x09 0 handle)
  | .irqRx => .vector 0
  | .irqUdre => .vector 1

/-- One command row of R81: the opcode and the 48-bit match and mask. -/
structure OpRow where
  op    : Byte
  value : CommandWord
  mask  : CommandWord
  deriving DecidableEq, Repr

/-- The ten rows of R81, in its order. -/
def opTable : List OpRow :=
  [⟨0x00, 0x000000000000, 0xFFFFFFFFFFFF⟩, ⟨0x01, 0x010000000000, 0xFF0000000000⟩,
   ⟨0x02, 0x020000000000, 0xFFFFFFFFFFFF⟩, ⟨0x03, 0x030000000000, 0xFFFFFFFFFFFF⟩,
   ⟨0x04, 0x040000000000, 0xFFFFFFFFFFFF⟩, ⟨0x05, 0x050000000000, 0xFFFFFFFFFFFF⟩,
   ⟨0x06, 0x060000000000, 0xFFFFFFFFFFFF⟩, ⟨0x07, 0x070000000000, 0xFFFFFFFFFFFF⟩,
   ⟨0x08, 0x080000000000, 0xFF00FFFFFFFF⟩, ⟨0x09, 0x090000000000, 0xFFFF00000000⟩]

/-- `W and mask = match` (R81). -/
def OpRow.selects (r : OpRow) (w : CommandWord) : Bool := w &&& r.mask == r.value

/-- The opcode of the row an instruction's word lies in; the entry points have none (R81, R86). -/
def Instr.opcode? : Instr → Option Byte
  | .ready => some 0x00
  | .beginLine _ _ => some 0x01
  | .endLine => some 0x02
  | .avail => some 0x03
  | .peek => some 0x04
  | .read => some 0x05
  | .availw => some 0x06
  | .flush => some 0x07
  | .write _ => some 0x08
  | .attach _ => some 0x09
  | .irqRx => none
  | .irqUdre => none

/-- The decoder on a word numbered as spec/opcode_table.json numbers it: up to one byte is a vector number
(format VEC, width 1), up to 48 bits a command word (format CMD). -/
def decodeTableWord (nbits w : Nat) : Option Instr :=
  if nbits ≤ 8 then (if w < 2 then some (decodeVector (BitVec.ofNat 1 w)) else none)
  else if nbits ≤ 48 ∧ w < 2 ^ 48 then (decodeCommand (BitVec.ofNat 48 w)).toOption
  else none

end Sys2Proof
end

