-- ==== Sys2Proof/Machine/State.lean ====
section
/-! DEFINITION. The state of one block with the serial unit behind its register set (R20 to R49), as plain
data; the reasons a step can stop; the state after reset. -/

namespace Sys2Proof.Machine

/-- A storage space RXB or TXB: cells listed by address, addresses strictly rising. An unlisted cell has never
been written and holds no value the model names (R49, R53). -/
abbrev Memory := List Host.Cell

/-- What an unlisted address reads as: no value. `cellValue` (Machine/Ops.lean) draws one (U10). -/
def Memory.unlisted : Option Byte := none

/-- The canonical form: addresses strictly rising. No entry can equal `unlisted`, which is no byte. -/
def Memory.wf : Memory → Bool
  | [] => true
  | [_] => true
  | x :: y :: m => decide (x.1 < y.1) && Memory.wf (y :: m)

/-- The response of a command (R84): `Done`, `Val(n)`, `None`, `Some(b)`. -/
inductive Response where
  | done
  | val (n : Nat)
  | none
  | some (b : Byte)
  deriving DecidableEq, Repr

/-- One register-set access as the bus trace shows it (R48, R70). -/
inductive Access where
  | rd (r : Reg) (v : Byte)
  | wr (r : Reg) (v : Byte)
  deriving DecidableEq, Repr

/-- One hook call with its answer (R48, R87). -/
structure HookCall where
  handle : Handle
  byte   : Byte
  status : Byte
  answer : Bool
  deriving DecidableEq, Repr

/-- A received byte waiting in DR, with its parity-error bit (R38). -/
structure RxByte where
  byte : Byte
  pe   : Bool
  deriving DecidableEq, Repr

/-- The labels S1, S2 of BEGIN and ATTACH (R114, R121). -/
inductive TwoPt where
  | s1 | s2
  deriving DecidableEq, Repr

/-- The labels of AVAIL and AVAILW with the snapshot S1 bound (R131, R137). -/
inductive CountPt where
  | s1
  | s2 (h t : Nat)
  deriving DecidableEq, Repr

/-- The labels of PEEK with the locals that later steps read (R133). -/
inductive PeekPt where
  | s1
  | s2 (t : Nat)
  | s3 (b : Byte)
  deriving DecidableEq, Repr

/-- The labels of READ with the locals that later steps read (R135). -/
inductive ReadPt where
  | s1
  | s2 (t : Nat)
  | s3 (t : Nat) (b : Byte)
  | s4 (b : Byte)
  deriving DecidableEq, Repr

/-- The labels of WRITE with the locals that later steps read (R140). -/
inductive WritePt where
  | w1
  | w2
  | w3 (h n : Nat)
  | w4 (h n : Nat)
  | w5
  deriving DecidableEq, Repr

/-- The labels F1 to F4 of FLUSH (R144). -/
inductive FlushPt where
  | f1 | f2 | f3 | f4
  deriving DecidableEq, Repr

/-- The labels of END: those of its flush part, then E1 and E2 (R118). -/
inductive EndPt where
  | drain (p : FlushPt)
  | e1
  | e2
  deriving DecidableEq, Repr

/-- The foreground sequencer (R28): `Idle`, or `Run(cmd, L, locals)` with one constructor per command, so that
a label is always one of its command's list. -/
inductive Fg where
  | idle
  | ready
  | beginLine (baud : BitVec 32) (frame : Byte) (pt : TwoPt)
  | endLine (pt : EndPt)
  | avail (pt : CountPt)
  | peek (pt : PeekPt)
  | read (pt : ReadPt)
  | availw (pt : CountPt)
  | flush (pt : FlushPt)
  | write (byte : Byte) (pt : WritePt)
  | attach (handle : Handle) (pt : TwoPt)
  deriving DecidableEq, Repr

/-- One move of one agent, as the schedule lists it (R15, R48, R60): the schedule, the words HOST presents, its
driving of `gie`, and the bytes and parity bits the environment delivers are inputs. -/
inductive Move where
  /-- FG executes one labelled step (R28). -/
  | fg
  /-- The runtime's dispatch invokes the entry with this table index (R86, R171, R172). -/
  | irq (idx : Nat)
  /-- Unit step RECEIVE(b, pe) (R39). -/
  | receive (b : Byte) (pe : Bool)
  /-- Unit step LOAD (R42). -/
  | load
  /-- Unit step DONE (R43). -/
  | done
  /-- HOST presents a command word (R28, R80). -/
  | present (w : CommandWord)
  /-- HOST drives the global interrupt enable (R29). -/
  | setGie (on : Bool)
  deriving DecidableEq, Repr

/-- The whole state. -/
structure State where
  /-- The parameters of R9; no step changes them. -/
  cfg       : Params
  /-- `x[0]`, next write slot of the RX ring (R21). -/
  rxHead    : Nat
  /-- `x[1]`, next read slot of the RX ring (R21). -/
  rxTail    : Nat
  /-- `x[2]`, next write slot of the TX ring (R22). -/
  txHead    : Nat
  /-- `x[3]`, next read slot of the TX ring (R22). -/
  txTail    : Nat
  /-- Storage space RXB (R24, R50). -/
  rxBuf     : Memory
  /-- Storage space TXB (R24, R50). -/
  txBuf     : Memory
  /-- The written-since-begin flag (R25). -/
  written   : Bool
  /-- The hook reference (R26). -/
  hook      : Option Handle
  /-- The line state (R27). -/
  line      : Line
  /-- The foreground sequencer (R28). -/
  fg        : Fg
  /-- The global interrupt enable, driven by HOST (R29). -/
  gie       : Bool
  /-- Register BRH (R31). -/
  brh       : Byte
  /-- Register BRL (R31). -/
  brl       : Byte
  /-- Register CSB, stored whole (R34). -/
  csb       : Byte
  /-- Register CSC (R35). -/
  csc       : Byte
  /-- The stored bit TXC of CSA (R32, R38). -/
  txc       : Bool
  /-- The stored bit U2X of CSA (R32). -/
  u2x       : Bool
  /-- The stored bit MPCM of CSA, where `HAS_MPCM` (R32). -/
  mpcm      : Bool
  /-- Unit cell `rx_wait`: RXC and UPE are functions of it (R38). -/
  rxWait    : Option RxByte
  /-- Unit cell `tx_hold`: UDRE is a function of it (R38). -/
  txHold    : Option Byte
  /-- Unit cell `tx_shift` (R38). -/
  txShift   : Option Byte
  /-- The bytes that have left the line, oldest first (R38). -/
  wireOut   : List Byte
  /-- Observation: the responses on the command port (R48). -/
  responses : List Response
  /-- Observation: the register-set accesses (R48, R70). -/
  bus       : List Access
  /-- Observation: the hook calls with their answers (R48). -/
  hookCalls : List HookCall
  /-- MODEL's own field: the moves to come (R48, R60); empty: only FG moves. -/
  sched     : List Move
  /-- MODEL's own field: the hook's next answers; empty: `Config.hookAnswer` answers (U19). -/
  hookIn    : List Bool
  /-- MODEL's own field: the next free bytes; empty: `Config.freeByte` gives them (U7, U9). -/
  drawIn    : List Byte
  /-- MODEL's own field: how many bytes `Config.freeByte` has given. -/
  drawCount : Nat
  deriving DecidableEq, Repr

/-- Situations the spec makes a fault of the model (R12, R167). -/
inductive Fault where
  /-- Raised by the transmit-empty body on an empty TX ring (R157, U6). Safe: the spec asks for this fault. -/
  | txBodyOnEmptyRing
  /-- Raised by a write of DR while the unit holds the previous byte (R41, U8). Safe: the spec asks for it. -/
  | dataRegisterHeld
  /-- Raised by an access to a cell outside its space (R50, R55). Safe: no state that a run reaches does it. -/
  | addressOutOfRange
  deriving DecidableEq, Repr

/-- Situations the spec makes no move of the model (R12, R167), and instructions not modelled yet. -/
inductive Refusal where
  /-- Raised by exec for an instruction without a meaning; safe. No arm raises it. -/
  | notModelled (mnemonic : String)
  /-- Raised by step: the parameters are no configuration of the model (U1, R201). Safe. -/
  | badConfiguration
  /-- Raised when a command is presented or stepped while another runs (U11, R28). Safe. -/
  | commandWhileBusy
  /-- Raised when HOST presents a command the line state does not admit (U5, R199). Safe. -/
  | commandNotAdmitted
  /-- Raised by a BEGIN that R113 gives no meaning (U2, U3, U4). Safe. -/
  | illFormedBegin
  /-- Raised when HOST drives `gie` while a command runs (U17, R29). Safe. -/
  | gieChangeWhileBusy
  /-- Raised when the schedule names a step that is not enabled: a handler of any line (R172, R182), a unit
  step (R39, R42, R43, U15), FG while idle (R28). Safe: such a schedule is no execution. -/
  | moveNotEnabled
  deriving DecidableEq, Repr

/-- The state after reset (construction), for any parameters (R49, R195, R196). The values the spec leaves
open are named in assumption logs 3 and 4. -/
def State.resetWith (p : Params) : State where
  cfg := p
  rxHead := 0
  rxTail := 0
  txHead := 0
  txTail := 0
  rxBuf := []
  txBuf := []
  written := false
  hook := none
  line := .uninitialized
  fg := .idle
  gie := false
  brh := 0
  brl := 0
  csb := 0
  csc := 0
  txc := false
  u2x := false
  mpcm := false
  rxWait := none
  txHold := none
  txShift := none
  wireOut := []
  responses := []
  bus := []
  hookCalls := []
  sched := []
  hookIn := []
  drawIn := []
  drawCount := 0

/-- The state after reset with the parameters of `Config.default`. -/
def State.reset : State := State.resetWith Config.default

/-- The command `fg` is running, if any (R28). -/
def Fg.command? : Fg → Option Instr
  | .idle => none
  | .ready => some .ready
  | .beginLine baud frame _ => some (.beginLine baud frame)
  | .endLine _ => some .endLine
  | .avail _ => some .avail
  | .peek _ => some .peek
  | .read _ => some .read
  | .availw _ => some .availw
  | .flush _ => some .flush
  | .write byte _ => some (.write byte)
  | .attach handle _ => some (.attach handle)

end Sys2Proof.Machine
end

