-- ==== Sys2Proof/Machine/Flags.lean ====
section
/-! DEFINITION. The bits of CSA and CSB: masks (R92), the fields of CSA as a record with its 8-bit image
(R32, R33), the value the transmit-empty body writes to CSA (R156), the two interrupt requests (R45). -/

namespace Sys2Proof.Machine

/-- `M(p)`: the mask with only bit p set (R11). -/
def bitMask (p : Nat) : Byte := BitVec.twoPow 8 p

/-- `v[p]` (R11). -/
def bitOf (v : Byte) (p : Nat) : Bool := v.getLsbD p

/-- `M(p)` where the bit is 1, no bit where it is 0. -/
def bitIf (on : Bool) (p : Nat) : Byte := if on then bitMask p else 0

/-- `BEGIN_SET` (R92). -/
def beginSet (p : Params) : Byte := bitMask p.pRxen ||| bitMask p.pTxen ||| bitMask p.pRxcie

/-- `END_CLEAR` (R92). -/
def endClear (p : Params) : Byte :=
  bitMask p.pRxen ||| bitMask p.pTxen ||| bitMask p.pRxcie ||| bitMask p.pUdrie

/-- `KEEP_A` (R92): the CSA bits the transmit-empty body preserves. -/
def keepA (p : Params) : Byte :=
  if p.hasMpcm then bitMask p.pU2x ||| bitMask p.pMpcm else bitMask p.pU2x

/-- The CSA bits R32 names; all others are "other bits". -/
def csaNamed (p : Params) : Byte :=
  bitMask p.pRxc ||| bitMask p.pTxc ||| bitMask p.pUdre ||| bitMask p.pUpe ||| bitMask p.pU2x |||
    (if p.hasMpcm then bitMask p.pMpcm else 0)

/-- A value read from or written to CSA, by the fields of R32. `other` gives the bits R32 does not name. -/
structure Csa where
  rxc   : Bool
  txc   : Bool
  udre  : Bool
  upe   : Bool
  u2x   : Bool
  mpcm  : Bool
  other : Byte
  deriving DecidableEq, Repr

/-- The 8-bit image of the fields (R32): what the bus shows and what the hook gets. -/
def Csa.image (p : Params) (c : Csa) : Byte :=
  bitIf c.rxc p.pRxc ||| bitIf c.txc p.pTxc ||| bitIf c.udre p.pUdre ||| bitIf c.upe p.pUpe |||
    bitIf c.u2x p.pU2x ||| bitIf (p.hasMpcm && c.mpcm) p.pMpcm ||| (c.other &&& ~~~ csaNamed p)

/-- The fields of an 8-bit image (R32). -/
def Csa.ofImage (p : Params) (v : Byte) : Csa where
  rxc := bitOf v p.pRxc
  txc := bitOf v p.pTxc
  udre := bitOf v p.pUdre
  upe := bitOf v p.pUpe
  u2x := bitOf v p.pU2x
  mpcm := bitOf v p.pMpcm
  other := v

/-- The parity-error bit of the byte waiting in DR (R38). -/
def upeOf : Option RxByte → Bool
  | some w => w.pe
  | none => false

/-- What a read of CSA finds, given the draw for the bits the spec does not name (R32, R38, U9). -/
def csaView (s : State) (other : Byte) : Csa where
  rxc := s.rxWait.isSome
  txc := s.txc
  udre := s.txHold.isNone
  upe := upeOf s.rxWait
  u2x := s.u2x
  mpcm := s.mpcm
  other := other

/-- The value the transmit-empty body writes to CSA, given the value it read, bit by bit as R156 lists it:
TXC 1, U2X and MPCM as read, every other bit 0. Its image is `(s and KEEP_A) or M(P_TXC)` (R155); the law
`clearTxcValue_image` says so. -/
def clearTxcValue (p : Params) (c : Csa) : Csa where
  rxc := false
  txc := true
  udre := false
  upe := false
  u2x := c.u2x
  mpcm := p.hasMpcm && c.mpcm
  other := 0

/-- `irq_rx = CSB[P_RXCIE] and CSA[P_RXC]` (R45). -/
def irqRxRequest (s : State) : Bool := bitOf s.csb s.cfg.pRxcie && s.rxWait.isSome

/-- `irq_udre = CSB[P_UDRIE] and CSA[P_UDRE]` (R45). -/
def irqUdreRequest (s : State) : Bool := bitOf s.csb s.cfg.pUdrie && s.txHold.isNone

end Sys2Proof.Machine
end

