-- ==== Sys2Proof/Machine/Ops.lean ====
section
/-! DEFINITION. The named operations over storage, the register set, the command port and the hook port (R12,
R50 to R62), the presenting of a command (R28, R199), and the invoking of a handler (R172 to R176). -/

namespace Sys2Proof.Machine

/-- An outcome that carries a value. -/
abbrev Result (α : Type) := Host.Outcome α Fault Refusal

/-- Go on with the value of an outcome, or stop as it stopped. -/
def andThen {α β : Type} (o : Result α) (f : α → Result β) : Result β :=
  match o with
  | .next a => f a
  | .fault r => .fault r
  | .refused r => .refused r

/-! ### Storage cells -/

/-- The byte listed at an address. -/
def Memory.read : Memory → Nat → Option Byte
  | [], _ => Memory.unlisted
  | x :: m, a => if x.1 = a then some x.2 else Memory.read m a

/-- Store a byte, keeping addresses strictly rising. -/
def Memory.write : Memory → Nat → Byte → Memory
  | [], a, v => [(a, v)]
  | x :: m, a, v =>
    if a < x.1 then (a, v) :: x :: m
    else if a = x.1 then (a, v) :: m
    else x :: Memory.write m a v

/-- The byte a cell holds: the listed one, or the free value of a cell nothing has written (R49, U10). -/
def cellValue (sp : Space) (m : Memory) (a : Nat) : Byte := (m.read a).getD (Config.freeCell sp a)

/-! ### Free values -/

/-- Draw a byte the spec gives as "any value" (U7, U9): the environment's next one, or the free value. -/
def drawByte (s : State) : Byte × State :=
  match s.drawIn with
  | v :: vs => (v, { s with drawIn := vs })
  | [] => (Config.freeByte s.drawCount, { s with drawCount := s.drawCount + 1 })

/-! ### The register set -/

/-- Record one access on the register-set port (R48, R70). -/
def logAccess (a : Access) (s : State) : State := { s with bus := s.bus ++ [a] }

/-- Read CSA (R32, U9): the fields, and the image on the bus. No side effect on the unit (R57). -/
def readCsa (s : State) : Csa × State :=
  let d := drawByte s
  let c := csaView s d.1
  (c, logAccess (.rd .csa (c.image s.cfg)) d.2)

/-- Read DR (R40): the waiting byte is taken, so RXC and UPE fall; with none waiting, any value. -/
def readDr (s : State) : Byte × State :=
  match s.rxWait with
  | some w => (w.byte, logAccess (.rd .dr w.byte) { s with rxWait := none })
  | none =>
    let d := drawByte s
    (d.1, logAccess (.rd .dr d.1) d.2)

/-- `RegRead(r)` (R12, R57). -/
def regRead (r : Reg) (s : State) : Byte × State :=
  match r with
  | .brh => (s.brh, logAccess (.rd .brh s.brh) s)
  | .brl => (s.brl, logAccess (.rd .brl s.brl) s)
  | .csa =>
    let c := readCsa s
    (c.1.image s.cfg, c.2)
  | .csb => (s.csb, logAccess (.rd .csb s.csb) s)
  | .csc => (s.csc, logAccess (.rd .csc s.csc) s)
  | .dr => readDr s

/-- What a write to CSA does, field by field (R33): a 1 clears TXC, U2X and MPCM are stored, RXC, UDRE and UPE
belong to the unit. A bit that R32 does not name has no effect, written 0 or 1: for a 1 R33 says 'unspecified
effect' and U9 settles only a 0, so this is the model's choice (DESIGN CHOICE, assumption log 21); the block itself
always writes 0 there (R156). -/
def storeCsa (c : Csa) (s : State) : State :=
  { s with
    txc := s.txc && !c.txc
    u2x := c.u2x
    mpcm := if s.cfg.hasMpcm then c.mpcm else s.mpcm }

/-- A write of CSA by fields, its image on the bus. The law `regWrite_csa_image` says that this is `RegWrite`
of the image. -/
def writeCsa (c : Csa) (s : State) : State :=
  logAccess (.wr .csa (c.image s.cfg)) (storeCsa c s)

/-- `RegWrite(DR, v)` (R41, U8). -/
def writeDr (v : Byte) (s : State) : Result State :=
  match s.txHold with
  | none => .next (logAccess (.wr .dr v) { s with txHold := some v })
  | some _ => .fault .dataRegisterHeld

/-- `RegWrite(r, v)` (R12, R33, R41, R57). -/
def regWrite (r : Reg) (v : Byte) (s : State) : Result State :=
  match r with
  | .brh => .next (logAccess (.wr .brh v) { s with brh := v })
  | .brl => .next (logAccess (.wr .brl v) { s with brl := v })
  | .csa => .next (logAccess (.wr .csa v) (storeCsa (Csa.ofImage s.cfg v) s))
  | .csb => .next (logAccess (.wr .csb v) { s with csb := v })
  | .csc => .next (logAccess (.wr .csc v) { s with csc := v })
  | .dr => writeDr v s

/-- `RegSetBits(r, m)`: one atomic read-modify-write (R62). -/
def regSetBits (r : Reg) (m : Byte) (s : State) : Result State :=
  let v := regRead r s
  regWrite r (v.1 ||| m) v.2

/-- `RegClearBits(r, m)`: one atomic read-modify-write (R62). -/
def regClearBits (r : Reg) (m : Byte) (s : State) : Result State :=
  let v := regRead r s
  regWrite r (v.1 &&& ~~~ m) v.2

/-- The register at a number of space REG (R30, R50). -/
def regAt : Nat → Option Reg
  | 0 => some .brh
  | 1 => some .brl
  | 2 => some .csa
  | 3 => some .csb
  | 4 => some .csc
  | 5 => some .dr
  | _ => none

/-- The platform address of a register (R30, R58). -/
def regAddress (p : Params) : Reg → Nat
  | .brh => p.addr.brh
  | .brl => p.addr.brl
  | .csa => p.addr.csa
  | .csb => p.addr.csb
  | .csc => p.addr.csc
  | .dr => p.addr.dr

/-! ### Memory accesses by space -/

/-- `MemRead(space, addr, 1)` (R12, R50). -/
def memRead (sp : Space) (a : Nat) (s : State) : Result (Byte × State) :=
  match sp with
  | .rxb => if a < s.cfg.cRx then .next (cellValue .rxb s.rxBuf a, s) else .fault .addressOutOfRange
  | .txb => if a < s.cfg.cTx then .next (cellValue .txb s.txBuf a, s) else .fault .addressOutOfRange
  | .reg =>
    match regAt a with
    | some r => .next (regRead r s)
    | none => .fault .addressOutOfRange

/-- `MemWrite(space, addr, 1, v)` (R12, R50). -/
def memWrite (sp : Space) (a : Nat) (v : Byte) (s : State) : Result State :=
  match sp with
  | .rxb =>
    if a < s.cfg.cRx then .next { s with rxBuf := s.rxBuf.write a v } else .fault .addressOutOfRange
  | .txb =>
    if a < s.cfg.cTx then .next { s with txBuf := s.txBuf.write a v } else .fault .addressOutOfRange
  | .reg =>
    match regAt a with
    | some r => regWrite r v s
    | none => .fault .addressOutOfRange

/-! ### Index arithmetic -/

/-- `(i + 1) mod C` (R105), over unbounded naturals. -/
def nextIndex (c i : Nat) : Nat := (i + 1) % c

/-- `(h - t) mod C` in the form R103 gives for naturals. -/
def ringCount (c h t : Nat) : Nat := (c + h - t) % c

/-- Set all four indices to 0 (R114, R118). -/
def resetRings (s : State) : State := { s with rxHead := 0, rxTail := 0, txHead := 0, txTail := 0 }

/-! ### The command port -/

/-- The foreground goes to a label (R12, R28). -/
def goTo (l : Fg) (s : State) : State := { s with fg := l }

/-- `respond(w)`: put the response on the command port and end the command (R12, R28). -/
def respond (r : Response) (s : State) : State := { s with fg := .idle, responses := s.responses ++ [r] }

/-- HOST presents a command while `fg = Idle` (R28): `fg <- Run(cmd, S1, {})` where the line state admits it
(R199), refused where it does not. -/
def present (i : Instr) (entry : Fg) (s : State) : Result State :=
  if admitted i s.line then .next (goTo entry s) else .refused .commandNotAdmitted

/-- A command presented or stepped while another one runs: no move of the model (R28, U11). -/
def refuseBusy : Result State := .refused .commandWhileBusy

/-- The field `kind` and `value` of a response (R84). -/
def responseWord (kind : Nat) (value : Nat) : ResponseWord := BitVec.ofNat 18 (kind * 65536 + value)

/-- The response word (R84). -/
def Response.encode : Response → ResponseWord
  | .done => responseWord 0 0
  | .val n => responseWord 1 n
  | .none => responseWord 2 0
  | .some b => responseWord 3 b.toNat

/-! ### The hook port -/

/-- Call the installed hook (R87, R203): the environment's next answer, or the oracle's free value. -/
def callHook (h : Handle) (byte status : Byte) (s : State) : Bool × State :=
  match s.hookIn with
  | a :: rest =>
    (a, { s with hookIn := rest, hookCalls := s.hookCalls ++ [⟨h, byte, status, a⟩] })
  | [] =>
    let a := Config.hookAnswer s.hookCalls.length h byte status
    (a, { s with hookCalls := s.hookCalls ++ [⟨h, byte, status, a⟩] })

/-! ### Interrupts: entry and return

The block raises no synchronous exception (R165). Its interrupts are the one kind of exception it has. -/

/-- When the handler of an entry point may be invoked (R172): its request is up and `gie = 1`. Between two steps
no handler runs and FG is at a preemption point, so (c) and (d) always hold here. -/
def handlerEnabled (s : State) : Instr → Bool
  | .irqRx => s.gie && irqRxRequest s
  | .irqUdre => s.gie && irqUdreRequest s
  | .ready => false
  | .beginLine _ _ => false
  | .endLine => false
  | .avail => false
  | .peek => false
  | .read => false
  | .availw => false
  | .flush => false
  | .write _ => false
  | .attach _ => false

/-- Entry (R174): invoking a handler saves nothing and changes no register by itself. -/
def enterHandler (s : State) : State := s

/-- Return (R176): control goes back to where `fg` points; nothing is restored. -/
def leaveHandler (s : State) : State := s

/-- Invoke the body of a handler if it is enabled (R172 to R176): one atomic step (R175). -/
def invokeHandler (i : Instr) (body : State → Result State) (s : State) : Result State :=
  if handlerEnabled s i then andThen (body (enterHandler s)) fun t => .next (leaveHandler t)
  else .refused .moveNotEnabled

end Sys2Proof.Machine
end

