-- ==== Sys2Proof/Machine/RingBuffer.lean ====
section
/-! DEFINITION. The five primitives of the RingBuffer component (R100 to R104), over either ring. -/

namespace Sys2Proof.Machine

/-- The capacity of a ring. -/
def ringCap (q : Ring) (s : State) : Nat :=
  match q with
  | .rx => s.cfg.cRx
  | .tx => s.cfg.cTx

/-- The head of a ring. -/
def ringHead (q : Ring) (s : State) : Nat :=
  match q with
  | .rx => s.rxHead
  | .tx => s.txHead

/-- The tail of a ring. -/
def ringTail (q : Ring) (s : State) : Nat :=
  match q with
  | .rx => s.rxTail
  | .tx => s.txTail

/-- The storage space of a ring. -/
def ringSpace : Ring → Space
  | .rx => .rxb
  | .tx => .txb

/-- The storage of a ring. -/
def ringBuf (q : Ring) (s : State) : Memory :=
  match q with
  | .rx => s.rxBuf
  | .tx => s.txBuf

/-- Move the head of a ring. -/
def setRingHead (q : Ring) (n : Nat) (s : State) : State :=
  match q with
  | .rx => { s with rxHead := n }
  | .tx => { s with txHead := n }

/-- Move the tail of a ring. -/
def setRingTail (q : Ring) (n : Nat) (s : State) : State :=
  match q with
  | .rx => { s with rxTail := n }
  | .tx => { s with txTail := n }

/-- `tryPush(Q, b)` (R100): store first, publish second; nothing on a full ring. -/
def tryPush (q : Ring) (b : Byte) (s : State) : Result (Bool × State) :=
  let n := nextIndex (ringCap q s) (ringHead q s)
  if n = ringTail q s then .next (false, s)
  else andThen (memWrite (ringSpace q) (ringHead q s) b s) fun s1 => .next (true, setRingHead q n s1)

/-- `tryPop(Q)` (R101): read first, release second; nothing on an empty ring. -/
def tryPop (q : Ring) (s : State) : Result (Option Byte × State) :=
  if ringHead q s = ringTail q s then .next (none, s)
  else andThen (memRead (ringSpace q) (ringTail q s) s) fun r =>
    .next (some r.1, setRingTail q (nextIndex (ringCap q s) (ringTail q s)) r.2)

/-- `peek(Q)` (R102): as tryPop, without the advance. -/
def peekRing (q : Ring) (s : State) : Result (Option Byte) :=
  if ringHead q s = ringTail q s then .next none
  else andThen (memRead (ringSpace q) (ringTail q s) s) fun r => .next (some r.1)

/-- `count(Q)` (R103). -/
def count (q : Ring) (s : State) : Nat := ringCount (ringCap q s) (ringHead q s) (ringTail q s)

/-- `freeSlots(Q)` (R104). -/
def freeSlots (q : Ring) (s : State) : Nat := ringCap q s - 1 - count q s

/-- The buffered bytes, oldest first, from slot `t` on, `k` of them (R37e). -/
def bytesFrom (sp : Space) (m : Memory) (c : Nat) : Nat → Nat → List Byte
  | _, 0 => []
  | t, k + 1 => cellValue sp m t :: bytesFrom sp m c (nextIndex c t) k

/-- The bytes a ring holds, oldest first (R37e). -/
def ringBytes (q : Ring) (s : State) : List Byte :=
  bytesFrom (ringSpace q) (ringBuf q s) (ringCap q s) (ringTail q s) (count q s)

end Sys2Proof.Machine
end

