-- ==== Sys2Proof/Machine/Handlers.lean ====
section
/-! DEFINITION. The two handler bodies (R150 to R158). Each is one atomic step. -/

namespace Sys2Proof.Machine

/-- A byte kept by the receive handler goes to the RX ring; a full ring drops it silently (R151, R153). -/
def storeReceived (d : Byte) (s : State) : Result State :=
  andThen (tryPush .rx d s) fun r => .next r.2

/-- The receive-complete body (R151): status, then data, then the hook or the parity test decides. -/
def rxBody (s : State) : Result State :=
  let st := readCsa s
  let d := readDr st.2
  match s.hook with
  | some h =>
    let k := callHook h d.1 (st.1.image s.cfg) d.2
    if k.1 then storeReceived d.1 k.2 else .next k.2
  | none => if st.1.upe then .next d.2 else storeReceived d.1 d.2

/-- After the byte is handed over: clear TXC by writing it back as 1, keep U2X and MPCM, and disable the
transmit-empty interrupt if the ring is now empty (R155, R156). -/
def txBodyTail (s : State) : Result State :=
  let st := readCsa s
  let s1 := writeCsa (clearTxcValue s.cfg st.1) st.2
  if s1.txHead = s1.txTail then regClearBits .csb (bitMask s1.cfg.pUdrie) s1 else .next s1

/-- `TxEmptyBody()` (R155): pop the oldest byte, hand it to the unit, then the rest of the body; a fault on an
empty ring (R157). -/
def txEmptyBody (s : State) : Result State :=
  if s.txHead = s.txTail then .fault .txBodyOnEmptyRing
  else
    andThen (memRead .txb s.txTail s) fun c =>
    andThen (writeDr c.1 { c.2 with txTail := nextIndex s.cfg.cTx s.txTail }) txBodyTail

/-- The masked-interrupt fallback, one atomic group (R140 step W2, R144 step F4): read CSA, and where UDRE is 1
run the transmit-empty body. -/
def pollAndPump (s : State) : Result State :=
  let st := readCsa s
  if st.1.udre then txEmptyBody st.2 else .next st.2

/-- IRQ_RX (R151). -/
def execIrqRx (s : State) : Result State := rxBody s

/-- IRQ_UDRE (R155). -/
def execIrqUdre (s : State) : Result State := txEmptyBody s

end Sys2Proof.Machine
end

