-- ==== Sys2Proof/Machine/DataPath.lean ====
section
/-! DEFINITION. The commands that move or count data bytes (R130 to R147). Each meaning answers, by where `fg`
stands: the presenting of the command (`fg = Idle`), or one labelled step of it. -/

namespace Sys2Proof.Machine

/-- AVAIL (R131). -/
def execAvail (s : State) : Result State :=
  match s.fg with
  | .idle => present .avail (.avail .s1) s
  | .avail .s1 => .next (goTo (.avail (.s2 s.rxHead s.rxTail)) s)
  | .avail (.s2 h t) => .next (respond (.val (ringCount s.cfg.cRx h t)) s)
  | _ => refuseBusy

/-- PEEK (R133). -/
def execPeek (s : State) : Result State :=
  match s.fg with
  | .idle => present .peek (.peek .s1) s
  | .peek .s1 =>
    if s.rxHead = s.rxTail then .next (respond .none s) else .next (goTo (.peek (.s2 s.rxTail)) s)
  | .peek (.s2 t) => andThen (memRead .rxb t s) fun r => .next (goTo (.peek (.s3 r.1)) r.2)
  | .peek (.s3 b) => .next (respond (.some b) s)
  | _ => refuseBusy

/-- READ (R135). -/
def execRead (s : State) : Result State :=
  match s.fg with
  | .idle => present .read (.read .s1) s
  | .read .s1 =>
    if s.rxHead = s.rxTail then .next (respond .none s) else .next (goTo (.read (.s2 s.rxTail)) s)
  | .read (.s2 t) => andThen (memRead .rxb t s) fun r => .next (goTo (.read (.s3 t r.1)) r.2)
  | .read (.s3 t b) => .next (goTo (.read (.s4 b)) { s with rxTail := nextIndex s.cfg.cRx t })
  | .read (.s4 b) => .next (respond (.some b) s)
  | _ => refuseBusy

/-- AVAILW (R137). -/
def execAvailw (s : State) : Result State :=
  match s.fg with
  | .idle => present .availw (.availw .s1) s
  | .availw .s1 => .next (goTo (.availw (.s2 s.txHead s.txTail)) s)
  | .availw (.s2 h t) => .next (respond (.val (s.cfg.cTx - 1 - ringCount s.cfg.cTx h t)) s)
  | _ => refuseBusy

/-- Step W1 of WRITE (R140): one snapshot; a free slot goes to W3, a full ring to W2. -/
def writeW1 (byte : Byte) (s : State) : Result State :=
  let n := nextIndex s.cfg.cTx s.txHead
  if n = s.txTail then .next (goTo (.write byte .w2) s)
  else .next (goTo (.write byte (.w3 s.txHead n)) s)

/-- Step W2 (R140): with interrupts masked, poll and pump; then re-check. -/
def writeW2 (byte : Byte) (s : State) : Result State :=
  if s.gie then .next (goTo (.write byte .w1) s)
  else andThen (pollAndPump s) fun t => .next (goTo (.write byte .w1) t)

/-- Step W3 (R140): store the byte in the free cell. -/
def writeW3 (byte : Byte) (h n : Nat) (s : State) : Result State :=
  andThen (memWrite .txb h byte s) fun t => .next (goTo (.write byte (.w4 h n)) t)

/-- Step W4 (R140): publish the head, set `written`, enable the transmit-empty interrupt, in one atomic group. -/
def writeW4 (byte : Byte) (n : Nat) (s : State) : Result State :=
  andThen (regSetBits .csb (bitMask s.cfg.pUdrie) { s with txHead := n, written := true }) fun t =>
    .next (goTo (.write byte .w5) t)

/-- One labelled step of WRITE (R140). -/
def writeStep (byte : Byte) (pt : WritePt) (s : State) : Result State :=
  match pt with
  | .w1 => writeW1 byte s
  | .w2 => writeW2 byte s
  | .w3 h n => writeW3 byte h n s
  | .w4 _ n => writeW4 byte n s
  | .w5 => .next (respond (.val 1) s)

/-- WRITE (R140). -/
def execWrite (byte : Byte) (s : State) : Result State :=
  match s.fg with
  | .idle => present (.write byte) (.write byte .w1) s
  | .write b pt => if b = byte then writeStep byte pt s else refuseBusy
  | _ => refuseBusy

/-- One labelled step of the flush loop (R144), shared by FLUSH and by END's drain (R118): `at` is where its labels
stand in the running command, `finish` what stands for `respond(Done)`. -/
def flushStep (loc : FlushPt → Fg) (finish : State → State) (pt : FlushPt) (s : State) : Result State :=
  match pt with
  | .f1 => if s.written then .next (goTo (loc .f2) s) else .next (finish s)
  | .f2 => if s.txHead = s.txTail then .next (goTo (loc .f3) s) else .next (goTo (loc .f4) s)
  | .f3 =>
    let st := readCsa s
    if st.1.txc then .next (finish st.2) else .next (goTo (loc .f2) st.2)
  | .f4 =>
    if !s.gie && s.cfg.flushPollsWhenMasked then
      andThen (pollAndPump s) fun t => .next (goTo (loc .f2) t)
    else .next (goTo (loc .f2) s)

/-- FLUSH (R144). -/
def execFlush (s : State) : Result State :=
  match s.fg with
  | .idle => present .flush (.flush .f1) s
  | .flush pt => flushStep .flush (respond .done) pt s
  | _ => refuseBusy

end Sys2Proof.Machine
end

