-- ==== Sys2Proof/Machine/LineControl.lean ====
section
/-! DEFINITION. The commands that change the line state, the register set's configuration and the hook
reference (R110 to R122). -/

namespace Sys2Proof.Machine

/-- READY (R111). -/
def execReady (s : State) : Result State :=
  match s.fg with
  | .idle => present .ready .ready s
  | .ready => .next (respond (.val 1) s)
  | _ => refuseBusy

/-- The atomic group S1 of BEGIN (R114). -/
def beginAtomic (baud : BitVec 32) (frame : Byte) (s : State) : Result State :=
  andThen (regWrite .brh (divisorHigh s.cfg baud) s) fun s1 =>
  andThen (regWrite .brl (divisorLow s1.cfg baud) s1) fun s2 =>
  andThen (regWrite .csc frame s2) fun s3 =>
    let s4 := { resetRings s3 with written := false }
    let v := regRead .csb s4
    andThen (regWrite .csb ((v.1 ||| beginSet s4.cfg) &&& ~~~ bitMask s4.cfg.pUdrie) v.2) fun s5 =>
      .next { s5 with line := .active }

/-- BEGIN (R114). Operands that R113 gives no meaning are refused, when presented and at S1 alike. -/
def execBegin (baud : BitVec 32) (frame : Byte) (s : State) : Result State :=
  if beginOk s.cfg baud frame then
    match s.fg with
    | .idle => present (.beginLine baud frame) (.beginLine baud frame .s1) s
    | .beginLine b f .s1 =>
      if b = baud ∧ f = frame then
        andThen (beginAtomic baud frame s) fun t => .next (goTo (.beginLine baud frame .s2) t)
      else refuseBusy
    | .beginLine b f .s2 => if b = baud ∧ f = frame then .next (respond .done s) else refuseBusy
    | _ => refuseBusy
  else .refused .illFormedBegin

/-- The atomic group E1 of END (R118). -/
def endAtomic (s : State) : Result State :=
  andThen (regClearBits .csb (endClear s.cfg) s) fun s1 =>
    .next { resetRings s1 with line := .uninitialized }

/-- END (R118): the steps of FLUSH with "respond(Done)" replaced by "goto E1", then E1 and E2. -/
def execEnd (s : State) : Result State :=
  match s.fg with
  | .idle => present .endLine (.endLine (.drain .f1)) s
  | .endLine (.drain pt) => flushStep (fun p => .endLine (.drain p)) (goTo (.endLine .e1)) pt s
  | .endLine .e1 => andThen (endAtomic s) fun t => .next (goTo (.endLine .e2) t)
  | .endLine .e2 => .next (respond .done s)
  | _ => refuseBusy

/-- ATTACH (R121); DETACH is ATTACH 0 (R122). -/
def execAttach (handle : Handle) (s : State) : Result State :=
  match s.fg with
  | .idle => present (.attach handle) (.attach handle .s1) s
  | .attach h .s1 =>
    if h = handle then .next (goTo (.attach handle .s2) { s with hook := hookOf handle }) else refuseBusy
  | .attach h .s2 => if h = handle then .next (respond .done s) else refuseBusy
  | _ => refuseBusy

end Sys2Proof.Machine
end

