-- ==== Sys2Proof/Machine/Dispatch.lean ====
section
/-! DEFINITION. One arm per instruction. -/

namespace Sys2Proof.Machine

def exec (i : Instr) (s : State) : Host.Outcome State Fault Refusal :=
  match i with
  | .ready => Sys2Proof.Machine.execReady s
  | .beginLine baud frame => Sys2Proof.Machine.execBegin baud frame s
  | .endLine => Sys2Proof.Machine.execEnd s
  | .avail => Sys2Proof.Machine.execAvail s
  | .peek => Sys2Proof.Machine.execPeek s
  | .read => Sys2Proof.Machine.execRead s
  | .availw => Sys2Proof.Machine.execAvailw s
  | .flush => Sys2Proof.Machine.execFlush s
  | .write byte => Sys2Proof.Machine.execWrite byte s
  | .attach handle => Sys2Proof.Machine.execAttach handle s
  | .irqRx => Sys2Proof.Machine.execIrqRx s
  | .irqUdre => Sys2Proof.Machine.execIrqUdre s

end Sys2Proof.Machine
end

