-- ==== Sys2Proof/Machine/SerialUnit.lean ====
section
/-! DEFINITION. The steps of the serial unit behind the register set (R38 to R44): RECEIVE, LOAD, DONE. A step
that is not enabled is no move (assumption log 8). -/

namespace Sys2Proof.Machine

/-- Unit step RECEIVE(b, pe) is enabled (R39). -/
def receiveEnabled (s : State) : Bool := bitOf s.csb s.cfg.pRxen && s.rxWait.isNone

/-- Unit step RECEIVE(b, pe) (R39). -/
def unitReceive (b : Byte) (pe : Bool) (s : State) : Result State :=
  if receiveEnabled s then .next { s with rxWait := some ⟨b, pe⟩ } else .refused .moveNotEnabled

/-- Unit step LOAD is enabled (R42). -/
def loadEnabled (s : State) : Bool := bitOf s.csb s.cfg.pTxen && s.txHold.isSome && s.txShift.isNone

/-- Unit step LOAD (R42). -/
def unitLoad (s : State) : Result State :=
  if loadEnabled s then .next { s with txShift := s.txHold, txHold := none } else .refused .moveNotEnabled

/-- Unit step DONE is enabled (R43). -/
def doneEnabled (s : State) : Bool := s.txShift.isSome

/-- Unit step DONE (R43): TXC rises only if nothing is held. -/
def unitDone (s : State) : Result State :=
  match s.txShift with
  | some b =>
    .next { s with
      wireOut := s.wireOut ++ [b]
      txShift := none
      txc := if s.txHold.isNone then true else s.txc }
  | none => .refused .moveNotEnabled

end Sys2Proof.Machine
end

