-- ==== Sys2Proof/Machine/Moves.lean ====
section
/-! DEFINITION. What one move of one agent does (R15, R60), and how a word is laid where the machine takes its
next instruction. Machine/Step.lean only calls these. -/

namespace Sys2Proof.Machine

/-- FG executes the labelled step `fg` points at (R28); while idle it has none. -/
def moveFg (s : State) : Result State :=
  match s.fg.command? with
  | some i => exec i s
  | none => .refused .moveNotEnabled

/-- The runtime's dispatch invokes the entry with a table index (R86, R171, R172). An index of another line is
another instance's handler: the lines share `gie` (R29, R182), so with `gie = 0` it is not invoked either (R172),
and it touches nothing of this block (R182; assumption log 11). -/
def moveIrq (idx : Nat) (s : State) : Result State :=
  match routeVector s.cfg.lineId idx with
  | some i => invokeHandler i (exec i) s
  | none => if s.gie then .next s else .refused .moveNotEnabled

/-- HOST presents a word (R28, R83): a command is taken, a word that is no command changes nothing and gets no
response; while a command runs nothing may be presented (U11). -/
def movePresent (w : CommandWord) (s : State) : Result State :=
  if s.fg = .idle then
    match decodeCommand w with
    | .ok i => exec i s
    | .error _ => .next s
  else .refused .commandWhileBusy

/-- HOST drives the global interrupt enable, only while `fg = Idle` (R29, U17). -/
def moveSetGie (on : Bool) (s : State) : Result State :=
  if s.fg = .idle then .next { s with gie := on } else .refused .gieChangeWhileBusy

/-- One move (R15, R60). -/
def runMove (m : Move) (s : State) : Result State :=
  match m with
  | .fg => moveFg s
  | .irq idx => moveIrq idx s
  | .receive b pe => unitReceive b pe s
  | .load => unitLoad s
  | .done => unitDone s
  | .present w => movePresent w s
  | .setGie on => moveSetGie on s

/-- With no move listed, FG goes on with its command; an idle block waits, a stuttering step (assumption log 7). -/
def runUnscheduled (s : State) : Result State :=
  match s.fg.command? with
  | some i => exec i s
  | none => .next s

/-- One step of the interleaving (R60): the next scheduled move. Parameters out of range are no configuration
of the model (U1, R201). -/
def stepOnce (s : State) : Result State :=
  if s.cfg.ok then
    match s.sched with
    | [] => runUnscheduled s
    | m :: rest => runMove m { s with sched := rest }
  else .refused .badConfiguration

/-- Lay a command word where the next step takes it: HOST presents it next, to an idle foreground. A command
that only an active line admits is laid before an active line (R199; assumption log 9). -/
def placeCommand (w : CommandWord) (s : State) : State :=
  { s with
    sched := .present w :: s.sched
    fg := .idle
    line :=
      match decodeCommand w with
      | .ok i => if admitted i s.line then s.line else .active
      | .error _ => s.line }

/-- Put one byte in an empty TX ring, so that the transmit-empty request can be up (R47). -/
def ensureTxByte (s : State) : State :=
  if s.txHead = s.txTail then
    { s with txBuf := s.txBuf.write s.txHead 0, txHead := nextIndex s.cfg.cTx s.txHead }
  else s

/-- Raise the receive-complete request (R45): a byte waits, RXCIE is set, on an active line (R169). -/
def raiseRx (s : State) : State :=
  { s with
    line := .active
    csb := s.csb ||| bitMask s.cfg.pRxcie
    rxWait := some (s.rxWait.getD ⟨0, false⟩) }

/-- Raise the transmit-empty request (R45): DR is free, UDRIE is set, on an active line whose TX ring is not
empty (R47, R169). -/
def raiseUdre (s : State) : State :=
  let t := ensureTxByte s
  { t with
    line := .active
    csb := t.csb ||| bitMask t.cfg.pUdrie
    txHold := none }

/-- Lay a vector number where the next step takes it: the entry is dispatched next, its request up and
`gie = 1` (R172; assumption log 9). -/
def placeVector (v : BitVec 1) (s : State) : State :=
  let t := if v = 0 then raiseRx s else raiseUdre s
  { t with sched := .irq (vectorIndex t.cfg.lineId v) :: t.sched, gie := true }

/-- Lay a word numbered as spec/opcode_table.json numbers it. -/
def placeWord (nbits w : Nat) (s : State) : State :=
  if nbits ≤ 8 then placeVector (BitVec.ofNat 1 w) s else placeCommand (BitVec.ofNat 48 w) s

end Sys2Proof.Machine
end

