-- ==== Sys2Proof/Safety.lean ====
section
/-! DEFINITION. What counts as a good state, in the terms the claims use: the invariant every step keeps (R37,
R47, R53, R169), quiescence (R212), and what the transmit path holds (R142). -/

namespace Sys2Proof.Machine

/-- `CSB[P_RXCIE]` (R34). -/
def rxcie (s : State) : Bool := bitOf s.csb s.cfg.pRxcie

/-- `CSB[P_UDRIE]` (R34). -/
def udrie (s : State) : Bool := bitOf s.csb s.cfg.pUdrie

/-- `CSB[P_RXEN]` (R34). -/
def rxen (s : State) : Bool := bitOf s.csb s.cfg.pRxen

/-- `CSB[P_TXEN]` (R34). -/
def txen (s : State) : Bool := bitOf s.csb s.cfg.pTxen

/-- Cell `i` of a ring of capacity `c` holds a buffered byte (R37e). -/
def occupied (c h t i : Nat) : Prop := i < c ∧ ringCount c i t < ringCount c h t

/-- A storage space in canonical form, all its cells in range (R50). -/
def storageOk (c : Nat) (m : Memory) : Prop := m.wf = true ∧ ∀ x ∈ m, x.1 < c

/-- What the labels of a flush loop promise (R144): past F1 something was written; at F3 the ring is empty; at F4,
with no handler to drain it, it is not. -/
def flushOk (s : State) (pt : FlushPt) : Prop :=
  s.line = .active ∧ (pt ≠ .f1 → s.written = true) ∧ (pt = .f3 → s.txHead = s.txTail) ∧
    (pt = .f4 → s.gie = false → s.txHead ≠ s.txTail)

/-- What a label and its locals promise about the state while a command runs (R28). -/
def sequencerOk (s : State) : Prop :=
  match s.fg with
  | .idle => True
  | .ready => True
  | .beginLine baud frame .s1 => beginOk s.cfg baud frame = true
  | .beginLine _ _ .s2 => s.line = .active
  | .endLine (.drain pt) => flushOk s pt
  | .endLine .e1 => s.line = .active ∧ (s.written = true → s.txHead = s.txTail ∧ s.txc = true)
  | .endLine .e2 => s.line = .uninitialized
  | .avail .s1 => True
  | .avail (.s2 h t) => ringCount s.cfg.cRx h t ≤ ringCount s.cfg.cRx s.rxHead s.rxTail
  | .peek .s1 => True
  | .peek (.s2 t) => t = s.rxTail ∧ s.rxHead ≠ s.rxTail
  | .peek (.s3 b) => s.rxHead ≠ s.rxTail ∧ s.rxBuf.read s.rxTail = some b
  | .read .s1 => True
  | .read (.s2 t) => t = s.rxTail ∧ s.rxHead ≠ s.rxTail
  | .read (.s3 t b) => t = s.rxTail ∧ s.rxHead ≠ s.rxTail ∧ s.rxBuf.read t = some b
  | .read (.s4 _) => True
  | .availw .s1 => True
  | .availw (.s2 h t) => ringCount s.cfg.cTx s.txHead s.txTail ≤ ringCount s.cfg.cTx h t
  | .flush pt => flushOk s pt
  | .write byte pt =>
    s.line = .active ∧
      match pt with
      | .w1 => True
      | .w2 => s.gie = false → nextIndex s.cfg.cTx s.txHead = s.txTail
      | .w3 h n => h = s.txHead ∧ n = nextIndex s.cfg.cTx h ∧ n ≠ s.txTail
      | .w4 h n => h = s.txHead ∧ n = nextIndex s.cfg.cTx h ∧ n ≠ s.txTail ∧ s.txBuf.read h = some byte
      | .w5 => True
  | .attach _ _ => True

/-- The invariant of the block with its unit. -/
structure BlockInv (s : State) : Prop where
  /-- The parameters are in range (R9, R201). -/
  config : s.cfg.ok = true
  /-- Both RX indices are in `[0, C_RX)` (R37a). -/
  rxIndices : s.rxHead < s.cfg.cRx ∧ s.rxTail < s.cfg.cRx
  /-- Both TX indices are in `[0, C_TX)` (R37a). -/
  txIndices : s.txHead < s.cfg.cTx ∧ s.txTail < s.cfg.cTx
  /-- RXB is canonical and in range (R50). -/
  rxStorage : storageOk s.cfg.cRx s.rxBuf
  /-- TXB is canonical and in range (R50). -/
  txStorage : storageOk s.cfg.cTx s.txBuf
  /-- A handle is non-zero (R26). -/
  hookHandle : s.hook ≠ some 0
  /-- UDRIE is 1 exactly while the TX ring is not empty (R47, R169). -/
  udrieIff : udrie s = true ↔ s.txHead ≠ s.txTail
  /-- Uninitialized: interrupts disabled, empty rings (R27, R169, R199). -/
  uninitialized : s.line = .uninitialized →
    rxcie s = false ∧ udrie s = false ∧ s.rxHead = s.rxTail ∧ s.txHead = s.txTail
  /-- Active: receiver, transmitter and receive interrupt enabled (R114, R169). -/
  active : s.line = .active → rxcie s = true ∧ rxen s = true ∧ txen s = true
  /-- Every buffered RX byte was written (R53). -/
  rxWritten : ∀ i, occupied s.cfg.cRx s.rxHead s.rxTail i → (s.rxBuf.read i).isSome = true
  /-- Every buffered TX byte was written (R53). -/
  txWritten : ∀ i, occupied s.cfg.cTx s.txHead s.txTail i → (s.txBuf.read i).isSome = true
  /-- Transmit-complete means that the unit has nothing left to send (R43, R145). -/
  txcIdle : s.txc = true → s.txHold = none ∧ s.txShift = none
  /-- Something written is queued, in the unit, or complete: the blocked case R146(c) does not arise. -/
  onItsWay : s.written = true →
    s.txHead ≠ s.txTail ∨ s.txHold.isSome = true ∨ s.txShift.isSome = true ∨ s.txc = true
  /-- The label and locals of a running command hold what its earlier steps established (R28). -/
  sequencer : sequencerOk s

/-- Quiescent (R212): no command runs, no handler and no LOAD or DONE is enabled. -/
def quiescent (s : State) : Bool :=
  decide (s.fg = .idle) && !handlerEnabled s .irqRx && !handlerEnabled s .irqUdre &&
    !loadEnabled s && !doneEnabled s

/-- Every byte on the transmit path, oldest first: sent, in the shifter, held, queued (R142). -/
def transmitPath (s : State) : List Byte :=
  s.wireOut ++ s.txShift.toList ++ s.txHold.toList ++ ringBytes .tx s

/-- FG is the agent whose step comes next: the schedule names it, or names none. -/
def runsFg (s : State) : Bool :=
  match s.sched with
  | [] => true
  | .fg :: _ => true
  | _ => false

/-- W4 is the step of WRITE that publishes its byte (R140). -/
def WritePt.publishes : WritePt → Bool
  | .w1 => false
  | .w2 => false
  | .w3 _ _ => false
  | .w4 _ _ => true
  | .w5 => false

/-- S3 is the step of READ that takes the byte (R135). -/
def ReadPt.takes : ReadPt → Bool
  | .s1 => false
  | .s2 _ => false
  | .s3 _ _ => true
  | .s4 _ => false

/-- The byte a label publishes in the TX ring: W4 of WRITE (R140). -/
def publishesAt : Fg → Option Byte
  | .idle => none
  | .ready => none
  | .beginLine _ _ _ => none
  | .endLine _ => none
  | .avail _ => none
  | .peek _ => none
  | .read _ => none
  | .availw _ => none
  | .flush _ => none
  | .write byte pt => if pt.publishes then some byte else none
  | .attach _ _ => none

/-- A label empties both rings: S1 of BEGIN or E1 of END (R114, R118). -/
def discardsAt : Fg → Bool
  | .idle => false
  | .ready => false
  | .beginLine _ _ pt => decide (pt = .s1)
  | .endLine pt => decide (pt = .e1)
  | .avail _ => false
  | .peek _ => false
  | .read _ => false
  | .availw _ => false
  | .flush _ => false
  | .write _ _ => false
  | .attach _ _ => false

/-- A label takes the oldest byte out of the RX ring: S3 of READ (R135). -/
def takesOneAt : Fg → Bool
  | .idle => false
  | .ready => false
  | .beginLine _ _ _ => false
  | .endLine _ => false
  | .avail _ => false
  | .peek _ => false
  | .read pt => pt.takes
  | .availw _ => false
  | .flush _ => false
  | .write _ _ => false
  | .attach _ _ => false

/-- The byte that the next step publishes in the TX ring. -/
def publishes (s : State) : Option Byte := if runsFg s then publishesAt s.fg else none

/-- The next step empties both rings. -/
def discards (s : State) : Bool := runsFg s && discardsAt s.fg

/-- The next step takes the oldest byte out of the RX ring. -/
def takesOne (s : State) : Bool := runsFg s && takesOneAt s.fg

/-- The next step dispatches this line's receive-complete entry (R86, R172). -/
def entersRx (s : State) : Bool := decide (s.sched.head? = some (.irq (2 * s.cfg.lineId)))

/-- The next step dispatches this line's transmit-empty entry (R86, R172). -/
def entersUdre (s : State) : Bool := decide (s.sched.head? = some (.irq (2 * s.cfg.lineId + 1)))

/-- `n` executions of one instruction with no other agent's step between: its presenting and its labelled steps,
or its loop passes. -/
def execN (i : Instr) : Nat → State → Result State
  | 0, s => .next s
  | n + 1, s => andThen (exec i s) (execN i n)

/-- `n` steps of the machine. -/
def stepN : Nat → State → Result State
  | 0, s => .next s
  | n + 1, s => andThen (step s) (stepN n)

/-- The bytes published in the TX ring during the next `n` steps, in order. -/
def publishedWithin : Nat → State → List Byte
  | 0, _ => []
  | n + 1, s =>
    (publishes s).toList ++
      match step s with
      | .next t => publishedWithin n t
      | _ => []

/-- Whether one of the next `n` steps empties the rings. -/
def discardsWithin : Nat → State → Bool
  | 0, _ => false
  | n + 1, s =>
    discards s ||
      match step s with
      | .next t => discardsWithin n t
      | _ => false

/-- A status image shows the bits R32 names as R38 gives them. -/
def statusShows (s : State) (v : Byte) : Prop :=
  bitOf v s.cfg.pRxc = s.rxWait.isSome ∧ bitOf v s.cfg.pTxc = s.txc ∧
  bitOf v s.cfg.pUdre = s.txHold.isNone ∧ bitOf v s.cfg.pUpe = upeOf s.rxWait ∧
  bitOf v s.cfg.pU2x = s.u2x ∧ (s.cfg.hasMpcm = true → bitOf v s.cfg.pMpcm = s.mpcm)

/-- One access without its value: write or read, and the register (R70). -/
def Access.shape : Access → Bool × Reg
  | .rd r _ => (false, r)
  | .wr r _ => (true, r)

/-- The accesses of the transmit-empty body that leaves the state `t` (last row of R70). -/
def bodyShapes (t : State) : List (Bool × Reg) :=
  [(true, .dr), (false, .csa), (true, .csa)] ++
    if t.txHead = t.txTail then [(false, .csb), (true, .csb)] else []

/-- The accesses of one pass of the masked-interrupt fallback from `s` to `t` (R70). -/
def pumpShapes (s t : State) : List (Bool × Reg) :=
  (false, .csa) :: if s.txHold = none then bodyShapes t else []

/-- The accesses of one step of the flush loop (R70). -/
def flushShapes (pt : FlushPt) (s t : State) : List (Bool × Reg) :=
  match pt with
  | .f1 => []
  | .f2 => []
  | .f3 => [(false, .csa)]
  | .f4 => if !s.gie && s.cfg.flushPollsWhenMasked then pumpShapes s t else []

/-- The accesses of a labelled step of BEGIN: those of its atomic group S1 (R70). -/
def beginShapes : Fg → List (Bool × Reg)
  | .beginLine _ _ .s1 => [(true, .brh), (true, .brl), (true, .csc), (false, .csb), (true, .csb)]
  | _ => []

/-- The accesses of a labelled step of END: those of its flush part, and of its atomic group E1 (R70). -/
def endShapes (s t : State) : Fg → List (Bool × Reg)
  | .endLine (.drain pt) => flushShapes pt s t
  | .endLine .e1 => [(false, .csb), (true, .csb)]
  | _ => []

/-- The accesses of a labelled step of WRITE (R70). -/
def writeShapes (s t : State) : Fg → List (Bool × Reg)
  | .write _ .w2 => if s.gie then [] else pumpShapes s t
  | .write _ (.w4 _ _) => [(false, .csb), (true, .csb)]
  | _ => []

/-- The accesses of a labelled step of FLUSH (R70). -/
def flushLoopShapes (s t : State) : Fg → List (Bool × Reg)
  | .flush pt => flushShapes pt s t
  | _ => []

/-- The register-set accesses R70 lists for the step of `i` that leads from `s` to `t`. -/
def busShapes (i : Instr) (s t : State) : List (Bool × Reg) :=
  match i with
  | .ready => []
  | .beginLine _ _ => beginShapes s.fg
  | .endLine => endShapes s t s.fg
  | .avail => []
  | .peek => []
  | .read => []
  | .availw => []
  | .flush => flushLoopShapes s t s.fg
  | .write _ => writeShapes s t s.fg
  | .attach _ => []
  | .irqRx => [(false, .csa), (false, .dr)]
  | .irqUdre => bodyShapes t

/-- The TXB cell a labelled step of WRITE stores to: cell `h` at W3 (R140). -/
def writeStore : Fg → Option (Space × Nat)
  | .write _ (.w3 h _) => some (.txb, h)
  | _ => none

/-- The storage cell a step of `i` stores to, if any: that of WRITE, and cell `rx_head` of RXB in IRQ_RX on a ring
with room (R151, R100). -/
def storeAddress (i : Instr) (s : State) : Option (Space × Nat) :=
  match i with
  | .ready => none
  | .beginLine _ _ => none
  | .endLine => none
  | .avail => none
  | .peek => none
  | .read => none
  | .availw => none
  | .flush => none
  | .write _ => writeStore s.fg
  | .attach _ => none
  | .irqRx => if nextIndex s.cfg.cRx s.rxHead = s.rxTail then none else some (.rxb, s.rxHead)
  | .irqUdre => none

/-- FG stands at a masked-interrupt fallback, and where it goes on after it (R140 step W2, R144 step F4, R118). -/
def fallbackTo (s : State) : Option Fg :=
  match s.fg with
  | .write byte .w2 => some (.write byte .w1)
  | .flush .f4 => if s.cfg.flushPollsWhenMasked then some (.flush .f2) else none
  | .endLine (.drain .f4) => if s.cfg.flushPollsWhenMasked then some (.endLine (.drain .f2)) else none
  | _ => none

/-- Push a list of bytes in order, all of them stored (R106). -/
def pushAll (q : Ring) : List Byte → State → Result State
  | [], s => .next s
  | b :: bs, s => andThen (tryPush q b s) fun r => if r.1 then pushAll q bs r.2 else .refused .moveNotEnabled

/-- Pop `n` times, collecting what comes out (R106). -/
def popN (q : Ring) : Nat → State → Result (List (Option Byte) × State)
  | 0, s => .next ([], s)
  | n + 1, s => andThen (tryPop q s) fun r => andThen (popN q n r.2) fun rs => .next (r.1 :: rs.1, rs.2)

/-- The state after reset with any parameters, any values of what the spec leaves unspecified there, and any
inputs to come: the values R49 gives, and no others, are fixed. -/
structure ResetState (s : State) : Prop where
  rxHead : s.rxHead = 0
  rxTail : s.rxTail = 0
  txHead : s.txHead = 0
  txTail : s.txTail = 0
  rxStorage : storageOk s.cfg.cRx s.rxBuf
  txStorage : storageOk s.cfg.cTx s.txBuf
  written : s.written = false
  hook : s.hook = none
  line : s.line = .uninitialized
  fg : s.fg = .idle
  rxcie : rxcie s = false
  udrie : udrie s = false
  txc : s.txc = false
  rxWait : s.rxWait = none
  txHold : s.txHold = none
  txShift : s.txShift = none
  wireOut : s.wireOut = []

end Sys2Proof.Machine
end

