-- ==== Sys2Proof/Certificates/Slice0/Obligations.lean ====
section
/-! DEFINITION. The statements for the provers. Each formalises the rules of spec/ that its docstring names. -/

open Sys2Proof Sys2Proof.Machine

/-! ### Encodings -/

/-- R80, R81, R82, R86: decoding what the encoder writes gives the instruction back, every operand at every value,
and a word has one meaning. -/
def Obligations.DecodeEncodeInverse : Prop :=
  (∀ i : Instr, decode (encode i) = .ok i) ∧
  ∀ (e : Encoded) (i : Instr), decode e = .ok i → encode i = e

/-- R81, R80, R82: a word is a command exactly where the 48-bit mask leaves the match, and its operands are unsigned
fields of the word: `a` is bits 39:32, `b` is bits 31:0. -/
def Obligations.MatchAndMaskSelectTheCommand : Prop :=
  ∀ w : CommandWord,
    (w &&& 0xFFFFFFFFFFFF = 0x000000000000 ↔ decodeCommand w = .ok .ready) ∧
    (w &&& 0xFF0000000000 = 0x010000000000 ↔
      decodeCommand w = .ok (.beginLine (BitVec.ofNat 32 w.toNat) (BitVec.ofNat 8 (w.toNat / 2 ^ 32)))) ∧
    (w &&& 0xFFFFFFFFFFFF = 0x020000000000 ↔ decodeCommand w = .ok .endLine) ∧
    (w &&& 0xFFFFFFFFFFFF = 0x030000000000 ↔ decodeCommand w = .ok .avail) ∧
    (w &&& 0xFFFFFFFFFFFF = 0x040000000000 ↔ decodeCommand w = .ok .peek) ∧
    (w &&& 0xFFFFFFFFFFFF = 0x050000000000 ↔ decodeCommand w = .ok .read) ∧
    (w &&& 0xFFFFFFFFFFFF = 0x060000000000 ↔ decodeCommand w = .ok .availw) ∧
    (w &&& 0xFFFFFFFFFFFF = 0x070000000000 ↔ decodeCommand w = .ok .flush) ∧
    (w &&& 0xFF00FFFFFFFF = 0x080000000000 ↔
      decodeCommand w = .ok (.write (BitVec.ofNat 8 (w.toNat / 2 ^ 32)))) ∧
    (w &&& 0xFFFF00000000 = 0x090000000000 ↔
      decodeCommand w = .ok (.attach (BitVec.ofNat 32 w.toNat)))

/-- R83: a word is invalid exactly where its `op` is 0x0A or more or a field the command does not use is not zero;
presenting an invalid word changes nothing and gives no response; a BEGIN word always decodes as BEGIN, and is refused
where its operands have no meaning (R113). -/
def Obligations.InvalidWordsChangeNothing : Prop :=
  (∀ w : CommandWord, (∃ e, decodeCommand w = .error e) ↔
    (0x0A ≤ w.toNat / 2 ^ 40) ∨
    (w.toNat / 2 ^ 40 ∈ [0x00, 0x02, 0x03, 0x04, 0x05, 0x06, 0x07] ∧ w.toNat % 2 ^ 40 ≠ 0) ∨
    (w.toNat / 2 ^ 40 = 0x08 ∧ w.toNat % 2 ^ 32 ≠ 0) ∨
    (w.toNat / 2 ^ 40 = 0x09 ∧ w.toNat / 2 ^ 32 % 2 ^ 8 ≠ 0)) ∧
  (∀ (s : State) (w : CommandWord) (rest : List Move) (e : DecodeError),
    s.cfg.ok = true → s.fg = .idle → s.sched = .present w :: rest → decodeCommand w = .error e →
    step s = .next { s with sched := rest }) ∧
  ∀ (s : State) (w : CommandWord) (rest : List Move), w.toNat / 2 ^ 40 = 0x01 →
    ∃ baud frame, decodeCommand w = .ok (.beginLine baud frame) ∧
      (s.cfg.ok = true → s.fg = .idle → s.sched = .present w :: rest → beginOk s.cfg baud frame = false →
        step s = .refused .illFormedBegin)

/-- Words of spec/95 (V20, V40 to V49, S11), written out from the encoding, decode as the spec says. -/
def Obligations.SpecWordsDecode : Prop :=
  decodeCommand 0x000000000000 = .ok .ready ∧
  decodeCommand 0x010600002580 = .ok (.beginLine 9600 0x06) ∧
  decodeCommand 0x020000000000 = .ok .endLine ∧
  decodeCommand 0x030000000000 = .ok .avail ∧
  decodeCommand 0x084100000000 = .ok (.write 0x41) ∧
  decodeCommand 0x0900FFFFFFFF = .ok (.attach 0xFFFFFFFF) ∧
  decodeCommand 0x090000000000 = .ok .detach ∧
  decodeCommand 0x0A0000000000 = .error (.reservedOpcode 0x0A) ∧
  decodeCommand 0x084100000001 = .error (.unusedFieldNotZero 0x08)

/-- R84: `kind = R[17:16]` and `value = R[15:0]` of each response. -/
def Obligations.ResponseWordLayout : Prop :=
  (Response.done.encode.toNat / 2 ^ 16 = 0 ∧ Response.done.encode.toNat % 2 ^ 16 = 0) ∧
  (∀ n : Nat, n < 2 ^ 16 →
    (Response.val n).encode.toNat / 2 ^ 16 = 1 ∧ (Response.val n).encode.toNat % 2 ^ 16 = n) ∧
  (Response.none.encode.toNat / 2 ^ 16 = 2 ∧ Response.none.encode.toNat % 2 ^ 16 = 0) ∧
  ∀ b : Byte, (Response.some b).encode.toNat / 2 ^ 16 = 3 ∧
    (Response.some b).encode.toNat % 2 ^ 16 = b.toNat

/-- R91: the 24 valid patterns follow one layout; every other value has bit 0, 6 or 7 set or `[5:4] = 1`; the
default is 8N1 = 0x06. -/
def Obligations.FrameConfigurations : Prop :=
  frameTable.length = 24 ∧ (frameTable.map fun r => r.value).Nodup ∧
  (∀ r ∈ frameTable, r.value.toNat = r.parity.code * 2 ^ 4 + (r.stop - 1) * 2 ^ 3 + (r.bits - 5) * 2) ∧
  (∀ v : Byte, validFrame v = false ↔
    bitOf v 0 = true ∨ bitOf v 6 = true ∨ bitOf v 7 = true ∨ v.toNat / 2 ^ 4 % 4 = 1) ∧
  (∃ r ∈ frameTable, r = ⟨8, .none, 1, 0x06⟩) ∧
  ∀ baud : BitVec 32, Instr.beginDefault baud = .beginLine baud 0x06

/-! ### Rings -/

/-- R100: the byte goes to the cell at `head` and `head` advances; on a full ring nothing changes. -/
def Obligations.PushStoresAndPublishes : Prop :=
  ∀ (b : Byte) (s : State),
    (s.rxHead < s.cfg.cRx → tryPush .rx b s =
      if (s.rxHead + 1) % s.cfg.cRx = s.rxTail then .next (false, s)
      else .next (true, { s with
        rxBuf := s.rxBuf.write s.rxHead b, rxHead := (s.rxHead + 1) % s.cfg.cRx })) ∧
    (s.txHead < s.cfg.cTx → tryPush .tx b s =
      if (s.txHead + 1) % s.cfg.cTx = s.txTail then .next (false, s)
      else .next (true, { s with
        txBuf := s.txBuf.write s.txHead b, txHead := (s.txHead + 1) % s.cfg.cTx }))

/-- R101, R102: the oldest byte; a pop advances the tail, a peek does not; nothing on an empty ring. -/
def Obligations.PopAndPeekGiveTheOldestByte : Prop :=
  ∀ s : State,
    (s.rxTail < s.cfg.cRx →
      (tryPop .rx s =
        if s.rxHead = s.rxTail then .next (none, s)
        else .next (some (cellValue .rxb s.rxBuf s.rxTail), { s with rxTail := (s.rxTail + 1) % s.cfg.cRx })) ∧
      peekRing .rx s =
        if s.rxHead = s.rxTail then .next none else .next (some (cellValue .rxb s.rxBuf s.rxTail))) ∧
    (s.txTail < s.cfg.cTx →
      (tryPop .tx s =
        if s.txHead = s.txTail then .next (none, s)
        else .next (some (cellValue .txb s.txBuf s.txTail), { s with txTail := (s.txTail + 1) % s.cfg.cTx })) ∧
      peekRing .tx s =
        if s.txHead = s.txTail then .next none else .next (some (cellValue .txb s.txBuf s.txTail)))

/-- R103, R104: the count is `(head - tail) mod C` over the integers, the free space `C - 1 - count`, between 0 and
`C - 1`; 0 free exactly on a full ring, `C - 1` exactly on an empty one. -/
def Obligations.CountAndFreeSlots : Prop :=
  ∀ (q : Ring) (s : State), ringHead q s < ringCap q s → ringTail q s < ringCap q s →
    (count q s : Int) = ((ringHead q s : Int) - (ringTail q s : Int)) % (ringCap q s : Int) ∧
    count q s ≤ ringCap q s - 1 ∧ freeSlots q s = ringCap q s - 1 - count q s ∧
    (count q s = 0 ↔ ringHead q s = ringTail q s) ∧
    (freeSlots q s = ringCap q s - 1 ↔ ringHead q s = ringTail q s) ∧
    (freeSlots q s = 0 ↔ (ringHead q s + 1) % ringCap q s = ringTail q s)

/-- R106, the FIFO law, for every ring, capacity, starting index and content. -/
def Obligations.FifoLaw : Prop :=
  ∀ (q : Ring) (bs : List Byte) (s : State), ringHead q s < ringCap q s → ringHead q s = ringTail q s →
    bs.length < ringCap q s →
    ∃ t u, pushAll q bs s = .next t ∧ popN q bs.length t = .next (bs.map some, u) ∧
      ringHead q u = ringTail q u

/-- R107, R108: a push on a full ring fails and changes nothing; K pushes into an empty ring make the count K; a pop
of a ring that is not empty lowers it by one. -/
def Obligations.FullBufferAndCountAccuracy : Prop :=
  ∀ (q : Ring) (s : State), 2 ≤ ringCap q s → ringHead q s < ringCap q s → ringTail q s < ringCap q s →
    (∀ b : Byte, count q s = ringCap q s - 1 → tryPush q b s = .next (false, s)) ∧
    (∀ bs : List Byte, count q s = 0 → bs.length < ringCap q s →
      ∃ t, pushAll q bs s = .next t ∧ count q t = bs.length) ∧
    (count q s ≠ 0 → ∃ b t, tryPop q s = .next (some b, t) ∧ count q t + 1 = count q s)

/-- R37(c), (e): the bytes between tail and head are the buffered ones, oldest first; a push appends one, a pop
takes the first. -/
def Obligations.RingContentsAfterPushAndPop : Prop :=
  ∀ (q : Ring) (s : State), ringHead q s < ringCap q s → ringTail q s < ringCap q s →
    (ringBytes q s).length = count q s ∧
    (∀ (b : Byte) (t : State), tryPush q b s = .next (true, t) → ringBytes q t = ringBytes q s ++ [b]) ∧
    (∀ (b : Byte) (t : State), tryPop q s = .next (some b, t) → ringBytes q s = b :: ringBytes q t)

/-! ### The register set -/

/-- R92: the masks at the default positions, with and without the multiprocessor bit. The positions are the spec's
general knowledge (its G1), and the defaults the model carries (assumption log 2). -/
def Obligations.MasksFromPositions : Prop :=
  beginSet Config.default = 0x98 ∧ endClear Config.default = 0xB8 ∧
  keepA { Config.default with hasMpcm := true } = 0x03 ∧
  keepA { Config.default with hasMpcm := false } = 0x02 ∧
  [Config.default.pRxc, Config.default.pTxc, Config.default.pUdre, Config.default.pUpe, Config.default.pU2x,
    Config.default.pMpcm].map bitMask = [0x80, 0x40, 0x20, 0x04, 0x02, 0x01] ∧
  [Config.default.pRxcie, Config.default.pUdrie, Config.default.pRxen, Config.default.pTxen].map bitMask =
    [0x80, 0x20, 0x10, 0x08]

/-- R32, R38, R57: a read of CSA shows RXC, UPE and UDRE as functions of the unit's cells, TXC, U2X and MPCM as
stored, any value in the bits no rule names, and has no side effect. The unit's cells are the spec's general
knowledge (its G5, G9). -/
def Obligations.StatusImage : Prop :=
  ∀ s : State, s.cfg.ok = true →
    ∃ v t, regRead .csa s = (v, t) ∧ statusShows s v ∧
      (∀ i, i < 8 → bitOf (csaNamed s.cfg) i = false → bitOf v i = bitOf (drawByte s).1 i) ∧
      t = { s with bus := s.bus ++ [.rd .csa v], drawIn := t.drawIn, drawCount := t.drawCount }

/-- R40, R41: a read of DR takes the waiting byte, and with none waiting gives a byte the spec does not fix and
changes nothing; a write hands the byte to a unit that holds none, and faults where it holds one. The spec marks both
rules as general knowledge (its G4, G5). -/
def Obligations.DataRegister : Prop :=
  ∀ (s : State) (v : Byte),
    (∀ w, s.rxWait = some w → regRead .dr s =
      (w.byte, { s with rxWait := none, bus := s.bus ++ [.rd .dr w.byte] })) ∧
    (s.rxWait = none → ∃ d t, regRead .dr s = (d, t) ∧
      t = { s with bus := s.bus ++ [.rd .dr d], drawIn := t.drawIn, drawCount := t.drawCount }) ∧
    (s.txHold = none → regWrite .dr v s = .next { s with txHold := some v, bus := s.bus ++ [.wr .dr v] }) ∧
    (s.txHold ≠ none → regWrite .dr v s = .fault .dataRegisterHeld)

/-- R33, R62, and R31, R34, R57 for the plain registers: a write of CSA clears TXC where it has a 1, stores U2X and
MPCM, and leaves the unit's flags; a read of a plain register returns the last value written; setting and clearing
bits of CSB is one read and one write that keep every other bit. That a write of CSA leaves RXC, UDRE and UPE alone
is the spec's general knowledge (its G3); that a 1 written to a bit R32 does not name has no effect is the model's
choice (R33: 'unspecified effect'; assumption log 21). -/
def Obligations.RegisterWritesAndBitUpdates : Prop :=
  (∀ (v : Byte) (s : State), regWrite .csa v s = .next { s with
    txc := s.txc && !bitOf v s.cfg.pTxc
    u2x := bitOf v s.cfg.pU2x
    mpcm := if s.cfg.hasMpcm then bitOf v s.cfg.pMpcm else s.mpcm
    bus := s.bus ++ [.wr .csa v] }) ∧
  (∀ (r : Reg) (v : Byte) (s : State), r ≠ .csa → r ≠ .dr →
    ∃ t, regWrite r v s = .next t ∧ t.bus = s.bus ++ [.wr r v] ∧
      regRead r t = (v, { t with bus := t.bus ++ [.rd r v] })) ∧
  ∀ (m : Byte) (s : State),
    regSetBits .csb m s = .next { s with
      csb := s.csb ||| m, bus := s.bus ++ [.rd .csb s.csb, .wr .csb (s.csb ||| m)] } ∧
    regClearBits .csb m s = .next { s with
      csb := s.csb &&& ~~~m, bus := s.bus ++ [.rd .csb s.csb, .wr .csb (s.csb &&& ~~~m)] }

/-- R39, R42, R43: the unit's three steps, when each is enabled and everything it changes. The spec marks them as
general knowledge (its G5, G6); that a disabled one is refused is the model's choice (assumption log 8). -/
def Obligations.UnitSteps : Prop :=
  ∀ (s : State) (b : Byte) (pe : Bool),
    (runMove (.receive b pe) s =
      if bitOf s.csb s.cfg.pRxen = true ∧ s.rxWait = none then .next { s with rxWait := some ⟨b, pe⟩ }
      else .refused .moveNotEnabled) ∧
    (runMove .load s =
      if bitOf s.csb s.cfg.pTxen = true ∧ s.txHold ≠ none ∧ s.txShift = none then
        .next { s with txShift := s.txHold, txHold := none }
      else .refused .moveNotEnabled) ∧
    (s.txShift = none → runMove .done s = .refused .moveNotEnabled) ∧
    (s.txShift = some b → runMove .done s = .next { s with
      wireOut := s.wireOut ++ [b], txShift := none, txc := s.txc || s.txHold.isNone })

/-- R45, which the spec derives: each request is its enable bit of CSB and its flag as a read of CSA shows it. -/
def Obligations.InterruptRequests : Prop :=
  ∀ s : State, s.cfg.ok = true →
    irqRxRequest s = (bitOf s.csb s.cfg.pRxcie && bitOf (regRead .csa s).1 s.cfg.pRxc) ∧
    irqUdreRequest s = (bitOf s.csb s.cfg.pUdrie && bitOf (regRead .csa s).1 s.cfg.pUdre)

/-! ### Line control -/

/-- R111: READY answers 1 in both line states and changes nothing else. -/
def Obligations.ReadyAnswersOne : Prop :=
  ∀ s : State,
    (s.fg = .idle → exec .ready s = .next { s with fg := .ready }) ∧
    (s.fg = .ready → exec .ready s = .next { s with fg := .idle, responses := s.responses ++ [.val 1] }) ∧
    (s.fg = .idle → execN .ready 2 s = .next { s with responses := s.responses ++ [.val 1] })

/-- R112: the divisor plus one is `clockHz / (16 * baudRate)` rounded half up, exactly; it is -1 exactly below the
tie; the source's worked value, the tie, and a divisor above `DIV_MAX` (V20, V26, V33). -/
def Obligations.DivisorRoundsHalfUp : Prop :=
  (∀ clockHz baud : Nat, 1 ≤ baud →
    divisor clockHz baud = ((clockHz : Int) + 8 * baud) / (16 * baud) - 1 ∧
    (2 * (divisor clockHz baud + 1) - 1) * (16 * baud) ≤ 2 * (clockHz : Int) ∧
    2 * (clockHz : Int) < (2 * (divisor clockHz baud + 1) + 1) * (16 * baud) ∧
    (divisor clockHz baud = -1 ↔ clockHz < 8 * baud)) ∧
  divisor 16000000 9600 = 103 ∧ divisor 16000000 2000000 = 0 ∧ divisor 16000000 15 = 66666

/-- R113: when BEGIN has a meaning, what its divisor condition amounts to, and the refusal of every other operand
pair. -/
def Obligations.BeginWellFormedness : Prop :=
  ∀ (s : State) (baud : BitVec 32) (frame : Byte),
    (beginOk s.cfg baud frame = true ↔
      (∃ r ∈ frameTable, r.value = frame) ∧ 1 ≤ baud.toNat ∧
      0 ≤ divisor s.cfg.clockHz baud.toNat ∧ divisor s.cfg.clockHz baud.toNat ≤ s.cfg.divMax) ∧
    (1 ≤ baud.toNat →
      ((0 ≤ divisor s.cfg.clockHz baud.toNat ∧ divisor s.cfg.clockHz baud.toNat ≤ s.cfg.divMax) ↔
        8 * baud.toNat ≤ s.cfg.clockHz ∧
        s.cfg.clockHz + 8 * baud.toNat < 16 * baud.toNat * (s.cfg.divMax + 2))) ∧
    (beginOk s.cfg baud frame = false → exec (.beginLine baud frame) s = .refused .illFormedBegin)

/-- R114, R115: BEGIN from either line state: everything its atomic group writes, in order on the bus, and nothing
else. -/
def Obligations.BeginConfiguresTheLine : Prop :=
  ∀ (s : State) (baud : BitVec 32) (frame : Byte), s.cfg.ok = true → beginOk s.cfg baud frame = true →
    ∃ d : BitVec 16, (d.toNat : Int) = divisor s.cfg.clockHz baud.toNat ∧
      (s.fg = .idle → exec (.beginLine baud frame) s = .next { s with fg := .beginLine baud frame .s1 }) ∧
      (s.fg = .beginLine baud frame .s1 → exec (.beginLine baud frame) s = .next { s with
        brh := d.extractLsb' 8 8, brl := d.extractLsb' 0 8, csc := frame
        rxHead := 0, rxTail := 0, txHead := 0, txTail := 0, written := false
        csb := (s.csb ||| beginSet s.cfg) &&& ~~~bitMask s.cfg.pUdrie
        line := .active, fg := .beginLine baud frame .s2
        bus := s.bus ++ [.wr .brh (d.extractLsb' 8 8), .wr .brl (d.extractLsb' 0 8), .wr .csc frame,
          .rd .csb s.csb, .wr .csb ((s.csb ||| beginSet s.cfg) &&& ~~~bitMask s.cfg.pUdrie)] }) ∧
      (s.fg = .beginLine baud frame .s2 → exec (.beginLine baud frame) s =
        .next { s with fg := .idle, responses := s.responses ++ [.done] }) ∧
      (s.fg = .idle → ∃ t, execN (.beginLine baud frame) 3 s = .next t ∧ t.fg = .idle ∧
        t.responses = s.responses ++ [.done] ∧ t.line = .active ∧ count .rx t = 0 ∧ count .tx t = 0)

/-- R118, steps E1 and E2: one atomic group clears the four enables, empties both rings and leaves the line
Uninitialized; `written`, `hook` and every other register stay. -/
def Obligations.EndClosesTheLine : Prop :=
  ∀ s : State,
    (s.fg = .idle → s.line = .active → exec .endLine s = .next { s with fg := .endLine (.drain .f1) }) ∧
    (s.fg = .endLine .e1 → exec .endLine s = .next { s with
      csb := s.csb &&& ~~~endClear s.cfg
      rxHead := 0, rxTail := 0, txHead := 0, txTail := 0, line := .uninitialized, fg := .endLine .e2
      bus := s.bus ++ [.rd .csb s.csb, .wr .csb (s.csb &&& ~~~endClear s.cfg)] }) ∧
    (s.fg = .endLine .e2 → exec .endLine s =
      .next { s with fg := .idle, responses := s.responses ++ [.done] }) ∧
    (s.fg = .idle → s.line = .active → s.written = false → execN .endLine 4 s = .next { s with
      csb := s.csb &&& ~~~endClear s.cfg
      rxHead := 0, rxTail := 0, txHead := 0, txTail := 0, line := .uninitialized
      responses := s.responses ++ [.done]
      bus := s.bus ++ [.rd .csb s.csb, .wr .csb (s.csb &&& ~~~endClear s.cfg)] })

/-- R118, the flush part: a step of FLUSH is a step of END's drain, label for label, with "respond(Done)" replaced by
"goto E1". -/
def Obligations.EndDrainsAsFlush : Prop :=
  ∀ (s t : State) (pt : FlushPt), exec .flush { s with fg := .flush pt } = .next t →
    (∀ q, t.fg = .flush q →
      exec .endLine { s with fg := .endLine (.drain pt) } = .next { t with fg := .endLine (.drain q) }) ∧
    (t.fg = .idle →
      exec .endLine { s with fg := .endLine (.drain pt) } =
        .next { t with fg := .endLine .e1, responses := s.responses })

/-- R121, R122: ATTACH replaces the hook reference in one step and changes nothing else; handle 0 removes it. -/
def Obligations.AttachReplacesTheHook : Prop :=
  ∀ (s : State) (handle : Handle),
    (s.fg = .idle → exec (.attach handle) s = .next { s with fg := .attach handle .s1 }) ∧
    (s.fg = .attach handle .s1 → exec (.attach handle) s = .next { s with
      hook := if handle = 0 then none else some handle, fg := .attach handle .s2 }) ∧
    (s.fg = .attach handle .s2 → exec (.attach handle) s =
      .next { s with fg := .idle, responses := s.responses ++ [.done] }) ∧
    (s.fg = .idle → execN (.attach handle) 3 s = .next { s with
      hook := if handle = 0 then none else some handle, responses := s.responses ++ [.done] }) ∧
    (s.fg = .idle → execN .detach 3 s = .next { s with
      hook := none, responses := s.responses ++ [.done] })

/-! ### Data path -/

/-- R131, R137: AVAIL answers `(h - t) mod C_RX` and AVAILW `C_TX - 1 - ((h - t) mod C_TX)` of one snapshot; nothing
else changes. -/
def Obligations.AvailAndAvailwCount : Prop :=
  ∀ (s : State) (h t : Nat),
    (s.fg = .idle → exec .avail s = .next { s with fg := .avail .s1 }) ∧
    (s.fg = .avail .s1 → exec .avail s = .next { s with fg := .avail (.s2 s.rxHead s.rxTail) }) ∧
    (s.fg = .avail (.s2 h t) → t ≤ s.cfg.cRx → ∃ n : Nat, (n : Int) = ((h : Int) - t) % (s.cfg.cRx : Int) ∧
      exec .avail s = .next { s with fg := .idle, responses := s.responses ++ [.val n] }) ∧
    (s.fg = .idle → execN .avail 3 s = .next { s with responses := s.responses ++ [.val (count .rx s)] }) ∧
    (s.fg = .idle → exec .availw s = .next { s with fg := .availw .s1 }) ∧
    (s.fg = .availw .s1 → exec .availw s = .next { s with fg := .availw (.s2 s.txHead s.txTail) }) ∧
    (s.fg = .availw (.s2 h t) → t ≤ s.cfg.cTx → ∃ n : Nat, (n : Int) = ((h : Int) - t) % (s.cfg.cTx : Int) ∧
      exec .availw s = .next { s with fg := .idle, responses := s.responses ++ [.val (s.cfg.cTx - 1 - n)] }) ∧
    (s.fg = .idle → execN .availw 3 s = .next { s with
      responses := s.responses ++ [.val (freeSlots .tx s)] })

/-- R133: PEEK, step by step and as a whole: the oldest byte or `None`, and nothing else changes. -/
def Obligations.PeekGivesTheOldestByte : Prop :=
  ∀ (s : State) (k : Nat) (b : Byte),
    (s.fg = .idle → exec .peek s = .next { s with fg := .peek .s1 }) ∧
    (s.fg = .peek .s1 → s.rxHead = s.rxTail →
      exec .peek s = .next { s with fg := .idle, responses := s.responses ++ [.none] }) ∧
    (s.fg = .peek .s1 → s.rxHead ≠ s.rxTail → exec .peek s = .next { s with fg := .peek (.s2 s.rxTail) }) ∧
    (s.fg = .peek (.s2 k) → k < s.cfg.cRx →
      exec .peek s = .next { s with fg := .peek (.s3 (cellValue .rxb s.rxBuf k)) }) ∧
    (s.fg = .peek (.s3 b) →
      exec .peek s = .next { s with fg := .idle, responses := s.responses ++ [.some b] }) ∧
    (s.fg = .idle → s.rxHead ≠ s.rxTail → s.rxTail < s.cfg.cRx → execN .peek 4 s = .next { s with
      responses := s.responses ++ [.some (cellValue .rxb s.rxBuf s.rxTail)] })

/-- R135: READ, step by step and as a whole: the byte is read before the tail advances; `None` on an empty ring. -/
def Obligations.ReadTakesTheOldestByte : Prop :=
  ∀ (s : State) (k : Nat) (b : Byte),
    (s.fg = .idle → exec .read s = .next { s with fg := .read .s1 }) ∧
    (s.fg = .read .s1 → s.rxHead = s.rxTail →
      exec .read s = .next { s with fg := .idle, responses := s.responses ++ [.none] }) ∧
    (s.fg = .read .s1 → s.rxHead ≠ s.rxTail → exec .read s = .next { s with fg := .read (.s2 s.rxTail) }) ∧
    (s.fg = .read (.s2 k) → k < s.cfg.cRx →
      exec .read s = .next { s with fg := .read (.s3 k (cellValue .rxb s.rxBuf k)) }) ∧
    (s.fg = .read (.s3 k b) → exec .read s = .next { s with
      rxTail := (k + 1) % s.cfg.cRx, fg := .read (.s4 b) }) ∧
    (s.fg = .read (.s4 b) →
      exec .read s = .next { s with fg := .idle, responses := s.responses ++ [.some b] }) ∧
    (s.fg = .idle → s.rxHead ≠ s.rxTail → s.rxTail < s.cfg.cRx → execN .read 5 s = .next { s with
      rxTail := (s.rxTail + 1) % s.cfg.cRx
      responses := s.responses ++ [.some (cellValue .rxb s.rxBuf s.rxTail)] })

/-- R136, which the spec derives: READ takes effect as one `tryPop(RX)` at its step S3, and at S1 where it finds the
ring empty, whatever the handlers did in between. -/
def Obligations.ReadIsTryPop : Prop :=
  ∀ (s : State) (k : Nat) (b : Byte), BlockInv s →
    (s.fg = .read (.s3 k b) →
      ∃ u, tryPop .rx s = .next (some b, u) ∧ exec .read s = .next { u with fg := .read (.s4 b) }) ∧
    (s.fg = .read .s1 → tryPop .rx s = .next (none, s) →
      exec .read s = .next { s with fg := .idle, responses := s.responses ++ [.none] })

/-- R140: WRITE, steps W1 and W3 to W5 and the wait with `gie = 1`, and as a whole on a ring with room. -/
def Obligations.WriteQueuesTheByte : Prop :=
  ∀ (s : State) (byte : Byte) (h n : Nat),
    (s.fg = .idle → s.line = .active → exec (.write byte) s = .next { s with fg := .write byte .w1 }) ∧
    (s.fg = .write byte .w1 → exec (.write byte) s = .next { s with
      fg := if (s.txHead + 1) % s.cfg.cTx = s.txTail then .write byte .w2
        else .write byte (.w3 s.txHead ((s.txHead + 1) % s.cfg.cTx)) }) ∧
    (s.fg = .write byte .w2 → s.gie = true → exec (.write byte) s = .next { s with fg := .write byte .w1 }) ∧
    (s.fg = .write byte (.w3 h n) → h < s.cfg.cTx → exec (.write byte) s = .next { s with
      txBuf := s.txBuf.write h byte, fg := .write byte (.w4 h n) }) ∧
    (s.fg = .write byte (.w4 h n) → exec (.write byte) s = .next { s with
      txHead := n, written := true, csb := s.csb ||| bitMask s.cfg.pUdrie, fg := .write byte .w5
      bus := s.bus ++ [.rd .csb s.csb, .wr .csb (s.csb ||| bitMask s.cfg.pUdrie)] }) ∧
    (s.fg = .write byte .w5 →
      exec (.write byte) s = .next { s with fg := .idle, responses := s.responses ++ [.val 1] }) ∧
    (s.fg = .idle → s.line = .active → s.txHead < s.cfg.cTx → (s.txHead + 1) % s.cfg.cTx ≠ s.txTail →
      execN (.write byte) 5 s = .next { s with
        txBuf := s.txBuf.write s.txHead byte, txHead := (s.txHead + 1) % s.cfg.cTx, written := true
        csb := s.csb ||| bitMask s.cfg.pUdrie, responses := s.responses ++ [.val 1]
        bus := s.bus ++ [.rd .csb s.csb, .wr .csb (s.csb ||| bitMask s.cfg.pUdrie)] })

/-- R140 step W2, R144 step F4, R150: with interrupts masked, one read of CSA, and where UDRE is 1 the body that
IRQ_UDRE runs, on the state after that read; then the loop goes on. -/
def Obligations.MaskedFallbackRunsTheBody : Prop :=
  ∀ (s : State) (i : Instr) (back : Fg), s.cfg.ok = true → s.gie = false → s.fg.command? = some i →
    fallbackTo s = some back →
    (s.txHold ≠ none → ∃ v t, statusShows s v ∧ exec i s = .next t ∧
      t = { s with
        fg := back, bus := s.bus ++ [.rd .csa v], drawIn := t.drawIn, drawCount := t.drawCount }) ∧
    (s.txHold = none → s.txHead ≠ s.txTail → s.txTail < s.cfg.cTx →
      ∃ v u t, statusShows s v ∧
        u = { s with bus := s.bus ++ [.rd .csa v], drawIn := u.drawIn, drawCount := u.drawCount } ∧
        exec .irqUdre u = .next t ∧ exec i s = .next { t with fg := back })

/-- R139(b), R141(c), R204: WRITE into a full ring with `gie = 0` and a free data register completes by itself: the
oldest byte goes to the unit, the new one is queued last. -/
def Obligations.WriteFallbackCompletes : Prop :=
  ∀ (s : State) (byte : Byte), s.cfg.ok = true → s.fg = .idle → s.line = .active → s.gie = false →
    s.txHead < s.cfg.cTx → s.txTail < s.cfg.cTx → (s.txHead + 1) % s.cfg.cTx = s.txTail → s.txHold = none →
    ∃ t, execN (.write byte) 7 s = .next t ∧ t.fg = .idle ∧ t.responses = s.responses ++ [.val 1] ∧
      t.txHold = some (cellValue .txb s.txBuf s.txTail) ∧
      ringBytes .tx t = (ringBytes .tx s).tail ++ [byte] ∧ udrie t = true

/-- R144: FLUSH, step by step and as a whole where it need not wait. -/
def Obligations.FlushWaitsForTransmitComplete : Prop :=
  ∀ s : State,
    (s.fg = .idle → s.line = .active → exec .flush s = .next { s with fg := .flush .f1 }) ∧
    (s.fg = .flush .f1 → s.written = false →
      exec .flush s = .next { s with fg := .idle, responses := s.responses ++ [.done] }) ∧
    (s.fg = .flush .f1 → s.written = true → exec .flush s = .next { s with fg := .flush .f2 }) ∧
    (s.fg = .flush .f2 → exec .flush s = .next { s with
      fg := if s.txHead = s.txTail then .flush .f3 else .flush .f4 }) ∧
    (s.fg = .flush .f3 → s.cfg.ok = true → ∃ v t, statusShows s v ∧ exec .flush s = .next t ∧
      t = { s with
        fg := if s.txc = true then .idle else .flush .f2
        responses := if s.txc = true then s.responses ++ [.done] else s.responses
        bus := s.bus ++ [.rd .csa v], drawIn := t.drawIn, drawCount := t.drawCount }) ∧
    (s.fg = .flush .f4 → s.gie = true ∨ s.cfg.flushPollsWhenMasked = false →
      exec .flush s = .next { s with fg := .flush .f2 }) ∧
    (s.fg = .idle → s.line = .active → s.written = false →
      execN .flush 2 s = .next { s with responses := s.responses ++ [.done] })

/-- R146, R207: a loop pass that finds its condition unchanged leaves the command where it was: a full ring with
`gie = 1`; a ring that is not empty with no fallback; a transmission that is not complete. -/
def Obligations.BlockedLoopsStutter : Prop :=
  ∀ (s : State) (byte : Byte),
    (s.fg = .write byte .w1 → (s.txHead + 1) % s.cfg.cTx = s.txTail → s.gie = true →
      execN (.write byte) 2 s = .next s) ∧
    (s.fg = .flush .f2 → s.txHead ≠ s.txTail → s.gie = true ∨ s.cfg.flushPollsWhenMasked = false →
      execN .flush 2 s = .next s) ∧
    (s.fg = .flush .f2 → s.txHead = s.txTail → s.txc = false → ∃ v t, execN .flush 2 s = .next t ∧
      t = { s with bus := s.bus ++ [.rd .csa v], drawIn := t.drawIn, drawCount := t.drawCount })

/-! ### Handlers -/

/-- R151, R152, R153: IRQ_RX reads the status and then the data on every path; the hook decides where one is
installed, with no parity test, else the parity bit does; a full ring drops the byte; nothing else changes. -/
def Obligations.ReceiveHandler : Prop :=
  ∀ s : State, s.cfg.ok = true → s.rxHead < s.cfg.cRx →
    ∃ v d t, statusShows s v ∧ (∀ w, s.rxWait = some w → d = w.byte) ∧ exec .irqRx s = .next t ∧
      (s.hook = none → t = { s with
        rxWait := none, bus := s.bus ++ [.rd .csa v, .rd .dr d]
        rxHead := if upeOf s.rxWait = true ∨ (s.rxHead + 1) % s.cfg.cRx = s.rxTail then s.rxHead
          else (s.rxHead + 1) % s.cfg.cRx
        rxBuf := if upeOf s.rxWait = true ∨ (s.rxHead + 1) % s.cfg.cRx = s.rxTail then s.rxBuf
          else s.rxBuf.write s.rxHead d
        drawIn := t.drawIn, drawCount := t.drawCount }) ∧
      ∀ h, s.hook = some h → ∃ keep, (∀ a rest, s.hookIn = a :: rest → keep = a) ∧ t = { s with
        rxWait := none, bus := s.bus ++ [.rd .csa v, .rd .dr d]
        hookCalls := s.hookCalls ++ [⟨h, d, v, keep⟩], hookIn := s.hookIn.tail
        rxHead := if keep = false ∨ (s.rxHead + 1) % s.cfg.cRx = s.rxTail then s.rxHead
          else (s.rxHead + 1) % s.cfg.cRx
        rxBuf := if keep = false ∨ (s.rxHead + 1) % s.cfg.cRx = s.rxTail then s.rxBuf
          else s.rxBuf.write s.rxHead d
        drawIn := t.drawIn, drawCount := t.drawCount }

/-- R154, which the spec derives: what each row of the table does to the number of buffered bytes. -/
def Obligations.ReceiveOutcomes : Prop :=
  ∀ s t : State, s.cfg.ok = true → s.rxHead < s.cfg.cRx → s.rxTail < s.cfg.cRx → exec .irqRx s = .next t →
    (count .rx s = s.cfg.cRx - 1 → count .rx t = count .rx s ∧ t.rxBuf = s.rxBuf) ∧
    (s.hook = none → t.hookCalls = s.hookCalls ∧
      (upeOf s.rxWait = true → count .rx t = count .rx s ∧ t.rxBuf = s.rxBuf) ∧
      (upeOf s.rxWait = false → count .rx s < s.cfg.cRx - 1 → count .rx t = count .rx s + 1)) ∧
    (∀ h, s.hook = some h → ∃ c : HookCall, c.handle = h ∧ t.hookCalls = s.hookCalls ++ [c] ∧
      (c.answer = false → count .rx t = count .rx s ∧ t.rxBuf = s.rxBuf) ∧
      (c.answer = true → count .rx s < s.cfg.cRx - 1 → count .rx t = count .rx s + 1))

/-- R155: IRQ_UDRE faults on an empty ring; else it hands the oldest byte to the unit, clears TXC while keeping U2X
and MPCM, and disables its interrupt where the ring is now empty; nothing else changes. -/
def Obligations.TransmitHandler : Prop :=
  ∀ s : State, s.cfg.ok = true →
    (s.txHead = s.txTail → exec .irqUdre s = .fault .txBodyOnEmptyRing) ∧
    (s.txHead ≠ s.txTail → s.txTail < s.cfg.cTx → s.txHold = none →
      ∃ v t, statusShows { s with txHold := some (cellValue .txb s.txBuf s.txTail) } v ∧
        exec .irqUdre s = .next t ∧ t = { s with
          txTail := (s.txTail + 1) % s.cfg.cTx
          txHold := some (cellValue .txb s.txBuf s.txTail)
          txc := false
          csb := if s.txHead = (s.txTail + 1) % s.cfg.cTx then s.csb &&& ~~~bitMask s.cfg.pUdrie else s.csb
          bus := s.bus ++ [.wr .dr (cellValue .txb s.txBuf s.txTail), .rd .csa v,
              .wr .csa ((v &&& keepA s.cfg) ||| bitMask s.cfg.pTxc)] ++
            if s.txHead = (s.txTail + 1) % s.cfg.cTx then
              [.rd .csb s.csb, .wr .csb (s.csb &&& ~~~bitMask s.cfg.pUdrie)] else []
          drawIn := t.drawIn, drawCount := t.drawCount })

/-- R156: the value the body writes to CSA, bit by bit, whatever it read. -/
def Obligations.ValueWrittenToControlA : Prop :=
  ∀ s t : State, s.cfg.ok = true → exec .irqUdre s = .next t →
    ∃ c v w more, t.bus = s.bus ++ .wr .dr c :: .rd .csa v :: .wr .csa w :: more ∧
      (∀ i, i < 8 → bitOf w i =
        (decide (i = s.cfg.pTxc) || (decide (i = s.cfg.pU2x) && bitOf v i) ||
          (s.cfg.hasMpcm && decide (i = s.cfg.pMpcm) && bitOf v i))) ∧
      t.txc = false ∧ t.u2x = s.u2x ∧ t.mpcm = s.mpcm ∧ t.rxWait = s.rxWait ∧ t.txHold = some c

/-- R157, R41: the body faults on an empty ring, and where the unit still holds a byte; it gives neither a meaning. -/
def Obligations.TransmitBodyFaults : Prop :=
  ∀ s : State,
    (s.txHead = s.txTail → exec .irqUdre s = .fault .txBodyOnEmptyRing) ∧
    (s.txHead ≠ s.txTail → s.txTail < s.cfg.cTx → s.txHold ≠ none →
      exec .irqUdre s = .fault .dataRegisterHeld)

/-- R174, R176, R179: a handler leaves the foreground, `gie`, the line state, `written`, the hook reference, the baud
and frame registers, RXCIE, RXEN and TXEN, and the other ring as they were. -/
def Obligations.HandlersKeepTheForeground : Prop :=
  ∀ (v : BitVec 1) (s t : State), s.cfg.ok = true → exec (decodeVector v) s = .next t →
    t.fg = s.fg ∧ t.gie = s.gie ∧ t.line = s.line ∧ t.written = s.written ∧ t.hook = s.hook ∧
    t.brh = s.brh ∧ t.brl = s.brl ∧ t.csc = s.csc ∧ t.u2x = s.u2x ∧ t.mpcm = s.mpcm ∧
    t.responses = s.responses ∧ t.wireOut = s.wireOut ∧ t.txShift = s.txShift ∧
    rxcie t = rxcie s ∧ rxen t = rxen s ∧ txen t = txen s ∧ t.rxTail = s.rxTail ∧ t.txHead = s.txHead ∧
    (∀ a, t.txBuf.read a = s.txBuf.read a) ∧
    (v = 0 → t.txTail = s.txTail ∧ t.csb = s.csb ∧ t.txc = s.txc ∧ t.txHold = s.txHold) ∧
    (v = 1 → t.rxHead = s.rxHead ∧ t.rxWait = s.rxWait ∧ t.hookCalls = s.hookCalls ∧
      ∀ a, t.rxBuf.read a = s.rxBuf.read a)

/-- R173: with both requests up the two bodies commute on the block's state and on the unit's; only the bus and the
status the hook sees show the order. -/
def Obligations.HandlersCommute : Prop :=
  ∀ s : State, s.cfg.ok = true → s.rxHead < s.cfg.cRx → s.txTail < s.cfg.cTx → s.txHead ≠ s.txTail →
    s.txHold = none → s.rxWait ≠ none → (s.hook = none ∨ s.hookIn ≠ []) →
    ∃ a b c d, exec .irqRx s = .next a ∧ exec .irqUdre a = .next b ∧
      exec .irqUdre s = .next c ∧ exec .irqRx c = .next d ∧
      d = { b with bus := d.bus, hookCalls := d.hookCalls, drawIn := d.drawIn, drawCount := d.drawCount } ∧
      d.hookCalls.map (fun k => (k.handle, k.byte, k.answer)) =
        b.hookCalls.map (fun k => (k.handle, k.byte, k.answer))

/-! ### The machine -/

/-- A step runs the decoded instruction: the word HOST presents to an idle foreground, the command `fg` points at,
the entry point the dispatch selects (R28, R60, R86, R172); around `exec` it only takes the move off the schedule.That an
empty schedule goes on with FG is the model's choice (assumption log 7). -/
def Obligations.StepRunsTheInstruction : Prop :=
  ∀ (s : State) (rest : List Move), s.cfg.ok = true →
    (∀ (w : CommandWord) (i : Instr), s.fg = .idle → s.sched = .present w :: rest → decodeCommand w = .ok i →
      step s = exec i { s with sched := rest }) ∧
    (∀ i : Instr, s.fg.command? = some i → s.sched = .fg :: rest → step s = exec i { s with sched := rest }) ∧
    (∀ i : Instr, s.fg.command? = some i → s.sched = [] → step s = exec i s) ∧
    (∀ v : BitVec 1, s.sched = .irq (2 * s.cfg.lineId + v.toNat) :: rest → s.gie = true →
      (v = 0 → irqRxRequest s = true) → (v = 1 → irqUdreRequest s = true) →
      step s = exec (decodeVector v) { s with sched := rest })

/-- R172, R86, R182, R29: an entry of this line whose request is down, or with `gie = 0`, is not invoked; the lines
share `gie`, so an entry of another line is not invoked with `gie = 0` either, and with `gie = 1` it touches nothing
of this block. That what is not invoked is refused is the model's choice (assumption log 8); that another line's
entry is a step of this model at all, and one that changes nothing here, is the model's reading of R182 (assumption
log 11, DEDUCED). -/
def Obligations.DispatchOfHandlers : Prop :=
  ∀ (s : State) (idx : Nat) (rest : List Move), s.cfg.ok = true → s.sched = .irq idx :: rest →
    (idx = 2 * s.cfg.lineId → (s.gie && bitOf s.csb s.cfg.pRxcie && s.rxWait.isSome) = false →
      step s = .refused .moveNotEnabled) ∧
    (idx = 2 * s.cfg.lineId + 1 → (s.gie && bitOf s.csb s.cfg.pUdrie && s.txHold.isNone) = false →
      step s = .refused .moveNotEnabled) ∧
    (idx ≠ 2 * s.cfg.lineId → idx ≠ 2 * s.cfg.lineId + 1 →
      step s = if s.gie = true then .next { s with sched := rest } else .refused .moveNotEnabled)

/-- R199: which command is admitted in which line state; while Uninitialized the rings are empty and no entry point
can be invoked, in every state the invariant holds of. -/
def Obligations.AdmissionTable : Prop :=
  (∀ (s : State) (byte : Byte), s.fg = .idle → s.line = .uninitialized →
    exec .endLine s = .refused .commandNotAdmitted ∧
    exec (.write byte) s = .refused .commandNotAdmitted ∧
    exec .flush s = .refused .commandNotAdmitted) ∧
  (∀ (s : State) (i : Instr), s.fg = .idle → i.wellFormed s.cfg = true → i ≠ .irqRx → i ≠ .irqUdre →
    (s.line = .active ∨ (i ≠ .endLine ∧ i ≠ .flush ∧ ∀ byte, i ≠ .write byte)) →
    ∃ f : Fg, f.command? = some i ∧ exec i s = .next { s with fg := f }) ∧
  ∀ s : State, BlockInv s → s.line = .uninitialized →
    handlerEnabled s .irqRx = false ∧ handlerEnabled s .irqUdre = false ∧
    s.rxHead = s.rxTail ∧ s.txHead = s.txTail

/-- R28, R29, R201: a word presented or a change of `gie` while a command runs is no move; `gie` changes only where
HOST drives it; parameters out of range are no configuration. -/
def Obligations.WhatHostMayNotDo : Prop :=
  ∀ (s : State) (rest : List Move),
    (∀ w, s.cfg.ok = true → s.fg ≠ .idle → s.sched = .present w :: rest →
      step s = .refused .commandWhileBusy) ∧
    (∀ on, s.cfg.ok = true → s.fg ≠ .idle → s.sched = .setGie on :: rest →
      step s = .refused .gieChangeWhileBusy) ∧
    (∀ on, s.cfg.ok = true → s.fg = .idle → s.sched = .setGie on :: rest →
      step s = .next { s with sched := rest, gie := on }) ∧
    (∀ t, step s = .next t → t.gie ≠ s.gie → s.fg = .idle ∧ ∃ on, s.sched.head? = some (.setGie on)) ∧
    (256 < s.cfg.cRx ∨ 256 < s.cfg.cTx ∨ s.cfg.cRx < 2 ∨ s.cfg.cTx < 2 → step s = .refused .badConfiguration)

/-- R196 and R46, the latter the spec's general knowledge (its G8): the state after reset, for any parameters, and
`State.reset` with the default ones. That an unwritten cell is unlisted is the model's choice (assumption log 3). -/
def Obligations.ResetValues : Prop :=
  (∀ p : Params, ResetState (State.resetWith p) ∧ (State.resetWith p).cfg = p ∧ (State.resetWith p).bus = [] ∧
    (State.resetWith p).responses = [] ∧ (State.resetWith p).hookCalls = [] ∧
    (∀ a, (State.resetWith p).rxBuf.read a = none) ∧ (∀ a, (State.resetWith p).txBuf.read a = none)) ∧
  State.reset = State.resetWith Config.default

/-- R197: the ring queries and READY in the reset state, whatever the values the spec leaves open. -/
def Obligations.ResetQueries : Prop :=
  ∀ s : State, ResetState s →
    execN .ready 2 s = .next { s with responses := s.responses ++ [.val 1] } ∧
    execN .avail 3 s = .next { s with responses := s.responses ++ [.val 0] } ∧
    execN .availw 3 s = .next { s with responses := s.responses ++ [.val (s.cfg.cTx - 1)] } ∧
    execN .peek 2 s = .next { s with responses := s.responses ++ [.none] } ∧
    execN .read 2 s = .next { s with responses := s.responses ++ [.none] }

/-- The invariant holds after reset, for any parameters in range. -/
def Obligations.ResetInv : Prop := ∀ s : State, s.cfg.ok = true → ResetState s → BlockInv s

/-- R37, R47, R50, R53, R169: every step of every agent keeps the invariant, from every state that has it. Its clause
`udrieIff` says more than R47: also that a TX ring that is not empty has UDRIE set, at every step, which follows from
R140 (the head is published and UDRIE set in one group) and R155 (UDRIE is cleared only where the ring is empty). -/
def Obligations.StepKeepsInv : Prop := ∀ s t : State, BlockInv s → step s = .next t → BlockInv t

/-- R157, R41, R55: no step from a state with the invariant faults. -/
def Obligations.NoFaultFromInv : Prop := ∀ (s : State) (f : Fault), BlockInv s → step s ≠ .fault f

/-- R47, and R169 between commands: over every run from reset, under every schedule, for every parameter in range. It
follows from ResetInv and StepKeepsInv (clause `udrieIff`). -/
def Obligations.TransmitInterruptInvariant : Prop :=
  ∀ (s t : State) (n : Nat), s.cfg.ok = true → ResetState s → stepN n s = .next t → t.line = .active →
    (bitOf t.csb t.cfg.pUdrie = true → t.txHead ≠ t.txTail) ∧
    (t.fg = .idle → (bitOf t.csb t.cfg.pUdrie = true ↔ t.txHead ≠ t.txTail))

/-- R142: no byte is duplicated, reordered or invented on the way to the wire, step by step: a WRITE appends its byte
at W4, a BEGIN or END drops what is still queued, and every other step, the handlers and the fallback among them,
leaves the sequence as it is. -/
def Obligations.TransmitOrder : Prop :=
  ∀ s t : State, BlockInv s → step s = .next t →
    transmitPath t =
      if discards s then s.wireOut ++ s.txShift.toList ++ s.txHold.toList
      else transmitPath s ++ (publishes s).toList

/-- R145: where FLUSH responds after a write, nothing is queued, held or shifting, and what was on the path and all
that the commands since then published has left on the wire, in order. -/
def Obligations.FlushMeansEverythingSent : Prop :=
  ∀ (s t u : State) (n : Nat) (pt : FlushPt), BlockInv s → discardsWithin n s = false → stepN n s = .next t →
    t.fg = .flush pt → t.written = true → exec .flush t = .next u → u.fg = .idle →
    u.txHead = u.txTail ∧ u.txHold = none ∧ u.txShift = none ∧ u.wireOut = transmitPath s ++ publishedWithin n s

/-- R3, R134, R132: received bytes reach the caller in order: only IRQ_RX appends, only READ takes, the oldest first,
and what PEEK and READ have read is that byte. -/
def Obligations.ReceiveOrder : Prop :=
  (∀ s t : State, BlockInv s → step s = .next t →
    ∃ kept, ringBytes .rx t =
        (if discards s then [] else if takesOne s then (ringBytes .rx s).tail else ringBytes .rx s) ++ kept ∧
      (kept = [] ∨ (entersRx s = true ∧ s.gie = true ∧ ∃ w, s.rxWait = some w ∧ kept = [w.byte]))) ∧
  ∀ (s : State) (k : Nat) (b : Byte), BlockInv s →
    (s.fg = .peek (.s3 b) → (ringBytes .rx s).head? = some b) ∧
    (s.fg = .read (.s3 k b) → (ringBytes .rx s).head? = some b)

/-- R132, R138: what AVAIL and AVAILW answer is a lower bound: no step but READ, BEGIN, END takes from the RX count,
none but WRITE, BEGIN, END takes from the TX free space. -/
def Obligations.CountsAreLowerBounds : Prop :=
  ∀ s t : State, BlockInv s →
    (step s = .next t → takesOne s = false → discards s = false → count .rx s ≤ count .rx t) ∧
    (step s = .next t → publishes s = none → freeSlots .tx s ≤ freeSlots .tx t) ∧
    (∀ h k, s.fg = .avail (.s2 h k) → exec .avail s = .next t →
      ∃ n, t.responses = s.responses ++ [.val n] ∧ n ≤ count .rx t) ∧
    (∀ h k, s.fg = .availw (.s2 h k) → exec .availw s = .next t →
      ∃ n, t.responses = s.responses ++ [.val n] ∧ n ≤ freeSlots .tx t)

/-- R23, R24: which agent's step may write each index and each ring's storage. -/
def Obligations.IndexAndStorageOwnership : Prop :=
  ∀ s t : State, step s = .next t →
    (t.rxHead ≠ s.rxHead → entersRx s = true ∨ discards s = true) ∧
    (t.rxTail ≠ s.rxTail → takesOne s = true ∨ discards s = true) ∧
    (t.txHead ≠ s.txHead → (publishes s).isSome = true ∨ discards s = true) ∧
    (t.txTail ≠ s.txTail → entersUdre s = true ∨ discards s = true ∨
      (runsFg s = true ∧ s.gie = false ∧ (fallbackTo s).isSome = true)) ∧
    (t.rxBuf ≠ s.rxBuf → entersRx s = true) ∧
    (t.txBuf ≠ s.txBuf → runsFg s = true ∧ ∃ byte h n, s.fg = .write byte (.w3 h n))

/-- R25, R26, R117, R169: which step may write `written`, the hook reference, the line state, the baud and frame
registers, RXCIE, and where UDRIE is set; U2X and MPCM are never changed. -/
def Obligations.ControlStateOwnership : Prop :=
  ∀ s t : State, s.cfg.ok = true → step s = .next t →
    (t.written ≠ s.written →
      ((publishes s).isSome = true ∧ t.written = true) ∨
      (runsFg s = true ∧ (∃ baud frame, s.fg = .beginLine baud frame .s1) ∧ t.written = false)) ∧
    (t.hook ≠ s.hook → runsFg s = true ∧ ∃ h, s.fg = .attach h .s1 ∧ t.hook = hookOf h) ∧
    (t.line ≠ s.line → runsFg s = true ∧
      (((∃ baud frame, s.fg = .beginLine baud frame .s1) ∧ t.line = .active) ∨
        (s.fg = .endLine .e1 ∧ t.line = .uninitialized))) ∧
    (t.brh ≠ s.brh ∨ t.brl ≠ s.brl ∨ t.csc ≠ s.csc →
      runsFg s = true ∧ ∃ baud frame, s.fg = .beginLine baud frame .s1) ∧
    (rxcie t ≠ rxcie s → discards s = true ∧ (rxcie t = true ↔ t.line = .active)) ∧
    (udrie s = false → udrie t = true → (publishes s).isSome = true) ∧
    t.u2x = s.u2x ∧ t.mpcm = s.mpcm ∧ t.cfg = s.cfg

/-- R70, which the spec derives: the register-set accesses of every operation, in order, for every step. -/
def Obligations.BusTracePerStep : Prop :=
  ∀ (i : Instr) (s t : State), exec i s = .next t →
    ∃ l, t.bus = s.bus ++ l ∧ l.map Access.shape = busShapes i s t

/-- The memory frame of every instruction: every byte of RXB and TXB outside the one cell it stores to reads as
before. -/
def Obligations.MemoryFrame : Prop :=
  ∀ (i : Instr) (s t : State), exec i s = .next t →
    ∀ a, (storeAddress i s ≠ some (.rxb, a) → t.rxBuf.read a = s.rxBuf.read a) ∧
      (storeAddress i s ≠ some (.txb, a) → t.txBuf.read a = s.txBuf.read a)
end

