-- ==== Sys2Proof/Laws/Flags.lean ====
section
/-! SUPPORT. Bits of CSA and CSB: what each mask holds, what an image holds at each position, and that the
record form of a CSA value is the 8-bit form of the spec. -/

namespace Sys2Proof.Machine

theorem bitOf_bitMask {p q : Nat} (hq : q < 8) : bitOf (bitMask p) q = decide (p = q) := by
  simp [bitOf, bitMask, hq, eq_comm]

@[simp] theorem bitOf_or (v w : Byte) (p : Nat) : bitOf (v ||| w) p = (bitOf v p || bitOf w p) := by
  simp [bitOf]

@[simp] theorem bitOf_and (v w : Byte) (p : Nat) : bitOf (v &&& w) p = (bitOf v p && bitOf w p) := by
  simp [bitOf]

theorem bitOf_not {v : Byte} {p : Nat} (h : p < 8) : bitOf (~~~v) p = !bitOf v p := by
  simp [bitOf, h]

@[simp] theorem bitOf_zero (p : Nat) : bitOf 0#8 p = false := by simp [bitOf]

theorem bitOf_bitIf {on : Bool} {p q : Nat} (hq : q < 8) :
    bitOf (bitIf on p) q = (on && decide (p = q)) := by
  cases on <;> simp [bitIf, bitOf_bitMask hq]

theorem byte_ext {v w : Byte} (h : ∀ p, p < 8 → bitOf v p = bitOf w p) : v = w :=
  BitVec.eq_of_getLsbD_eq fun i hi => h i hi

/-- What `Params.ok` says, part by part. -/
theorem Params.ok_iff (p : Params) : p.ok = true ↔
    2 ≤ p.cRx ∧ p.cRx ≤ 256 ∧ 2 ≤ p.cTx ∧ p.cTx ≤ 256 ∧ 1 ≤ p.clockHz ∧ p.divMax ≤ 65535 ∧
    (∀ i ∈ p.csaPositions, i < 8) ∧ p.csaPositions.Nodup ∧
    (∀ i ∈ p.csbPositions, i < 8) ∧ p.csbPositions.Nodup ∧ p.addresses.Nodup := by
  simp only [Params.ok, Bool.and_eq_true, decide_eq_true_eq, List.all_eq_true, Config.atomBits, and_assoc]
  norm_num

/-- The positions of CSB are below 8 and pairwise distinct (D26). -/
theorem Params.csb_facts {p : Params} (h : p.ok = true) :
    (p.pRxcie < 8 ∧ p.pUdrie < 8 ∧ p.pRxen < 8 ∧ p.pTxen < 8) ∧
    p.pRxcie ≠ p.pUdrie ∧ p.pRxcie ≠ p.pRxen ∧ p.pRxcie ≠ p.pTxen ∧ p.pUdrie ≠ p.pRxen ∧
    p.pUdrie ≠ p.pTxen ∧ p.pRxen ≠ p.pTxen := by
  obtain ⟨-, -, -, -, -, -, -, -, hb, hn, -⟩ := (Params.ok_iff p).1 h
  simp [Params.csbPositions] at hb hn
  tauto

/-- The positions of CSA are below 8 and pairwise distinct (D26). -/
theorem Params.csa_facts {p : Params} (h : p.ok = true) :
    (p.pRxc < 8 ∧ p.pTxc < 8 ∧ p.pUdre < 8 ∧ p.pUpe < 8 ∧ p.pU2x < 8 ∧ p.pMpcm < 8) ∧
    (p.pRxc ≠ p.pTxc ∧ p.pRxc ≠ p.pUdre ∧ p.pRxc ≠ p.pUpe ∧ p.pRxc ≠ p.pU2x ∧ p.pRxc ≠ p.pMpcm) ∧
    (p.pTxc ≠ p.pUdre ∧ p.pTxc ≠ p.pUpe ∧ p.pTxc ≠ p.pU2x ∧ p.pTxc ≠ p.pMpcm) ∧
    (p.pUdre ≠ p.pUpe ∧ p.pUdre ≠ p.pU2x ∧ p.pUdre ≠ p.pMpcm) ∧
    (p.pUpe ≠ p.pU2x ∧ p.pUpe ≠ p.pMpcm) ∧ p.pU2x ≠ p.pMpcm := by
  obtain ⟨-, -, -, -, -, -, ha, hn, -⟩ := (Params.ok_iff p).1 h
  simp [Params.csaPositions] at ha hn
  tauto

theorem Params.cap_facts {p : Params} (h : p.ok = true) : 2 ≤ p.cRx ∧ 2 ≤ p.cTx := by
  obtain ⟨h1, -, h2, -⟩ := (Params.ok_iff p).1 h
  exact ⟨h1, h2⟩

theorem bitOf_csaNamed (p : Params) {i : Nat} (hi : i < 8) :
    bitOf (csaNamed p) i =
      (decide (p.pRxc = i) || decide (p.pTxc = i) || decide (p.pUdre = i) || decide (p.pUpe = i) ||
        decide (p.pU2x = i) || (p.hasMpcm && decide (p.pMpcm = i))) := by
  cases h : p.hasMpcm <;> simp [csaNamed, h, bitOf_bitMask hi]

/-- An image, bit by bit (R32). -/
theorem bitOf_image (p : Params) (c : Csa) {i : Nat} (hi : i < 8) :
    bitOf (c.image p) i =
      (c.rxc && decide (p.pRxc = i) || c.txc && decide (p.pTxc = i) || c.udre && decide (p.pUdre = i) ||
        c.upe && decide (p.pUpe = i) || c.u2x && decide (p.pU2x = i) ||
        (p.hasMpcm && c.mpcm) && decide (p.pMpcm = i) || (bitOf c.other i && !bitOf (csaNamed p) i)) := by
  simp [Csa.image, bitOf_bitIf hi, bitOf_not hi]

/-- The named fields stand at their positions in the image (R32). -/
theorem image_fields {p : Params} (hp : p.ok = true) (c : Csa) :
    bitOf (c.image p) p.pRxc = c.rxc ∧ bitOf (c.image p) p.pTxc = c.txc ∧
    bitOf (c.image p) p.pUdre = c.udre ∧ bitOf (c.image p) p.pUpe = c.upe ∧
    bitOf (c.image p) p.pU2x = c.u2x ∧ (p.hasMpcm = true → bitOf (c.image p) p.pMpcm = c.mpcm) := by
  obtain ⟨⟨h1, h2, h3, h4, h5, h6⟩, hd⟩ := Params.csa_facts hp
  obtain ⟨⟨a1, a2, a3, a4, a5⟩, ⟨b1, b2, b3, b4⟩, ⟨c1, c2, c3⟩, ⟨d1, d2⟩, e1⟩ := hd
  refine ⟨?_, ?_, ?_, ?_, ?_, fun hm => ?_⟩ <;>
    simp [bitOf_image, bitOf_csaNamed, *, Ne.symm a1, Ne.symm a2, Ne.symm a3, Ne.symm a4, Ne.symm a5, Ne.symm b1,
      Ne.symm b2, Ne.symm b3, Ne.symm b4, Ne.symm c1, Ne.symm c2, Ne.symm c3, Ne.symm d1, Ne.symm d2, Ne.symm e1]

theorem bitOf_keepA (p : Params) {i : Nat} (hi : i < 8) :
    bitOf (keepA p) i = (decide (p.pU2x = i) || (p.hasMpcm && decide (p.pMpcm = i))) := by
  cases h : p.hasMpcm <;> simp [keepA, h, bitOf_bitMask hi]

/-- The value the transmit-empty body writes is `(s and KEEP_A) or M(P_TXC)` of the image it read (R155, R156). -/
theorem clearTxcValue_image {p : Params} (hp : p.ok = true) (c : Csa) :
    (clearTxcValue p c).image p = (c.image p &&& keepA p) ||| bitMask p.pTxc := by
  obtain ⟨-, hd⟩ := Params.csa_facts hp
  obtain ⟨⟨a1, a2, a3, a4, a5⟩, ⟨b1, b2, b3, b4⟩, ⟨c1, c2, c3⟩, ⟨d1, d2⟩, e1⟩ := hd
  refine byte_ext fun i hi => ?_
  rw [bitOf_image _ _ hi, bitOf_or, bitOf_and, bitOf_bitMask hi, bitOf_keepA _ hi, bitOf_image _ _ hi,
    bitOf_csaNamed _ hi]
  simp only [clearTxcValue]
  by_cases e5 : p.pU2x = i
  · subst e5; simp [a4, b3, c2, d1, Ne.symm e1]
  · by_cases e6 : p.pMpcm = i
    · subst e6; cases p.hasMpcm <;> simp [a5, b4, c3, d2, e1]
    · simp [e5, e6]

/-- Writing a CSA value by fields is `RegWrite` of its image (R33). -/
theorem regWrite_csa_image {s : State} (hp : s.cfg.ok = true) (c : Csa) :
    regWrite .csa (c.image s.cfg) s = .next (writeCsa c s) := by
  obtain ⟨-, h2, -, -, h5, h6⟩ := image_fields hp c
  simp only [regWrite, writeCsa, storeCsa, Csa.ofImage, h2, h5]
  cases hm : s.cfg.hasMpcm
  · simp
  · simp [h6 hm]

end Sys2Proof.Machine
end

