-- ==== Sys2Proof/Laws/Memory.lean ====
section
/-! SUPPORT. The laws of a storage space: read after write, and the canonical form is kept. -/

namespace Sys2Proof.Machine

@[simp] theorem Memory.read_nil (a : Nat) : Memory.read [] a = none := rfl

theorem Memory.read_cons (x : Host.Cell) (m : Memory) (a : Nat) :
    Memory.read (x :: m) a = if x.1 = a then some x.2 else Memory.read m a := rfl

/-- A read after a write to the same address gives the byte written. -/
@[simp] theorem Memory.read_write_same (m : Memory) (a : Nat) (v : Byte) :
    (m.write a v).read a = some v := by
  induction m with
  | nil => simp [Memory.write, Memory.read]
  | cons x m ih =>
    unfold Memory.write
    split
    · simp [Memory.read]
    · split
      · simp [Memory.read]
      · have : x.1 ≠ a := fun h => by simp_all
        simp [Memory.read, this, ih]

/-- A write leaves every other address as it was. -/
theorem Memory.read_write_ne (m : Memory) {a b : Nat} (v : Byte) (h : b ≠ a) :
    (m.write a v).read b = m.read b := by
  have h' : a ≠ b := Ne.symm h
  induction m with
  | nil => simp [Memory.write, Memory.read, h']
  | cons x m ih =>
    unfold Memory.write
    split
    · simp [Memory.read, h']
    · split
      · rename_i hx; simp [Memory.read, ← hx, h']
      · simp [Memory.read, ih]

theorem Memory.read_write (m : Memory) (a b : Nat) (v : Byte) :
    (m.write a v).read b = if b = a then some v else m.read b := by
  split
  · rename_i h; simp [h]
  · rename_i h; exact Memory.read_write_ne m v h

/-- The canonical form says that the addresses rise strictly. -/
theorem Memory.wf_cons_iff (x : Host.Cell) (m : Memory) :
    Memory.wf (x :: m) = true ↔ (∀ y ∈ m, x.1 < y.1) ∧ Memory.wf m = true := by
  induction m generalizing x with
  | nil => simp [Memory.wf]
  | cons y m ih =>
    simp only [Memory.wf, Bool.and_eq_true, decide_eq_true_eq, ih y, List.mem_cons, forall_eq_or_imp]
    constructor
    · rintro ⟨h, h1, h2⟩
      exact ⟨⟨h, fun z hz => h.trans (h1 z hz)⟩, h1, h2⟩
    · rintro ⟨⟨h, _⟩, h1, h2⟩
      exact ⟨h, h1, h2⟩

/-- The addresses listed after a write. -/
theorem Memory.mem_write {m : Memory} {a : Nat} {v : Byte} {y : Host.Cell} (h : y ∈ m.write a v) :
    y = (a, v) ∨ y ∈ m := by
  induction m with
  | nil => simpa [Memory.write] using h
  | cons x m ih =>
    unfold Memory.write at h
    split at h
    · simpa using h
    · split at h
      · rcases List.mem_cons.1 h with h | h
        · exact .inl h
        · exact .inr (List.mem_cons_of_mem _ h)
      · rcases List.mem_cons.1 h with h | h
        · exact .inr (h ▸ List.mem_cons_self)
        · exact (ih h).imp id (List.mem_cons_of_mem _)

/-- A write keeps the canonical form. -/
theorem Memory.wf_write {m : Memory} (a : Nat) (v : Byte) (h : m.wf = true) : (m.write a v).wf = true := by
  induction m with
  | nil => rfl
  | cons x m ih =>
    obtain ⟨hx, hm⟩ := (Memory.wf_cons_iff x m).1 h
    unfold Memory.write
    split
    · rename_i ha
      refine (Memory.wf_cons_iff _ _).2 ⟨fun y hy => ?_, h⟩
      rcases List.mem_cons.1 hy with hy | hy
      · exact hy ▸ ha
      · exact ha.trans (hx y hy)
    · split
      · rename_i ha
        exact (Memory.wf_cons_iff _ _).2 ⟨fun y hy => ha ▸ hx y hy, hm⟩
      · rename_i h1 h2
        refine (Memory.wf_cons_iff _ _).2 ⟨fun y hy => ?_, ih hm⟩
        rcases Memory.mem_write hy with rfl | hy
        · show x.1 < a
          omega
        · exact hx y hy

/-- In the canonical form equal reads mean equal memories. -/
theorem Memory.eq_of_read_eq {m m' : Memory} (h : m.wf = true) (h' : m'.wf = true)
    (hr : ∀ a, m.read a = m'.read a) : m = m' := by
  have low : ∀ (x : Host.Cell) (k : Memory), Memory.wf (x :: k) = true → ∀ a, a < x.1 →
      Memory.read (x :: k) a = none := by
    intro x k
    induction k generalizing x with
    | nil => intro _ a ha; simp [Memory.read, Nat.ne_of_gt ha, Memory.unlisted]
    | cons y k ih =>
      intro hw a ha
      obtain ⟨h1, h2⟩ := (Memory.wf_cons_iff x _).1 hw
      rw [Memory.read_cons, if_neg (Nat.ne_of_gt ha)]
      exact ih y h2 a (ha.trans (h1 y List.mem_cons_self))
  have cut : ∀ (x : Host.Cell) (k : Memory), Memory.wf (x :: k) = true → Memory.read k x.1 = none := by
    intro x k hw
    obtain ⟨h1, h2⟩ := (Memory.wf_cons_iff x k).1 hw
    cases k with
    | nil => rfl
    | cons y k => exact low y k h2 x.1 (h1 y List.mem_cons_self)
  induction m generalizing m' with
  | nil =>
    cases m' with
    | nil => rfl
    | cons y k => have := hr y.1; simp [Memory.read, Memory.unlisted] at this
  | cons x m ih =>
    cases m' with
    | nil => have := hr x.1; simp [Memory.read, Memory.unlisted] at this
    | cons y k =>
      have hxy : x.1 = y.1 := by
        rcases Nat.lt_trichotomy x.1 y.1 with hlt | heq | hgt
        · have := hr x.1; rw [low y k h' x.1 hlt] at this; simp [Memory.read] at this
        · exact heq
        · have := hr y.1; rw [low x m h y.1 hgt] at this; simp [Memory.read] at this
      have hv : x.2 = y.2 := by
        have := hr x.1
        simpa [Memory.read, hxy] using this
      have : m = k := by
        refine ih ((Memory.wf_cons_iff x m).1 h).2 ((Memory.wf_cons_iff y k).1 h').2 fun a => ?_
        have hc := hr a
        rw [Memory.read_cons, Memory.read_cons] at hc
        by_cases ha : x.1 = a
        · subst ha
          rw [cut x m h, hxy, cut y k h']
        · rw [if_neg ha, if_neg (hxy ▸ ha)] at hc
          exact hc
      rw [this, Prod.ext hxy hv]

@[simp] theorem cellValue_write_same (sp : Space) (m : Memory) (a : Nat) (v : Byte) :
    cellValue sp (m.write a v) a = v := by simp [cellValue]

theorem cellValue_write_ne (sp : Space) (m : Memory) {a b : Nat} (v : Byte) (h : b ≠ a) :
    cellValue sp (m.write a v) b = cellValue sp m b := by simp [cellValue, Memory.read_write_ne m v h]

theorem cellValue_of_read {sp : Space} {m : Memory} {a : Nat} {v : Byte} (h : m.read a = some v) :
    cellValue sp m a = v := by simp [cellValue, h]

end Sys2Proof.Machine
end

