-- ==== Sys2Proof/Laws/State.lean ====
section
/-! SUPPORT. What each named update of the state leaves of each field: one lemma per field per update, so that no
later proof unfolds a record update. -/

namespace Sys2Proof.Machine

/-! ### logAccess -/

@[simp] theorem logAccess_cfg (a : Access) (s : State) : (logAccess a s).cfg = s.cfg := rfl
@[simp] theorem logAccess_rxHead (a : Access) (s : State) : (logAccess a s).rxHead = s.rxHead := rfl
@[simp] theorem logAccess_rxTail (a : Access) (s : State) : (logAccess a s).rxTail = s.rxTail := rfl
@[simp] theorem logAccess_txHead (a : Access) (s : State) : (logAccess a s).txHead = s.txHead := rfl
@[simp] theorem logAccess_txTail (a : Access) (s : State) : (logAccess a s).txTail = s.txTail := rfl
@[simp] theorem logAccess_rxBuf (a : Access) (s : State) : (logAccess a s).rxBuf = s.rxBuf := rfl
@[simp] theorem logAccess_txBuf (a : Access) (s : State) : (logAccess a s).txBuf = s.txBuf := rfl
@[simp] theorem logAccess_written (a : Access) (s : State) : (logAccess a s).written = s.written := rfl
@[simp] theorem logAccess_hook (a : Access) (s : State) : (logAccess a s).hook = s.hook := rfl
@[simp] theorem logAccess_line (a : Access) (s : State) : (logAccess a s).line = s.line := rfl
@[simp] theorem logAccess_fg (a : Access) (s : State) : (logAccess a s).fg = s.fg := rfl
@[simp] theorem logAccess_gie (a : Access) (s : State) : (logAccess a s).gie = s.gie := rfl
@[simp] theorem logAccess_brh (a : Access) (s : State) : (logAccess a s).brh = s.brh := rfl
@[simp] theorem logAccess_brl (a : Access) (s : State) : (logAccess a s).brl = s.brl := rfl
@[simp] theorem logAccess_csb (a : Access) (s : State) : (logAccess a s).csb = s.csb := rfl
@[simp] theorem logAccess_csc (a : Access) (s : State) : (logAccess a s).csc = s.csc := rfl
@[simp] theorem logAccess_txc (a : Access) (s : State) : (logAccess a s).txc = s.txc := rfl
@[simp] theorem logAccess_u2x (a : Access) (s : State) : (logAccess a s).u2x = s.u2x := rfl
@[simp] theorem logAccess_mpcm (a : Access) (s : State) : (logAccess a s).mpcm = s.mpcm := rfl
@[simp] theorem logAccess_rxWait (a : Access) (s : State) : (logAccess a s).rxWait = s.rxWait := rfl
@[simp] theorem logAccess_txHold (a : Access) (s : State) : (logAccess a s).txHold = s.txHold := rfl
@[simp] theorem logAccess_txShift (a : Access) (s : State) : (logAccess a s).txShift = s.txShift := rfl
@[simp] theorem logAccess_wireOut (a : Access) (s : State) : (logAccess a s).wireOut = s.wireOut := rfl
@[simp] theorem logAccess_responses (a : Access) (s : State) : (logAccess a s).responses = s.responses := rfl
@[simp] theorem logAccess_bus (a : Access) (s : State) : (logAccess a s).bus = s.bus ++ [a] := rfl
@[simp] theorem logAccess_hookCalls (a : Access) (s : State) : (logAccess a s).hookCalls = s.hookCalls := rfl
@[simp] theorem logAccess_sched (a : Access) (s : State) : (logAccess a s).sched = s.sched := rfl
@[simp] theorem logAccess_hookIn (a : Access) (s : State) : (logAccess a s).hookIn = s.hookIn := rfl
@[simp] theorem logAccess_drawIn (a : Access) (s : State) : (logAccess a s).drawIn = s.drawIn := rfl
@[simp] theorem logAccess_drawCount (a : Access) (s : State) : (logAccess a s).drawCount = s.drawCount := rfl

/-! ### goTo -/

@[simp] theorem goTo_cfg (l : Fg) (s : State) : (goTo l s).cfg = s.cfg := rfl
@[simp] theorem goTo_rxHead (l : Fg) (s : State) : (goTo l s).rxHead = s.rxHead := rfl
@[simp] theorem goTo_rxTail (l : Fg) (s : State) : (goTo l s).rxTail = s.rxTail := rfl
@[simp] theorem goTo_txHead (l : Fg) (s : State) : (goTo l s).txHead = s.txHead := rfl
@[simp] theorem goTo_txTail (l : Fg) (s : State) : (goTo l s).txTail = s.txTail := rfl
@[simp] theorem goTo_rxBuf (l : Fg) (s : State) : (goTo l s).rxBuf = s.rxBuf := rfl
@[simp] theorem goTo_txBuf (l : Fg) (s : State) : (goTo l s).txBuf = s.txBuf := rfl
@[simp] theorem goTo_written (l : Fg) (s : State) : (goTo l s).written = s.written := rfl
@[simp] theorem goTo_hook (l : Fg) (s : State) : (goTo l s).hook = s.hook := rfl
@[simp] theorem goTo_line (l : Fg) (s : State) : (goTo l s).line = s.line := rfl
@[simp] theorem goTo_fg (l : Fg) (s : State) : (goTo l s).fg = l := rfl
@[simp] theorem goTo_gie (l : Fg) (s : State) : (goTo l s).gie = s.gie := rfl
@[simp] theorem goTo_brh (l : Fg) (s : State) : (goTo l s).brh = s.brh := rfl
@[simp] theorem goTo_brl (l : Fg) (s : State) : (goTo l s).brl = s.brl := rfl
@[simp] theorem goTo_csb (l : Fg) (s : State) : (goTo l s).csb = s.csb := rfl
@[simp] theorem goTo_csc (l : Fg) (s : State) : (goTo l s).csc = s.csc := rfl
@[simp] theorem goTo_txc (l : Fg) (s : State) : (goTo l s).txc = s.txc := rfl
@[simp] theorem goTo_u2x (l : Fg) (s : State) : (goTo l s).u2x = s.u2x := rfl
@[simp] theorem goTo_mpcm (l : Fg) (s : State) : (goTo l s).mpcm = s.mpcm := rfl
@[simp] theorem goTo_rxWait (l : Fg) (s : State) : (goTo l s).rxWait = s.rxWait := rfl
@[simp] theorem goTo_txHold (l : Fg) (s : State) : (goTo l s).txHold = s.txHold := rfl
@[simp] theorem goTo_txShift (l : Fg) (s : State) : (goTo l s).txShift = s.txShift := rfl
@[simp] theorem goTo_wireOut (l : Fg) (s : State) : (goTo l s).wireOut = s.wireOut := rfl
@[simp] theorem goTo_responses (l : Fg) (s : State) : (goTo l s).responses = s.responses := rfl
@[simp] theorem goTo_bus (l : Fg) (s : State) : (goTo l s).bus = s.bus := rfl
@[simp] theorem goTo_hookCalls (l : Fg) (s : State) : (goTo l s).hookCalls = s.hookCalls := rfl
@[simp] theorem goTo_sched (l : Fg) (s : State) : (goTo l s).sched = s.sched := rfl
@[simp] theorem goTo_hookIn (l : Fg) (s : State) : (goTo l s).hookIn = s.hookIn := rfl
@[simp] theorem goTo_drawIn (l : Fg) (s : State) : (goTo l s).drawIn = s.drawIn := rfl
@[simp] theorem goTo_drawCount (l : Fg) (s : State) : (goTo l s).drawCount = s.drawCount := rfl

/-! ### respond -/

@[simp] theorem respond_cfg (r : Response) (s : State) : (respond r s).cfg = s.cfg := rfl
@[simp] theorem respond_rxHead (r : Response) (s : State) : (respond r s).rxHead = s.rxHead := rfl
@[simp] theorem respond_rxTail (r : Response) (s : State) : (respond r s).rxTail = s.rxTail := rfl
@[simp] theorem respond_txHead (r : Response) (s : State) : (respond r s).txHead = s.txHead := rfl
@[simp] theorem respond_txTail (r : Response) (s : State) : (respond r s).txTail = s.txTail := rfl
@[simp] theorem respond_rxBuf (r : Response) (s : State) : (respond r s).rxBuf = s.rxBuf := rfl
@[simp] theorem respond_txBuf (r : Response) (s : State) : (respond r s).txBuf = s.txBuf := rfl
@[simp] theorem respond_written (r : Response) (s : State) : (respond r s).written = s.written := rfl
@[simp] theorem respond_hook (r : Response) (s : State) : (respond r s).hook = s.hook := rfl
@[simp] theorem respond_line (r : Response) (s : State) : (respond r s).line = s.line := rfl
@[simp] theorem respond_fg (r : Response) (s : State) : (respond r s).fg = .idle := rfl
@[simp] theorem respond_gie (r : Response) (s : State) : (respond r s).gie = s.gie := rfl
@[simp] theorem respond_brh (r : Response) (s : State) : (respond r s).brh = s.brh := rfl
@[simp] theorem respond_brl (r : Response) (s : State) : (respond r s).brl = s.brl := rfl
@[simp] theorem respond_csb (r : Response) (s : State) : (respond r s).csb = s.csb := rfl
@[simp] theorem respond_csc (r : Response) (s : State) : (respond r s).csc = s.csc := rfl
@[simp] theorem respond_txc (r : Response) (s : State) : (respond r s).txc = s.txc := rfl
@[simp] theorem respond_u2x (r : Response) (s : State) : (respond r s).u2x = s.u2x := rfl
@[simp] theorem respond_mpcm (r : Response) (s : State) : (respond r s).mpcm = s.mpcm := rfl
@[simp] theorem respond_rxWait (r : Response) (s : State) : (respond r s).rxWait = s.rxWait := rfl
@[simp] theorem respond_txHold (r : Response) (s : State) : (respond r s).txHold = s.txHold := rfl
@[simp] theorem respond_txShift (r : Response) (s : State) : (respond r s).txShift = s.txShift := rfl
@[simp] theorem respond_wireOut (r : Response) (s : State) : (respond r s).wireOut = s.wireOut := rfl
@[simp] theorem respond_responses (r : Response) (s : State) : (respond r s).responses = s.responses ++ [r] := rfl
@[simp] theorem respond_bus (r : Response) (s : State) : (respond r s).bus = s.bus := rfl
@[simp] theorem respond_hookCalls (r : Response) (s : State) : (respond r s).hookCalls = s.hookCalls := rfl
@[simp] theorem respond_sched (r : Response) (s : State) : (respond r s).sched = s.sched := rfl
@[simp] theorem respond_hookIn (r : Response) (s : State) : (respond r s).hookIn = s.hookIn := rfl
@[simp] theorem respond_drawIn (r : Response) (s : State) : (respond r s).drawIn = s.drawIn := rfl
@[simp] theorem respond_drawCount (r : Response) (s : State) : (respond r s).drawCount = s.drawCount := rfl

/-! ### resetRings -/

@[simp] theorem resetRings_cfg (s : State) : (resetRings s).cfg = s.cfg := rfl
@[simp] theorem resetRings_rxHead (s : State) : (resetRings s).rxHead = 0 := rfl
@[simp] theorem resetRings_rxTail (s : State) : (resetRings s).rxTail = 0 := rfl
@[simp] theorem resetRings_txHead (s : State) : (resetRings s).txHead = 0 := rfl
@[simp] theorem resetRings_txTail (s : State) : (resetRings s).txTail = 0 := rfl
@[simp] theorem resetRings_rxBuf (s : State) : (resetRings s).rxBuf = s.rxBuf := rfl
@[simp] theorem resetRings_txBuf (s : State) : (resetRings s).txBuf = s.txBuf := rfl
@[simp] theorem resetRings_written (s : State) : (resetRings s).written = s.written := rfl
@[simp] theorem resetRings_hook (s : State) : (resetRings s).hook = s.hook := rfl
@[simp] theorem resetRings_line (s : State) : (resetRings s).line = s.line := rfl
@[simp] theorem resetRings_fg (s : State) : (resetRings s).fg = s.fg := rfl
@[simp] theorem resetRings_gie (s : State) : (resetRings s).gie = s.gie := rfl
@[simp] theorem resetRings_brh (s : State) : (resetRings s).brh = s.brh := rfl
@[simp] theorem resetRings_brl (s : State) : (resetRings s).brl = s.brl := rfl
@[simp] theorem resetRings_csb (s : State) : (resetRings s).csb = s.csb := rfl
@[simp] theorem resetRings_csc (s : State) : (resetRings s).csc = s.csc := rfl
@[simp] theorem resetRings_txc (s : State) : (resetRings s).txc = s.txc := rfl
@[simp] theorem resetRings_u2x (s : State) : (resetRings s).u2x = s.u2x := rfl
@[simp] theorem resetRings_mpcm (s : State) : (resetRings s).mpcm = s.mpcm := rfl
@[simp] theorem resetRings_rxWait (s : State) : (resetRings s).rxWait = s.rxWait := rfl
@[simp] theorem resetRings_txHold (s : State) : (resetRings s).txHold = s.txHold := rfl
@[simp] theorem resetRings_txShift (s : State) : (resetRings s).txShift = s.txShift := rfl
@[simp] theorem resetRings_wireOut (s : State) : (resetRings s).wireOut = s.wireOut := rfl
@[simp] theorem resetRings_responses (s : State) : (resetRings s).responses = s.responses := rfl
@[simp] theorem resetRings_bus (s : State) : (resetRings s).bus = s.bus := rfl
@[simp] theorem resetRings_hookCalls (s : State) : (resetRings s).hookCalls = s.hookCalls := rfl
@[simp] theorem resetRings_sched (s : State) : (resetRings s).sched = s.sched := rfl
@[simp] theorem resetRings_hookIn (s : State) : (resetRings s).hookIn = s.hookIn := rfl
@[simp] theorem resetRings_drawIn (s : State) : (resetRings s).drawIn = s.drawIn := rfl
@[simp] theorem resetRings_drawCount (s : State) : (resetRings s).drawCount = s.drawCount := rfl

/-! ### storeCsa -/

@[simp] theorem storeCsa_cfg (c : Csa) (s : State) : (storeCsa c s).cfg = s.cfg := rfl
@[simp] theorem storeCsa_rxHead (c : Csa) (s : State) : (storeCsa c s).rxHead = s.rxHead := rfl
@[simp] theorem storeCsa_rxTail (c : Csa) (s : State) : (storeCsa c s).rxTail = s.rxTail := rfl
@[simp] theorem storeCsa_txHead (c : Csa) (s : State) : (storeCsa c s).txHead = s.txHead := rfl
@[simp] theorem storeCsa_txTail (c : Csa) (s : State) : (storeCsa c s).txTail = s.txTail := rfl
@[simp] theorem storeCsa_rxBuf (c : Csa) (s : State) : (storeCsa c s).rxBuf = s.rxBuf := rfl
@[simp] theorem storeCsa_txBuf (c : Csa) (s : State) : (storeCsa c s).txBuf = s.txBuf := rfl
@[simp] theorem storeCsa_written (c : Csa) (s : State) : (storeCsa c s).written = s.written := rfl
@[simp] theorem storeCsa_hook (c : Csa) (s : State) : (storeCsa c s).hook = s.hook := rfl
@[simp] theorem storeCsa_line (c : Csa) (s : State) : (storeCsa c s).line = s.line := rfl
@[simp] theorem storeCsa_fg (c : Csa) (s : State) : (storeCsa c s).fg = s.fg := rfl
@[simp] theorem storeCsa_gie (c : Csa) (s : State) : (storeCsa c s).gie = s.gie := rfl
@[simp] theorem storeCsa_brh (c : Csa) (s : State) : (storeCsa c s).brh = s.brh := rfl
@[simp] theorem storeCsa_brl (c : Csa) (s : State) : (storeCsa c s).brl = s.brl := rfl
@[simp] theorem storeCsa_csb (c : Csa) (s : State) : (storeCsa c s).csb = s.csb := rfl
@[simp] theorem storeCsa_csc (c : Csa) (s : State) : (storeCsa c s).csc = s.csc := rfl
@[simp] theorem storeCsa_txc (c : Csa) (s : State) : (storeCsa c s).txc = (s.txc && !c.txc) := rfl
@[simp] theorem storeCsa_u2x (c : Csa) (s : State) : (storeCsa c s).u2x = c.u2x := rfl
@[simp] theorem storeCsa_mpcm (c : Csa) (s : State) : (storeCsa c s).mpcm = (if s.cfg.hasMpcm then c.mpcm else s.mpcm) := rfl
@[simp] theorem storeCsa_rxWait (c : Csa) (s : State) : (storeCsa c s).rxWait = s.rxWait := rfl
@[simp] theorem storeCsa_txHold (c : Csa) (s : State) : (storeCsa c s).txHold = s.txHold := rfl
@[simp] theorem storeCsa_txShift (c : Csa) (s : State) : (storeCsa c s).txShift = s.txShift := rfl
@[simp] theorem storeCsa_wireOut (c : Csa) (s : State) : (storeCsa c s).wireOut = s.wireOut := rfl
@[simp] theorem storeCsa_responses (c : Csa) (s : State) : (storeCsa c s).responses = s.responses := rfl
@[simp] theorem storeCsa_bus (c : Csa) (s : State) : (storeCsa c s).bus = s.bus := rfl
@[simp] theorem storeCsa_hookCalls (c : Csa) (s : State) : (storeCsa c s).hookCalls = s.hookCalls := rfl
@[simp] theorem storeCsa_sched (c : Csa) (s : State) : (storeCsa c s).sched = s.sched := rfl
@[simp] theorem storeCsa_hookIn (c : Csa) (s : State) : (storeCsa c s).hookIn = s.hookIn := rfl
@[simp] theorem storeCsa_drawIn (c : Csa) (s : State) : (storeCsa c s).drawIn = s.drawIn := rfl
@[simp] theorem storeCsa_drawCount (c : Csa) (s : State) : (storeCsa c s).drawCount = s.drawCount := rfl

/-! ### writeCsa -/

@[simp] theorem writeCsa_cfg (c : Csa) (s : State) : (writeCsa c s).cfg = s.cfg := rfl
@[simp] theorem writeCsa_rxHead (c : Csa) (s : State) : (writeCsa c s).rxHead = s.rxHead := rfl
@[simp] theorem writeCsa_rxTail (c : Csa) (s : State) : (writeCsa c s).rxTail = s.rxTail := rfl
@[simp] theorem writeCsa_txHead (c : Csa) (s : State) : (writeCsa c s).txHead = s.txHead := rfl
@[simp] theorem writeCsa_txTail (c : Csa) (s : State) : (writeCsa c s).txTail = s.txTail := rfl
@[simp] theorem writeCsa_rxBuf (c : Csa) (s : State) : (writeCsa c s).rxBuf = s.rxBuf := rfl
@[simp] theorem writeCsa_txBuf (c : Csa) (s : State) : (writeCsa c s).txBuf = s.txBuf := rfl
@[simp] theorem writeCsa_written (c : Csa) (s : State) : (writeCsa c s).written = s.written := rfl
@[simp] theorem writeCsa_hook (c : Csa) (s : State) : (writeCsa c s).hook = s.hook := rfl
@[simp] theorem writeCsa_line (c : Csa) (s : State) : (writeCsa c s).line = s.line := rfl
@[simp] theorem writeCsa_fg (c : Csa) (s : State) : (writeCsa c s).fg = s.fg := rfl
@[simp] theorem writeCsa_gie (c : Csa) (s : State) : (writeCsa c s).gie = s.gie := rfl
@[simp] theorem writeCsa_brh (c : Csa) (s : State) : (writeCsa c s).brh = s.brh := rfl
@[simp] theorem writeCsa_brl (c : Csa) (s : State) : (writeCsa c s).brl = s.brl := rfl
@[simp] theorem writeCsa_csb (c : Csa) (s : State) : (writeCsa c s).csb = s.csb := rfl
@[simp] theorem writeCsa_csc (c : Csa) (s : State) : (writeCsa c s).csc = s.csc := rfl
@[simp] theorem writeCsa_txc (c : Csa) (s : State) : (writeCsa c s).txc = (s.txc && !c.txc) := rfl
@[simp] theorem writeCsa_u2x (c : Csa) (s : State) : (writeCsa c s).u2x = c.u2x := rfl
@[simp] theorem writeCsa_mpcm (c : Csa) (s : State) : (writeCsa c s).mpcm = (if s.cfg.hasMpcm then c.mpcm else s.mpcm) := rfl
@[simp] theorem writeCsa_rxWait (c : Csa) (s : State) : (writeCsa c s).rxWait = s.rxWait := rfl
@[simp] theorem writeCsa_txHold (c : Csa) (s : State) : (writeCsa c s).txHold = s.txHold := rfl
@[simp] theorem writeCsa_txShift (c : Csa) (s : State) : (writeCsa c s).txShift = s.txShift := rfl
@[simp] theorem writeCsa_wireOut (c : Csa) (s : State) : (writeCsa c s).wireOut = s.wireOut := rfl
@[simp] theorem writeCsa_responses (c : Csa) (s : State) : (writeCsa c s).responses = s.responses := rfl
@[simp] theorem writeCsa_bus (c : Csa) (s : State) : (writeCsa c s).bus = s.bus ++ [.wr .csa (c.image s.cfg)] := rfl
@[simp] theorem writeCsa_hookCalls (c : Csa) (s : State) : (writeCsa c s).hookCalls = s.hookCalls := rfl
@[simp] theorem writeCsa_sched (c : Csa) (s : State) : (writeCsa c s).sched = s.sched := rfl
@[simp] theorem writeCsa_hookIn (c : Csa) (s : State) : (writeCsa c s).hookIn = s.hookIn := rfl
@[simp] theorem writeCsa_drawIn (c : Csa) (s : State) : (writeCsa c s).drawIn = s.drawIn := rfl
@[simp] theorem writeCsa_drawCount (c : Csa) (s : State) : (writeCsa c s).drawCount = s.drawCount := rfl

/-! ### drawByte -/

@[simp] theorem drawByte_cfg (s : State) : ((drawByte s).2).cfg = s.cfg := by
  unfold drawByte; split <;> rfl
@[simp] theorem drawByte_rxHead (s : State) : ((drawByte s).2).rxHead = s.rxHead := by
  unfold drawByte; split <;> rfl
@[simp] theorem drawByte_rxTail (s : State) : ((drawByte s).2).rxTail = s.rxTail := by
  unfold drawByte; split <;> rfl
@[simp] theorem drawByte_txHead (s : State) : ((drawByte s).2).txHead = s.txHead := by
  unfold drawByte; split <;> rfl
@[simp] theorem drawByte_txTail (s : State) : ((drawByte s).2).txTail = s.txTail := by
  unfold drawByte; split <;> rfl
@[simp] theorem drawByte_rxBuf (s : State) : ((drawByte s).2).rxBuf = s.rxBuf := by
  unfold drawByte; split <;> rfl
@[simp] theorem drawByte_txBuf (s : State) : ((drawByte s).2).txBuf = s.txBuf := by
  unfold drawByte; split <;> rfl
@[simp] theorem drawByte_written (s : State) : ((drawByte s).2).written = s.written := by
  unfold drawByte; split <;> rfl
@[simp] theorem drawByte_hook (s : State) : ((drawByte s).2).hook = s.hook := by
  unfold drawByte; split <;> rfl
@[simp] theorem drawByte_line (s : State) : ((drawByte s).2).line = s.line := by
  unfold drawByte; split <;> rfl
@[simp] theorem drawByte_fg (s : State) : ((drawByte s).2).fg = s.fg := by
  unfold drawByte; split <;> rfl
@[simp] theorem drawByte_gie (s : State) : ((drawByte s).2).gie = s.gie := by
  unfold drawByte; split <;> rfl
@[simp] theorem drawByte_brh (s : State) : ((drawByte s).2).brh = s.brh := by
  unfold drawByte; split <;> rfl
@[simp] theorem drawByte_brl (s : State) : ((drawByte s).2).brl = s.brl := by
  unfold drawByte; split <;> rfl
@[simp] theorem drawByte_csb (s : State) : ((drawByte s).2).csb = s.csb := by
  unfold drawByte; split <;> rfl
@[simp] theorem drawByte_csc (s : State) : ((drawByte s).2).csc = s.csc := by
  unfold drawByte; split <;> rfl
@[simp] theorem drawByte_txc (s : State) : ((drawByte s).2).txc = s.txc := by
  unfold drawByte; split <;> rfl
@[simp] theorem drawByte_u2x (s : State) : ((drawByte s).2).u2x = s.u2x := by
  unfold drawByte; split <;> rfl
@[simp] theorem drawByte_mpcm (s : State) : ((drawByte s).2).mpcm = s.mpcm := by
  unfold drawByte; split <;> rfl
@[simp] theorem drawByte_rxWait (s : State) : ((drawByte s).2).rxWait = s.rxWait := by
  unfold drawByte; split <;> rfl
@[simp] theorem drawByte_txHold (s : State) : ((drawByte s).2).txHold = s.txHold := by
  unfold drawByte; split <;> rfl
@[simp] theorem drawByte_txShift (s : State) : ((drawByte s).2).txShift = s.txShift := by
  unfold drawByte; split <;> rfl
@[simp] theorem drawByte_wireOut (s : State) : ((drawByte s).2).wireOut = s.wireOut := by
  unfold drawByte; split <;> rfl
@[simp] theorem drawByte_responses (s : State) : ((drawByte s).2).responses = s.responses := by
  unfold drawByte; split <;> rfl
@[simp] theorem drawByte_bus (s : State) : ((drawByte s).2).bus = s.bus := by
  unfold drawByte; split <;> rfl
@[simp] theorem drawByte_hookCalls (s : State) : ((drawByte s).2).hookCalls = s.hookCalls := by
  unfold drawByte; split <;> rfl
@[simp] theorem drawByte_sched (s : State) : ((drawByte s).2).sched = s.sched := by
  unfold drawByte; split <;> rfl
@[simp] theorem drawByte_hookIn (s : State) : ((drawByte s).2).hookIn = s.hookIn := by
  unfold drawByte; split <;> rfl

/-! ### readCsa -/

@[simp] theorem readCsa_cfg (s : State) : ((readCsa s).2).cfg = s.cfg := by
  simp [readCsa]
@[simp] theorem readCsa_rxHead (s : State) : ((readCsa s).2).rxHead = s.rxHead := by
  simp [readCsa]
@[simp] theorem readCsa_rxTail (s : State) : ((readCsa s).2).rxTail = s.rxTail := by
  simp [readCsa]
@[simp] theorem readCsa_txHead (s : State) : ((readCsa s).2).txHead = s.txHead := by
  simp [readCsa]
@[simp] theorem readCsa_txTail (s : State) : ((readCsa s).2).txTail = s.txTail := by
  simp [readCsa]
@[simp] theorem readCsa_rxBuf (s : State) : ((readCsa s).2).rxBuf = s.rxBuf := by
  simp [readCsa]
@[simp] theorem readCsa_txBuf (s : State) : ((readCsa s).2).txBuf = s.txBuf := by
  simp [readCsa]
@[simp] theorem readCsa_written (s : State) : ((readCsa s).2).written = s.written := by
  simp [readCsa]
@[simp] theorem readCsa_hook (s : State) : ((readCsa s).2).hook = s.hook := by
  simp [readCsa]
@[simp] theorem readCsa_line (s : State) : ((readCsa s).2).line = s.line := by
  simp [readCsa]
@[simp] theorem readCsa_fg (s : State) : ((readCsa s).2).fg = s.fg := by
  simp [readCsa]
@[simp] theorem readCsa_gie (s : State) : ((readCsa s).2).gie = s.gie := by
  simp [readCsa]
@[simp] theorem readCsa_brh (s : State) : ((readCsa s).2).brh = s.brh := by
  simp [readCsa]
@[simp] theorem readCsa_brl (s : State) : ((readCsa s).2).brl = s.brl := by
  simp [readCsa]
@[simp] theorem readCsa_csb (s : State) : ((readCsa s).2).csb = s.csb := by
  simp [readCsa]
@[simp] theorem readCsa_csc (s : State) : ((readCsa s).2).csc = s.csc := by
  simp [readCsa]
@[simp] theorem readCsa_txc (s : State) : ((readCsa s).2).txc = s.txc := by
  simp [readCsa]
@[simp] theorem readCsa_u2x (s : State) : ((readCsa s).2).u2x = s.u2x := by
  simp [readCsa]
@[simp] theorem readCsa_mpcm (s : State) : ((readCsa s).2).mpcm = s.mpcm := by
  simp [readCsa]
@[simp] theorem readCsa_rxWait (s : State) : ((readCsa s).2).rxWait = s.rxWait := by
  simp [readCsa]
@[simp] theorem readCsa_txHold (s : State) : ((readCsa s).2).txHold = s.txHold := by
  simp [readCsa]
@[simp] theorem readCsa_txShift (s : State) : ((readCsa s).2).txShift = s.txShift := by
  simp [readCsa]
@[simp] theorem readCsa_wireOut (s : State) : ((readCsa s).2).wireOut = s.wireOut := by
  simp [readCsa]
@[simp] theorem readCsa_responses (s : State) : ((readCsa s).2).responses = s.responses := by
  simp [readCsa]
@[simp] theorem readCsa_bus (s : State) : ((readCsa s).2).bus = s.bus ++ [.rd .csa ((readCsa s).1.image s.cfg)] := by
  simp [readCsa]
@[simp] theorem readCsa_hookCalls (s : State) : ((readCsa s).2).hookCalls = s.hookCalls := by
  simp [readCsa]
@[simp] theorem readCsa_sched (s : State) : ((readCsa s).2).sched = s.sched := by
  simp [readCsa]
@[simp] theorem readCsa_hookIn (s : State) : ((readCsa s).2).hookIn = s.hookIn := by
  simp [readCsa]

/-! ### readDr -/

@[simp] theorem readDr_cfg (s : State) : ((readDr s).2).cfg = s.cfg := by
  unfold readDr; split <;> simp [*]
@[simp] theorem readDr_rxHead (s : State) : ((readDr s).2).rxHead = s.rxHead := by
  unfold readDr; split <;> simp [*]
@[simp] theorem readDr_rxTail (s : State) : ((readDr s).2).rxTail = s.rxTail := by
  unfold readDr; split <;> simp [*]
@[simp] theorem readDr_txHead (s : State) : ((readDr s).2).txHead = s.txHead := by
  unfold readDr; split <;> simp [*]
@[simp] theorem readDr_txTail (s : State) : ((readDr s).2).txTail = s.txTail := by
  unfold readDr; split <;> simp [*]
@[simp] theorem readDr_rxBuf (s : State) : ((readDr s).2).rxBuf = s.rxBuf := by
  unfold readDr; split <;> simp [*]
@[simp] theorem readDr_txBuf (s : State) : ((readDr s).2).txBuf = s.txBuf := by
  unfold readDr; split <;> simp [*]
@[simp] theorem readDr_written (s : State) : ((readDr s).2).written = s.written := by
  unfold readDr; split <;> simp [*]
@[simp] theorem readDr_hook (s : State) : ((readDr s).2).hook = s.hook := by
  unfold readDr; split <;> simp [*]
@[simp] theorem readDr_line (s : State) : ((readDr s).2).line = s.line := by
  unfold readDr; split <;> simp [*]
@[simp] theorem readDr_fg (s : State) : ((readDr s).2).fg = s.fg := by
  unfold readDr; split <;> simp [*]
@[simp] theorem readDr_gie (s : State) : ((readDr s).2).gie = s.gie := by
  unfold readDr; split <;> simp [*]
@[simp] theorem readDr_brh (s : State) : ((readDr s).2).brh = s.brh := by
  unfold readDr; split <;> simp [*]
@[simp] theorem readDr_brl (s : State) : ((readDr s).2).brl = s.brl := by
  unfold readDr; split <;> simp [*]
@[simp] theorem readDr_csb (s : State) : ((readDr s).2).csb = s.csb := by
  unfold readDr; split <;> simp [*]
@[simp] theorem readDr_csc (s : State) : ((readDr s).2).csc = s.csc := by
  unfold readDr; split <;> simp [*]
@[simp] theorem readDr_txc (s : State) : ((readDr s).2).txc = s.txc := by
  unfold readDr; split <;> simp [*]
@[simp] theorem readDr_u2x (s : State) : ((readDr s).2).u2x = s.u2x := by
  unfold readDr; split <;> simp [*]
@[simp] theorem readDr_mpcm (s : State) : ((readDr s).2).mpcm = s.mpcm := by
  unfold readDr; split <;> simp [*]
@[simp] theorem readDr_rxWait (s : State) : ((readDr s).2).rxWait = none := by
  unfold readDr; split <;> simp [*]
@[simp] theorem readDr_txHold (s : State) : ((readDr s).2).txHold = s.txHold := by
  unfold readDr; split <;> simp [*]
@[simp] theorem readDr_txShift (s : State) : ((readDr s).2).txShift = s.txShift := by
  unfold readDr; split <;> simp [*]
@[simp] theorem readDr_wireOut (s : State) : ((readDr s).2).wireOut = s.wireOut := by
  unfold readDr; split <;> simp [*]
@[simp] theorem readDr_responses (s : State) : ((readDr s).2).responses = s.responses := by
  unfold readDr; split <;> simp [*]
@[simp] theorem readDr_bus (s : State) : ((readDr s).2).bus = s.bus ++ [.rd .dr (readDr s).1] := by
  unfold readDr; split <;> simp [*]
@[simp] theorem readDr_hookCalls (s : State) : ((readDr s).2).hookCalls = s.hookCalls := by
  unfold readDr; split <;> simp [*]
@[simp] theorem readDr_sched (s : State) : ((readDr s).2).sched = s.sched := by
  unfold readDr; split <;> simp [*]
@[simp] theorem readDr_hookIn (s : State) : ((readDr s).2).hookIn = s.hookIn := by
  unfold readDr; split <;> simp [*]

/-! ### callHook -/

@[simp] theorem callHook_cfg (h : Handle) (b v : Byte) (s : State) : ((callHook h b v s).2).cfg = s.cfg := by
  unfold callHook; split <;> rfl
@[simp] theorem callHook_rxHead (h : Handle) (b v : Byte) (s : State) : ((callHook h b v s).2).rxHead = s.rxHead := by
  unfold callHook; split <;> rfl
@[simp] theorem callHook_rxTail (h : Handle) (b v : Byte) (s : State) : ((callHook h b v s).2).rxTail = s.rxTail := by
  unfold callHook; split <;> rfl
@[simp] theorem callHook_txHead (h : Handle) (b v : Byte) (s : State) : ((callHook h b v s).2).txHead = s.txHead := by
  unfold callHook; split <;> rfl
@[simp] theorem callHook_txTail (h : Handle) (b v : Byte) (s : State) : ((callHook h b v s).2).txTail = s.txTail := by
  unfold callHook; split <;> rfl
@[simp] theorem callHook_rxBuf (h : Handle) (b v : Byte) (s : State) : ((callHook h b v s).2).rxBuf = s.rxBuf := by
  unfold callHook; split <;> rfl
@[simp] theorem callHook_txBuf (h : Handle) (b v : Byte) (s : State) : ((callHook h b v s).2).txBuf = s.txBuf := by
  unfold callHook; split <;> rfl
@[simp] theorem callHook_written (h : Handle) (b v : Byte) (s : State) : ((callHook h b v s).2).written = s.written := by
  unfold callHook; split <;> rfl
@[simp] theorem callHook_hook (h : Handle) (b v : Byte) (s : State) : ((callHook h b v s).2).hook = s.hook := by
  unfold callHook; split <;> rfl
@[simp] theorem callHook_line (h : Handle) (b v : Byte) (s : State) : ((callHook h b v s).2).line = s.line := by
  unfold callHook; split <;> rfl
@[simp] theorem callHook_fg (h : Handle) (b v : Byte) (s : State) : ((callHook h b v s).2).fg = s.fg := by
  unfold callHook; split <;> rfl
@[simp] theorem callHook_gie (h : Handle) (b v : Byte) (s : State) : ((callHook h b v s).2).gie = s.gie := by
  unfold callHook; split <;> rfl
@[simp] theorem callHook_brh (h : Handle) (b v : Byte) (s : State) : ((callHook h b v s).2).brh = s.brh := by
  unfold callHook; split <;> rfl
@[simp] theorem callHook_brl (h : Handle) (b v : Byte) (s : State) : ((callHook h b v s).2).brl = s.brl := by
  unfold callHook; split <;> rfl
@[simp] theorem callHook_csb (h : Handle) (b v : Byte) (s : State) : ((callHook h b v s).2).csb = s.csb := by
  unfold callHook; split <;> rfl
@[simp] theorem callHook_csc (h : Handle) (b v : Byte) (s : State) : ((callHook h b v s).2).csc = s.csc := by
  unfold callHook; split <;> rfl
@[simp] theorem callHook_txc (h : Handle) (b v : Byte) (s : State) : ((callHook h b v s).2).txc = s.txc := by
  unfold callHook; split <;> rfl
@[simp] theorem callHook_u2x (h : Handle) (b v : Byte) (s : State) : ((callHook h b v s).2).u2x = s.u2x := by
  unfold callHook; split <;> rfl
@[simp] theorem callHook_mpcm (h : Handle) (b v : Byte) (s : State) : ((callHook h b v s).2).mpcm = s.mpcm := by
  unfold callHook; split <;> rfl
@[simp] theorem callHook_rxWait (h : Handle) (b v : Byte) (s : State) : ((callHook h b v s).2).rxWait = s.rxWait := by
  unfold callHook; split <;> rfl
@[simp] theorem callHook_txHold (h : Handle) (b v : Byte) (s : State) : ((callHook h b v s).2).txHold = s.txHold := by
  unfold callHook; split <;> rfl
@[simp] theorem callHook_txShift (h : Handle) (b v : Byte) (s : State) : ((callHook h b v s).2).txShift = s.txShift := by
  unfold callHook; split <;> rfl
@[simp] theorem callHook_wireOut (h : Handle) (b v : Byte) (s : State) : ((callHook h b v s).2).wireOut = s.wireOut := by
  unfold callHook; split <;> rfl
@[simp] theorem callHook_responses (h : Handle) (b v : Byte) (s : State) : ((callHook h b v s).2).responses = s.responses := by
  unfold callHook; split <;> rfl
@[simp] theorem callHook_bus (h : Handle) (b v : Byte) (s : State) : ((callHook h b v s).2).bus = s.bus := by
  unfold callHook; split <;> rfl
@[simp] theorem callHook_hookCalls (h : Handle) (b v : Byte) (s : State) : ((callHook h b v s).2).hookCalls = s.hookCalls ++ [⟨h, b, v, (callHook h b v s).1⟩] := by
  unfold callHook; split <;> rfl
@[simp] theorem callHook_sched (h : Handle) (b v : Byte) (s : State) : ((callHook h b v s).2).sched = s.sched := by
  unfold callHook; split <;> rfl
@[simp] theorem callHook_drawIn (h : Handle) (b v : Byte) (s : State) : ((callHook h b v s).2).drawIn = s.drawIn := by
  unfold callHook; split <;> rfl
@[simp] theorem callHook_drawCount (h : Handle) (b v : Byte) (s : State) : ((callHook h b v s).2).drawCount = s.drawCount := by
  unfold callHook; split <;> rfl

/-! ### State.resetWith -/

@[simp] theorem resetWith_cfg (p : Params) : (State.resetWith p).cfg = p := rfl
@[simp] theorem resetWith_rxHead (p : Params) : (State.resetWith p).rxHead = 0 := rfl
@[simp] theorem resetWith_rxTail (p : Params) : (State.resetWith p).rxTail = 0 := rfl
@[simp] theorem resetWith_txHead (p : Params) : (State.resetWith p).txHead = 0 := rfl
@[simp] theorem resetWith_txTail (p : Params) : (State.resetWith p).txTail = 0 := rfl
@[simp] theorem resetWith_rxBuf (p : Params) : (State.resetWith p).rxBuf = [] := rfl
@[simp] theorem resetWith_txBuf (p : Params) : (State.resetWith p).txBuf = [] := rfl
@[simp] theorem resetWith_written (p : Params) : (State.resetWith p).written = false := rfl
@[simp] theorem resetWith_hook (p : Params) : (State.resetWith p).hook = none := rfl
@[simp] theorem resetWith_line (p : Params) : (State.resetWith p).line = .uninitialized := rfl
@[simp] theorem resetWith_fg (p : Params) : (State.resetWith p).fg = .idle := rfl
@[simp] theorem resetWith_gie (p : Params) : (State.resetWith p).gie = false := rfl
@[simp] theorem resetWith_brh (p : Params) : (State.resetWith p).brh = 0 := rfl
@[simp] theorem resetWith_brl (p : Params) : (State.resetWith p).brl = 0 := rfl
@[simp] theorem resetWith_csb (p : Params) : (State.resetWith p).csb = 0 := rfl
@[simp] theorem resetWith_csc (p : Params) : (State.resetWith p).csc = 0 := rfl
@[simp] theorem resetWith_txc (p : Params) : (State.resetWith p).txc = false := rfl
@[simp] theorem resetWith_u2x (p : Params) : (State.resetWith p).u2x = false := rfl
@[simp] theorem resetWith_mpcm (p : Params) : (State.resetWith p).mpcm = false := rfl
@[simp] theorem resetWith_rxWait (p : Params) : (State.resetWith p).rxWait = none := rfl
@[simp] theorem resetWith_txHold (p : Params) : (State.resetWith p).txHold = none := rfl
@[simp] theorem resetWith_txShift (p : Params) : (State.resetWith p).txShift = none := rfl
@[simp] theorem resetWith_wireOut (p : Params) : (State.resetWith p).wireOut = [] := rfl
@[simp] theorem resetWith_responses (p : Params) : (State.resetWith p).responses = [] := rfl
@[simp] theorem resetWith_bus (p : Params) : (State.resetWith p).bus = [] := rfl
@[simp] theorem resetWith_hookCalls (p : Params) : (State.resetWith p).hookCalls = [] := rfl
@[simp] theorem resetWith_sched (p : Params) : (State.resetWith p).sched = [] := rfl
@[simp] theorem resetWith_hookIn (p : Params) : (State.resetWith p).hookIn = [] := rfl
@[simp] theorem resetWith_drawIn (p : Params) : (State.resetWith p).drawIn = [] := rfl
@[simp] theorem resetWith_drawCount (p : Params) : (State.resetWith p).drawCount = 0 := rfl

end Sys2Proof.Machine
end

