-- ==== Sys2Proof/Laws/Ops.lean ====
section
/-! SUPPORT. One spec lemma per shared operation: what it answers, and everything it can do. -/

namespace Sys2Proof.Machine

/-! ### Outcomes -/

@[simp] theorem andThen_of_next {α β : Type} (a : α) (f : α → Result β) : andThen (.next a) f = f a := rfl

@[simp] theorem andThen_of_fault {α β : Type} (r : Fault) (f : α → Result β) :
    andThen (.fault r) f = .fault r := rfl

@[simp] theorem andThen_of_refused {α β : Type} (r : Refusal) (f : α → Result β) :
    andThen (.refused r) f = .refused r := rfl

theorem andThen_eq_next {α β : Type} {o : Result α} {f : α → Result β} {b : β} :
    andThen o f = .next b ↔ ∃ a, o = .next a ∧ f a = .next b := by
  cases o <;> simp [andThen]

theorem andThen_eq_fault {α β : Type} {o : Result α} {f : α → Result β} {r : Fault} :
    andThen o f = .fault r ↔ o = .fault r ∨ ∃ a, o = .next a ∧ f a = .fault r := by
  cases o <;> simp [andThen]

/-! ### Reading CSA and DR -/

@[simp] theorem readCsa_rxc (s : State) : (readCsa s).1.rxc = s.rxWait.isSome := rfl
@[simp] theorem readCsa_flagTxc (s : State) : (readCsa s).1.txc = s.txc := rfl
@[simp] theorem readCsa_udre (s : State) : (readCsa s).1.udre = s.txHold.isNone := rfl
@[simp] theorem readCsa_upe (s : State) : (readCsa s).1.upe = upeOf s.rxWait := rfl
@[simp] theorem readCsa_flagU2x (s : State) : (readCsa s).1.u2x = s.u2x := rfl
@[simp] theorem readCsa_flagMpcm (s : State) : (readCsa s).1.mpcm = s.mpcm := rfl

/-- A read of CSA changes the bus trace and the supply of free bytes alone (R57). -/
theorem readCsa_state (s : State) :
    (readCsa s).2 = { s with
      bus := s.bus ++ [.rd .csa ((readCsa s).1.image s.cfg)]
      drawIn := (readCsa s).2.drawIn
      drawCount := (readCsa s).2.drawCount } := by
  unfold readCsa drawByte
  cases s.drawIn <;> rfl

theorem readDr_of_some {s : State} {w : RxByte} (h : s.rxWait = some w) :
    readDr s = (w.byte, logAccess (.rd .dr w.byte) { s with rxWait := none }) := by
  simp [readDr, h]

theorem writeDr_of_none {s : State} (v : Byte) (h : s.txHold = none) :
    writeDr v s = .next (logAccess (.wr .dr v) { s with txHold := some v }) := by
  simp [writeDr, h]

theorem writeDr_of_some {s : State} {c : Byte} (v : Byte) (h : s.txHold = some c) :
    writeDr v s = .fault .dataRegisterHeld := by
  simp [writeDr, h]

/-! ### The atomic read-modify-writes of CSB (R62) -/

/-- The state after an update of CSB by one read and one write. -/
def csbUpdated (v : Byte) (s : State) : State :=
  { s with csb := v, bus := s.bus ++ [.rd .csb s.csb, .wr .csb v] }

theorem regSetBits_csb (m : Byte) (s : State) :
    regSetBits .csb m s = .next (csbUpdated (s.csb ||| m) s) := by
  simp [regSetBits, regRead, regWrite, logAccess, csbUpdated]

theorem regClearBits_csb (m : Byte) (s : State) :
    regClearBits .csb m s = .next (csbUpdated (s.csb &&& ~~~m) s) := by
  simp [regClearBits, regRead, regWrite, logAccess, csbUpdated]

/-! ### Storage accesses by ring space -/

theorem memRead_rxb {s : State} {a : Nat} (h : a < s.cfg.cRx) :
    memRead .rxb a s = .next (cellValue .rxb s.rxBuf a, s) := by simp [memRead, h]

theorem memRead_txb {s : State} {a : Nat} (h : a < s.cfg.cTx) :
    memRead .txb a s = .next (cellValue .txb s.txBuf a, s) := by simp [memRead, h]

theorem memWrite_rxb {s : State} {a : Nat} (v : Byte) (h : a < s.cfg.cRx) :
    memWrite .rxb a v s = .next { s with rxBuf := s.rxBuf.write a v } := by simp [memWrite, h]

theorem memWrite_txb {s : State} {a : Nat} (v : Byte) (h : a < s.cfg.cTx) :
    memWrite .txb a v s = .next { s with txBuf := s.txBuf.write a v } := by simp [memWrite, h]

/-- Everything a read of RXB can answer. -/
theorem memRead_rxb_next {s : State} {a : Nat} {r : Byte × State} (h : memRead .rxb a s = .next r) :
    a < s.cfg.cRx ∧ r = (cellValue .rxb s.rxBuf a, s) := by
  by_cases ha : a < s.cfg.cRx <;> simp [memRead, ha] at h
  exact ⟨ha, h.symm⟩

/-- Everything a read of TXB can answer. -/
theorem memRead_txb_next {s : State} {a : Nat} {r : Byte × State} (h : memRead .txb a s = .next r) :
    a < s.cfg.cTx ∧ r = (cellValue .txb s.txBuf a, s) := by
  by_cases ha : a < s.cfg.cTx <;> simp [memRead, ha] at h
  exact ⟨ha, h.symm⟩

/-- Everything a write of RXB can answer. -/
theorem memWrite_rxb_next {s t : State} {a : Nat} {v : Byte} (h : memWrite .rxb a v s = .next t) :
    a < s.cfg.cRx ∧ t = { s with rxBuf := s.rxBuf.write a v } := by
  by_cases ha : a < s.cfg.cRx <;> simp [memWrite, ha] at h
  exact ⟨ha, h.symm⟩

/-- Everything a write of TXB can answer. -/
theorem memWrite_txb_next {s t : State} {a : Nat} {v : Byte} (h : memWrite .txb a v s = .next t) :
    a < s.cfg.cTx ∧ t = { s with txBuf := s.txBuf.write a v } := by
  by_cases ha : a < s.cfg.cTx <;> simp [memWrite, ha] at h
  exact ⟨ha, h.symm⟩

/-- Presenting a command changes `fg` alone, where it is admitted. -/
theorem present_next {i : Instr} {l : Fg} {s t : State} (h : present i l s = .next t) :
    admitted i s.line = true ∧ t = goTo l s := by
  by_cases ha : admitted i s.line = true <;> simp [present, ha] at h
  exact ⟨ha, h.symm⟩

@[simp] theorem refuseBusy_ne_next {t : State} : (refuseBusy = .next t) = False := by
  simp [refuseBusy]

@[simp] theorem refuseBusy_ne_fault {r : Fault} : (refuseBusy = .fault r) = False := by
  simp [refuseBusy]

end Sys2Proof.Machine
end

