-- ==== Sys2Proof/Laws/Ring.lean ====
section
/-! SUPPORT. The arithmetic of ring indices (R105) and the spec lemmas of the five ring primitives (R100 to
R104). -/

namespace Sys2Proof.Machine

/-! ### Index arithmetic -/

theorem nextIndex_lt {c i : Nat} (h : 0 < c) : nextIndex c i < c := Nat.mod_lt _ h

/-- The two values of `(i + 1) mod C` (R105). -/
theorem nextIndex_eq {c i : Nat} (h : i < c) : nextIndex c i = if i + 1 = c then 0 else i + 1 := by
  unfold nextIndex
  split
  · rename_i e; simp [e]
  · exact Nat.mod_eq_of_lt (by omega)

/-- The two values of `(h - t) mod C` (R105). -/
theorem ringCount_eq {c h t : Nat} (hh : h < c) (ht : t < c) :
    ringCount c h t = if t ≤ h then h - t else c + h - t := by
  unfold ringCount
  split
  · have : c + h - t = (h - t) + c := by omega
    rw [this, Nat.add_mod_right, Nat.mod_eq_of_lt (by omega)]
  · exact Nat.mod_eq_of_lt (by omega)

theorem ringCount_lt {c h t : Nat} (hc : 0 < c) : ringCount c h t < c := Nat.mod_lt _ hc

@[simp] theorem ringCount_self (c h : Nat) : ringCount c h h = 0 := by simp [ringCount]

theorem ringCount_eq_zero {c h t : Nat} (hh : h < c) (ht : t < c) : ringCount c h t = 0 ↔ h = t := by
  rw [ringCount_eq hh ht]; split <;> omega

/-- A ring is full exactly when one more push would make the indices equal (R37d). -/
theorem ringCount_full {c h t : Nat} (hh : h < c) (ht : t < c) :
    ringCount c h t = c - 1 ↔ nextIndex c h = t := by
  rw [ringCount_eq hh ht, nextIndex_eq hh]; split <;> split <;> omega

/-- Advancing the head of a ring that is not full adds one byte. -/
theorem ringCount_push {c h t : Nat} (hh : h < c) (ht : t < c) (hn : nextIndex c h ≠ t) :
    ringCount c (nextIndex c h) t = ringCount c h t + 1 := by
  have h1 : nextIndex c h < c := nextIndex_lt (by omega)
  have e := nextIndex_eq hh
  rw [ringCount_eq h1 ht, ringCount_eq hh ht]
  generalize nextIndex c h = n at *
  split at e <;> split <;> split <;> omega

/-- Advancing the tail of a ring that is not empty takes one byte. -/
theorem ringCount_pop {c h t : Nat} (hh : h < c) (ht : t < c) (hn : h ≠ t) :
    ringCount c h (nextIndex c t) + 1 = ringCount c h t := by
  have h1 : nextIndex c t < c := nextIndex_lt (by omega)
  rw [ringCount_eq hh h1, ringCount_eq hh ht, nextIndex_eq ht]
  split <;> split <;> split <;> omega

/-! ### Accessors -/

@[simp] theorem ringHead_setRingHead (q : Ring) (n : Nat) (s : State) : ringHead q (setRingHead q n s) = n := by
  cases q <;> rfl
@[simp] theorem ringTail_setRingHead (q : Ring) (n : Nat) (s : State) :
    ringTail q (setRingHead q n s) = ringTail q s := by cases q <;> rfl
@[simp] theorem ringCap_setRingHead (q r : Ring) (n : Nat) (s : State) :
    ringCap r (setRingHead q n s) = ringCap r s := by cases q <;> cases r <;> rfl
@[simp] theorem ringBuf_setRingHead (q r : Ring) (n : Nat) (s : State) :
    ringBuf r (setRingHead q n s) = ringBuf r s := by cases q <;> cases r <;> rfl
@[simp] theorem ringTail_setRingTail (q : Ring) (n : Nat) (s : State) : ringTail q (setRingTail q n s) = n := by
  cases q <;> rfl
@[simp] theorem ringHead_setRingTail (q : Ring) (n : Nat) (s : State) :
    ringHead q (setRingTail q n s) = ringHead q s := by cases q <;> rfl
@[simp] theorem ringCap_setRingTail (q r : Ring) (n : Nat) (s : State) :
    ringCap r (setRingTail q n s) = ringCap r s := by cases q <;> cases r <;> rfl
@[simp] theorem ringBuf_setRingTail (q r : Ring) (n : Nat) (s : State) :
    ringBuf r (setRingTail q n s) = ringBuf r s := by cases q <;> cases r <;> rfl

/-! ### The primitives -/

/-- A store into a cell of a ring's space. -/
def setRingBuf (q : Ring) (m : Memory) (s : State) : State :=
  match q with
  | .rx => { s with rxBuf := m }
  | .tx => { s with txBuf := m }

@[simp] theorem ringHead_setRingBuf (q : Ring) (m : Memory) (s : State) :
    ringHead q (setRingBuf q m s) = ringHead q s := by cases q <;> rfl
@[simp] theorem ringTail_setRingBuf (q : Ring) (m : Memory) (s : State) :
    ringTail q (setRingBuf q m s) = ringTail q s := by cases q <;> rfl
@[simp] theorem ringCap_setRingBuf (q r : Ring) (m : Memory) (s : State) :
    ringCap r (setRingBuf q m s) = ringCap r s := by cases q <;> cases r <;> rfl
@[simp] theorem ringBuf_setRingBuf (q : Ring) (m : Memory) (s : State) :
    ringBuf q (setRingBuf q m s) = m := by cases q <;> rfl

theorem memRead_ring {q : Ring} {a : Nat} {s : State} (h : a < ringCap q s) :
    memRead (ringSpace q) a s = .next (cellValue (ringSpace q) (ringBuf q s) a, s) := by
  cases q
  · exact memRead_rxb h
  · exact memRead_txb h

theorem memWrite_ring {q : Ring} {a : Nat} {s : State} (v : Byte) (h : a < ringCap q s) :
    memWrite (ringSpace q) a v s = .next (setRingBuf q ((ringBuf q s).write a v) s) := by
  cases q
  · exact memWrite_rxb v h
  · exact memWrite_txb v h

theorem memWrite_ring_out {q : Ring} {a : Nat} {s : State} (v : Byte) (h : ¬ a < ringCap q s) :
    memWrite (ringSpace q) a v s = .fault .addressOutOfRange := by
  cases q <;> exact if_neg h

/-- A push on a full ring (R100, R107). -/
theorem tryPush_full {q : Ring} {s : State} (b : Byte)
    (h : nextIndex (ringCap q s) (ringHead q s) = ringTail q s) : tryPush q b s = .next (false, s) := by
  simp [tryPush, h]

/-- A push on a ring that is not full (R100). -/
theorem tryPush_room {q : Ring} {s : State} (b : Byte) (hh : ringHead q s < ringCap q s)
    (h : nextIndex (ringCap q s) (ringHead q s) ≠ ringTail q s) :
    tryPush q b s = .next (true, setRingHead q (nextIndex (ringCap q s) (ringHead q s))
      (setRingBuf q ((ringBuf q s).write (ringHead q s) b) s)) := by
  simp [tryPush, h, memWrite_ring b hh]

/-- A pop of an empty ring (R101). -/
theorem tryPop_empty {q : Ring} {s : State} (h : ringHead q s = ringTail q s) :
    tryPop q s = .next (none, s) := by simp [tryPop, h]

/-- A pop of a ring that is not empty (R101). -/
theorem tryPop_some {q : Ring} {s : State} (ht : ringTail q s < ringCap q s)
    (h : ringHead q s ≠ ringTail q s) :
    tryPop q s = .next (some (cellValue (ringSpace q) (ringBuf q s) (ringTail q s)),
      setRingTail q (nextIndex (ringCap q s) (ringTail q s)) s) := by
  simp [tryPop, h, memRead_ring ht]

/-- Everything a push can answer: nothing on a full ring, else the byte stored and the head advanced. -/
theorem tryPush_next {q : Ring} {b : Byte} {s : State} {r : Bool × State} (h : tryPush q b s = .next r) :
    (nextIndex (ringCap q s) (ringHead q s) = ringTail q s ∧ r = (false, s)) ∨
    (nextIndex (ringCap q s) (ringHead q s) ≠ ringTail q s ∧ ringHead q s < ringCap q s ∧
      r = (true, setRingHead q (nextIndex (ringCap q s) (ringHead q s))
        (setRingBuf q ((ringBuf q s).write (ringHead q s) b) s))) := by
  by_cases hf : nextIndex (ringCap q s) (ringHead q s) = ringTail q s
  · rw [tryPush_full b hf] at h
    exact .inl ⟨hf, by simpa using h.symm⟩
  · refine .inr ⟨hf, ?_⟩
    by_cases hh : ringHead q s < ringCap q s
    · rw [tryPush_room b hh hf] at h
      exact ⟨hh, by simpa using h.symm⟩
    · simp [tryPush, hf, memWrite_ring_out b hh] at h

end Sys2Proof.Machine
end

