-- ==== Sys2Proof/Laws/Handlers.lean ====
section
/-! SUPPORT. The spec lemmas of the two handler bodies (R150 to R158): what each answers, as an explicit next
state, and what it leaves of each field. -/

namespace Sys2Proof.Machine

/-! ### csbUpdated -/

@[simp] theorem csbUpdated_cfg (v : Byte) (s : State) : (csbUpdated v s).cfg = s.cfg := rfl
@[simp] theorem csbUpdated_rxHead (v : Byte) (s : State) : (csbUpdated v s).rxHead = s.rxHead := rfl
@[simp] theorem csbUpdated_rxTail (v : Byte) (s : State) : (csbUpdated v s).rxTail = s.rxTail := rfl
@[simp] theorem csbUpdated_txHead (v : Byte) (s : State) : (csbUpdated v s).txHead = s.txHead := rfl
@[simp] theorem csbUpdated_txTail (v : Byte) (s : State) : (csbUpdated v s).txTail = s.txTail := rfl
@[simp] theorem csbUpdated_rxBuf (v : Byte) (s : State) : (csbUpdated v s).rxBuf = s.rxBuf := rfl
@[simp] theorem csbUpdated_txBuf (v : Byte) (s : State) : (csbUpdated v s).txBuf = s.txBuf := rfl
@[simp] theorem csbUpdated_written (v : Byte) (s : State) : (csbUpdated v s).written = s.written := rfl
@[simp] theorem csbUpdated_hook (v : Byte) (s : State) : (csbUpdated v s).hook = s.hook := rfl
@[simp] theorem csbUpdated_line (v : Byte) (s : State) : (csbUpdated v s).line = s.line := rfl
@[simp] theorem csbUpdated_fg (v : Byte) (s : State) : (csbUpdated v s).fg = s.fg := rfl
@[simp] theorem csbUpdated_gie (v : Byte) (s : State) : (csbUpdated v s).gie = s.gie := rfl
@[simp] theorem csbUpdated_brh (v : Byte) (s : State) : (csbUpdated v s).brh = s.brh := rfl
@[simp] theorem csbUpdated_brl (v : Byte) (s : State) : (csbUpdated v s).brl = s.brl := rfl
@[simp] theorem csbUpdated_csb (v : Byte) (s : State) : (csbUpdated v s).csb = v := rfl
@[simp] theorem csbUpdated_csc (v : Byte) (s : State) : (csbUpdated v s).csc = s.csc := rfl
@[simp] theorem csbUpdated_txc (v : Byte) (s : State) : (csbUpdated v s).txc = s.txc := rfl
@[simp] theorem csbUpdated_u2x (v : Byte) (s : State) : (csbUpdated v s).u2x = s.u2x := rfl
@[simp] theorem csbUpdated_mpcm (v : Byte) (s : State) : (csbUpdated v s).mpcm = s.mpcm := rfl
@[simp] theorem csbUpdated_rxWait (v : Byte) (s : State) : (csbUpdated v s).rxWait = s.rxWait := rfl
@[simp] theorem csbUpdated_txHold (v : Byte) (s : State) : (csbUpdated v s).txHold = s.txHold := rfl
@[simp] theorem csbUpdated_txShift (v : Byte) (s : State) : (csbUpdated v s).txShift = s.txShift := rfl
@[simp] theorem csbUpdated_wireOut (v : Byte) (s : State) : (csbUpdated v s).wireOut = s.wireOut := rfl
@[simp] theorem csbUpdated_responses (v : Byte) (s : State) : (csbUpdated v s).responses = s.responses := rfl
@[simp] theorem csbUpdated_bus (v : Byte) (s : State) : (csbUpdated v s).bus = s.bus ++ [.rd .csb s.csb, .wr .csb v] := rfl
@[simp] theorem csbUpdated_hookCalls (v : Byte) (s : State) : (csbUpdated v s).hookCalls = s.hookCalls := rfl
@[simp] theorem csbUpdated_sched (v : Byte) (s : State) : (csbUpdated v s).sched = s.sched := rfl
@[simp] theorem csbUpdated_hookIn (v : Byte) (s : State) : (csbUpdated v s).hookIn = s.hookIn := rfl
@[simp] theorem csbUpdated_drawIn (v : Byte) (s : State) : (csbUpdated v s).drawIn = s.drawIn := rfl
@[simp] theorem csbUpdated_drawCount (v : Byte) (s : State) : (csbUpdated v s).drawCount = s.drawCount := rfl

/-! ### The transmit-empty body -/

/-- The state after the popped byte has been handed to the unit (R155). -/
def handedOver (c : Byte) (s : State) : State :=
  logAccess (.wr .dr c) { s with txTail := nextIndex s.cfg.cTx s.txTail, txHold := some c }

/-- The state after CSA has been read and written back with TXC set (R155, R156). -/
def txcCleared (s : State) : State := writeCsa (clearTxcValue s.cfg (readCsa s).1) (readCsa s).2

/-- The state after the rest of the body (R155). -/
def txBodyEnd (s : State) : State :=
  if s.txHead = s.txTail then csbUpdated (s.csb &&& ~~~bitMask s.cfg.pUdrie) (txcCleared s) else txcCleared s

/-! ### handedOver -/

@[simp] theorem handedOver_cfg (c : Byte) (s : State) : (handedOver c s).cfg = s.cfg := rfl
@[simp] theorem handedOver_rxHead (c : Byte) (s : State) : (handedOver c s).rxHead = s.rxHead := rfl
@[simp] theorem handedOver_rxTail (c : Byte) (s : State) : (handedOver c s).rxTail = s.rxTail := rfl
@[simp] theorem handedOver_txHead (c : Byte) (s : State) : (handedOver c s).txHead = s.txHead := rfl
@[simp] theorem handedOver_txTail (c : Byte) (s : State) : (handedOver c s).txTail = nextIndex s.cfg.cTx s.txTail := rfl
@[simp] theorem handedOver_rxBuf (c : Byte) (s : State) : (handedOver c s).rxBuf = s.rxBuf := rfl
@[simp] theorem handedOver_txBuf (c : Byte) (s : State) : (handedOver c s).txBuf = s.txBuf := rfl
@[simp] theorem handedOver_written (c : Byte) (s : State) : (handedOver c s).written = s.written := rfl
@[simp] theorem handedOver_hook (c : Byte) (s : State) : (handedOver c s).hook = s.hook := rfl
@[simp] theorem handedOver_line (c : Byte) (s : State) : (handedOver c s).line = s.line := rfl
@[simp] theorem handedOver_fg (c : Byte) (s : State) : (handedOver c s).fg = s.fg := rfl
@[simp] theorem handedOver_gie (c : Byte) (s : State) : (handedOver c s).gie = s.gie := rfl
@[simp] theorem handedOver_brh (c : Byte) (s : State) : (handedOver c s).brh = s.brh := rfl
@[simp] theorem handedOver_brl (c : Byte) (s : State) : (handedOver c s).brl = s.brl := rfl
@[simp] theorem handedOver_csb (c : Byte) (s : State) : (handedOver c s).csb = s.csb := rfl
@[simp] theorem handedOver_csc (c : Byte) (s : State) : (handedOver c s).csc = s.csc := rfl
@[simp] theorem handedOver_txc (c : Byte) (s : State) : (handedOver c s).txc = s.txc := rfl
@[simp] theorem handedOver_u2x (c : Byte) (s : State) : (handedOver c s).u2x = s.u2x := rfl
@[simp] theorem handedOver_mpcm (c : Byte) (s : State) : (handedOver c s).mpcm = s.mpcm := rfl
@[simp] theorem handedOver_rxWait (c : Byte) (s : State) : (handedOver c s).rxWait = s.rxWait := rfl
@[simp] theorem handedOver_txHold (c : Byte) (s : State) : (handedOver c s).txHold = some c := rfl
@[simp] theorem handedOver_txShift (c : Byte) (s : State) : (handedOver c s).txShift = s.txShift := rfl
@[simp] theorem handedOver_wireOut (c : Byte) (s : State) : (handedOver c s).wireOut = s.wireOut := rfl
@[simp] theorem handedOver_responses (c : Byte) (s : State) : (handedOver c s).responses = s.responses := rfl
@[simp] theorem handedOver_bus (c : Byte) (s : State) : (handedOver c s).bus = s.bus ++ [.wr .dr c] := rfl
@[simp] theorem handedOver_hookCalls (c : Byte) (s : State) : (handedOver c s).hookCalls = s.hookCalls := rfl
@[simp] theorem handedOver_sched (c : Byte) (s : State) : (handedOver c s).sched = s.sched := rfl
@[simp] theorem handedOver_hookIn (c : Byte) (s : State) : (handedOver c s).hookIn = s.hookIn := rfl
@[simp] theorem handedOver_drawIn (c : Byte) (s : State) : (handedOver c s).drawIn = s.drawIn := rfl
@[simp] theorem handedOver_drawCount (c : Byte) (s : State) : (handedOver c s).drawCount = s.drawCount := rfl

/-! ### txcCleared -/

@[simp] theorem txcCleared_cfg (s : State) : (txcCleared s).cfg = s.cfg := by
  simp [txcCleared, clearTxcValue]
@[simp] theorem txcCleared_rxHead (s : State) : (txcCleared s).rxHead = s.rxHead := by
  simp [txcCleared, clearTxcValue]
@[simp] theorem txcCleared_rxTail (s : State) : (txcCleared s).rxTail = s.rxTail := by
  simp [txcCleared, clearTxcValue]
@[simp] theorem txcCleared_txHead (s : State) : (txcCleared s).txHead = s.txHead := by
  simp [txcCleared, clearTxcValue]
@[simp] theorem txcCleared_txTail (s : State) : (txcCleared s).txTail = s.txTail := by
  simp [txcCleared, clearTxcValue]
@[simp] theorem txcCleared_rxBuf (s : State) : (txcCleared s).rxBuf = s.rxBuf := by
  simp [txcCleared, clearTxcValue]
@[simp] theorem txcCleared_txBuf (s : State) : (txcCleared s).txBuf = s.txBuf := by
  simp [txcCleared, clearTxcValue]
@[simp] theorem txcCleared_written (s : State) : (txcCleared s).written = s.written := by
  simp [txcCleared, clearTxcValue]
@[simp] theorem txcCleared_hook (s : State) : (txcCleared s).hook = s.hook := by
  simp [txcCleared, clearTxcValue]
@[simp] theorem txcCleared_line (s : State) : (txcCleared s).line = s.line := by
  simp [txcCleared, clearTxcValue]
@[simp] theorem txcCleared_fg (s : State) : (txcCleared s).fg = s.fg := by
  simp [txcCleared, clearTxcValue]
@[simp] theorem txcCleared_gie (s : State) : (txcCleared s).gie = s.gie := by
  simp [txcCleared, clearTxcValue]
@[simp] theorem txcCleared_brh (s : State) : (txcCleared s).brh = s.brh := by
  simp [txcCleared, clearTxcValue]
@[simp] theorem txcCleared_brl (s : State) : (txcCleared s).brl = s.brl := by
  simp [txcCleared, clearTxcValue]
@[simp] theorem txcCleared_csb (s : State) : (txcCleared s).csb = s.csb := by
  simp [txcCleared, clearTxcValue]
@[simp] theorem txcCleared_csc (s : State) : (txcCleared s).csc = s.csc := by
  simp [txcCleared, clearTxcValue]
@[simp] theorem txcCleared_txc (s : State) : (txcCleared s).txc = false := by
  simp [txcCleared, clearTxcValue]
@[simp] theorem txcCleared_u2x (s : State) : (txcCleared s).u2x = s.u2x := by
  simp [txcCleared, clearTxcValue]
@[simp] theorem txcCleared_rxWait (s : State) : (txcCleared s).rxWait = s.rxWait := by
  simp [txcCleared, clearTxcValue]
@[simp] theorem txcCleared_txHold (s : State) : (txcCleared s).txHold = s.txHold := by
  simp [txcCleared, clearTxcValue]
@[simp] theorem txcCleared_txShift (s : State) : (txcCleared s).txShift = s.txShift := by
  simp [txcCleared, clearTxcValue]
@[simp] theorem txcCleared_wireOut (s : State) : (txcCleared s).wireOut = s.wireOut := by
  simp [txcCleared, clearTxcValue]
@[simp] theorem txcCleared_responses (s : State) : (txcCleared s).responses = s.responses := by
  simp [txcCleared, clearTxcValue]
@[simp] theorem txcCleared_bus (s : State) : (txcCleared s).bus = s.bus ++ [.rd .csa ((readCsa s).1.image s.cfg), .wr .csa ((clearTxcValue s.cfg (readCsa s).1).image s.cfg)] := by
  simp [txcCleared, clearTxcValue]
@[simp] theorem txcCleared_hookCalls (s : State) : (txcCleared s).hookCalls = s.hookCalls := by
  simp [txcCleared, clearTxcValue]
@[simp] theorem txcCleared_sched (s : State) : (txcCleared s).sched = s.sched := by
  simp [txcCleared, clearTxcValue]
@[simp] theorem txcCleared_hookIn (s : State) : (txcCleared s).hookIn = s.hookIn := by
  simp [txcCleared, clearTxcValue]

@[simp] theorem txcCleared_mpcm (s : State) : (txcCleared s).mpcm = s.mpcm := by
  cases h : s.cfg.hasMpcm <;> simp [txcCleared, clearTxcValue, h]

/-! ### txBodyEnd -/

@[simp] theorem txBodyEnd_cfg (s : State) : (txBodyEnd s).cfg = s.cfg := by
  unfold txBodyEnd; split <;> simp
@[simp] theorem txBodyEnd_rxHead (s : State) : (txBodyEnd s).rxHead = s.rxHead := by
  unfold txBodyEnd; split <;> simp
@[simp] theorem txBodyEnd_rxTail (s : State) : (txBodyEnd s).rxTail = s.rxTail := by
  unfold txBodyEnd; split <;> simp
@[simp] theorem txBodyEnd_txHead (s : State) : (txBodyEnd s).txHead = s.txHead := by
  unfold txBodyEnd; split <;> simp
@[simp] theorem txBodyEnd_txTail (s : State) : (txBodyEnd s).txTail = s.txTail := by
  unfold txBodyEnd; split <;> simp
@[simp] theorem txBodyEnd_rxBuf (s : State) : (txBodyEnd s).rxBuf = s.rxBuf := by
  unfold txBodyEnd; split <;> simp
@[simp] theorem txBodyEnd_txBuf (s : State) : (txBodyEnd s).txBuf = s.txBuf := by
  unfold txBodyEnd; split <;> simp
@[simp] theorem txBodyEnd_written (s : State) : (txBodyEnd s).written = s.written := by
  unfold txBodyEnd; split <;> simp
@[simp] theorem txBodyEnd_hook (s : State) : (txBodyEnd s).hook = s.hook := by
  unfold txBodyEnd; split <;> simp
@[simp] theorem txBodyEnd_line (s : State) : (txBodyEnd s).line = s.line := by
  unfold txBodyEnd; split <;> simp
@[simp] theorem txBodyEnd_fg (s : State) : (txBodyEnd s).fg = s.fg := by
  unfold txBodyEnd; split <;> simp
@[simp] theorem txBodyEnd_gie (s : State) : (txBodyEnd s).gie = s.gie := by
  unfold txBodyEnd; split <;> simp
@[simp] theorem txBodyEnd_brh (s : State) : (txBodyEnd s).brh = s.brh := by
  unfold txBodyEnd; split <;> simp
@[simp] theorem txBodyEnd_brl (s : State) : (txBodyEnd s).brl = s.brl := by
  unfold txBodyEnd; split <;> simp
@[simp] theorem txBodyEnd_csb (s : State) : (txBodyEnd s).csb = (if s.txHead = s.txTail then s.csb &&& ~~~bitMask s.cfg.pUdrie else s.csb) := by
  unfold txBodyEnd; split <;> simp
@[simp] theorem txBodyEnd_csc (s : State) : (txBodyEnd s).csc = s.csc := by
  unfold txBodyEnd; split <;> simp
@[simp] theorem txBodyEnd_txc (s : State) : (txBodyEnd s).txc = false := by
  unfold txBodyEnd; split <;> simp
@[simp] theorem txBodyEnd_u2x (s : State) : (txBodyEnd s).u2x = s.u2x := by
  unfold txBodyEnd; split <;> simp
@[simp] theorem txBodyEnd_mpcm (s : State) : (txBodyEnd s).mpcm = s.mpcm := by
  unfold txBodyEnd; split <;> simp
@[simp] theorem txBodyEnd_rxWait (s : State) : (txBodyEnd s).rxWait = s.rxWait := by
  unfold txBodyEnd; split <;> simp
@[simp] theorem txBodyEnd_txHold (s : State) : (txBodyEnd s).txHold = s.txHold := by
  unfold txBodyEnd; split <;> simp
@[simp] theorem txBodyEnd_txShift (s : State) : (txBodyEnd s).txShift = s.txShift := by
  unfold txBodyEnd; split <;> simp
@[simp] theorem txBodyEnd_wireOut (s : State) : (txBodyEnd s).wireOut = s.wireOut := by
  unfold txBodyEnd; split <;> simp
@[simp] theorem txBodyEnd_responses (s : State) : (txBodyEnd s).responses = s.responses := by
  unfold txBodyEnd; split <;> simp
@[simp] theorem txBodyEnd_hookCalls (s : State) : (txBodyEnd s).hookCalls = s.hookCalls := by
  unfold txBodyEnd; split <;> simp
@[simp] theorem txBodyEnd_sched (s : State) : (txBodyEnd s).sched = s.sched := by
  unfold txBodyEnd; split <;> simp
@[simp] theorem txBodyEnd_hookIn (s : State) : (txBodyEnd s).hookIn = s.hookIn := by
  unfold txBodyEnd; split <;> simp

theorem txBodyTail_eq (s : State) : txBodyTail s = .next (txBodyEnd s) := by
  unfold txBodyTail txBodyEnd
  simp only [writeCsa_txHead, writeCsa_txTail, readCsa_txHead, readCsa_txTail, writeCsa_cfg, readCsa_cfg]
  split
  · rw [regClearBits_csb]; simp [txcCleared]
  · rfl

/-- Where the body completes, and to what (R155). -/
theorem txEmptyBody_eq {s : State} (hne : s.txHead ≠ s.txTail) (ht : s.txTail < s.cfg.cTx)
    (hh : s.txHold = none) :
    txEmptyBody s = .next (txBodyEnd (handedOver (cellValue .txb s.txBuf s.txTail) s)) := by
  rw [txEmptyBody, if_neg hne, memRead_txb ht, andThen_of_next]
  rw [writeDr_of_none _ (by exact hh), andThen_of_next, txBodyTail_eq]
  rfl

/-- Everything the body can answer with (R155, R157, R41). -/
theorem txEmptyBody_next {s t : State} (h : txEmptyBody s = .next t) :
    s.txHead ≠ s.txTail ∧ s.txTail < s.cfg.cTx ∧ s.txHold = none ∧
      t = txBodyEnd (handedOver (cellValue .txb s.txBuf s.txTail) s) := by
  by_cases hne : s.txHead = s.txTail
  · simp [txEmptyBody, hne] at h
  by_cases ht : s.txTail < s.cfg.cTx
  · cases hh : s.txHold with
    | none =>
      rw [txEmptyBody_eq hne ht hh] at h
      exact ⟨hne, ht, rfl, by simpa using h.symm⟩
    | some c => simp [txEmptyBody, hne, memRead_txb ht, writeDr, hh] at h
  · simp [txEmptyBody, hne, memRead, ht] at h

/-- The fallback while DR is free: the transmit-empty body after one read of CSA (R140, R144). -/
theorem pollAndPump_of_none {s : State} (h : s.txHold = none) :
    pollAndPump s = txEmptyBody (readCsa s).2 := by
  simp [pollAndPump, h]

/-- The fallback while DR is held: one read of CSA and nothing else (R140, R144). -/
theorem pollAndPump_of_some {s : State} {c : Byte} (h : s.txHold = some c) :
    pollAndPump s = .next (readCsa s).2 := by
  simp [pollAndPump, h]

/-- Everything the masked-interrupt fallback can answer with (R140 step W2, R144 step F4). -/
theorem pollAndPump_next {s t : State} (h : pollAndPump s = .next t) :
    (s.txHold ≠ none ∧ t = (readCsa s).2) ∨ (s.txHold = none ∧ txEmptyBody (readCsa s).2 = .next t) := by
  unfold pollAndPump at h
  simp only [readCsa_udre] at h
  cases hh : s.txHold with
  | none => exact .inr ⟨rfl, by simpa [hh] using h⟩
  | some c => exact .inl ⟨by simp, by simpa [hh] using h.symm⟩

/-! ### The receive-complete body -/

/-- The status the body reads (R151). -/
def rxStatus (s : State) : Byte := (readCsa s).1.image s.cfg

/-- The byte the body reads (R151). -/
def rxData (s : State) : Byte := (readDr (readCsa s).2).1

/-- The state after both reads (R151). -/
def rxTaken (s : State) : State := (readDr (readCsa s).2).2

/-- Whether the byte is offered to the ring: the hook's answer, or no parity error (R151). -/
def rxKeeps (s : State) : Bool :=
  match s.hook with
  | some h => (callHook h (rxData s) (rxStatus s) (rxTaken s)).1
  | none => !upeOf s.rxWait

/-- The state after the decision, before the push (R151). -/
def rxDecided (s : State) : State :=
  match s.hook with
  | some h => (callHook h (rxData s) (rxStatus s) (rxTaken s)).2
  | none => rxTaken s

/-! ### rxTaken -/

@[simp] theorem rxTaken_cfg (s : State) : (rxTaken s).cfg = s.cfg := by
  simp [rxTaken]
@[simp] theorem rxTaken_rxHead (s : State) : (rxTaken s).rxHead = s.rxHead := by
  simp [rxTaken]
@[simp] theorem rxTaken_rxTail (s : State) : (rxTaken s).rxTail = s.rxTail := by
  simp [rxTaken]
@[simp] theorem rxTaken_txHead (s : State) : (rxTaken s).txHead = s.txHead := by
  simp [rxTaken]
@[simp] theorem rxTaken_txTail (s : State) : (rxTaken s).txTail = s.txTail := by
  simp [rxTaken]
@[simp] theorem rxTaken_rxBuf (s : State) : (rxTaken s).rxBuf = s.rxBuf := by
  simp [rxTaken]
@[simp] theorem rxTaken_txBuf (s : State) : (rxTaken s).txBuf = s.txBuf := by
  simp [rxTaken]
@[simp] theorem rxTaken_written (s : State) : (rxTaken s).written = s.written := by
  simp [rxTaken]
@[simp] theorem rxTaken_hook (s : State) : (rxTaken s).hook = s.hook := by
  simp [rxTaken]
@[simp] theorem rxTaken_line (s : State) : (rxTaken s).line = s.line := by
  simp [rxTaken]
@[simp] theorem rxTaken_fg (s : State) : (rxTaken s).fg = s.fg := by
  simp [rxTaken]
@[simp] theorem rxTaken_gie (s : State) : (rxTaken s).gie = s.gie := by
  simp [rxTaken]
@[simp] theorem rxTaken_brh (s : State) : (rxTaken s).brh = s.brh := by
  simp [rxTaken]
@[simp] theorem rxTaken_brl (s : State) : (rxTaken s).brl = s.brl := by
  simp [rxTaken]
@[simp] theorem rxTaken_csb (s : State) : (rxTaken s).csb = s.csb := by
  simp [rxTaken]
@[simp] theorem rxTaken_csc (s : State) : (rxTaken s).csc = s.csc := by
  simp [rxTaken]
@[simp] theorem rxTaken_txc (s : State) : (rxTaken s).txc = s.txc := by
  simp [rxTaken]
@[simp] theorem rxTaken_u2x (s : State) : (rxTaken s).u2x = s.u2x := by
  simp [rxTaken]
@[simp] theorem rxTaken_mpcm (s : State) : (rxTaken s).mpcm = s.mpcm := by
  simp [rxTaken]
@[simp] theorem rxTaken_rxWait (s : State) : (rxTaken s).rxWait = none := by
  simp [rxTaken]
@[simp] theorem rxTaken_txHold (s : State) : (rxTaken s).txHold = s.txHold := by
  simp [rxTaken]
@[simp] theorem rxTaken_txShift (s : State) : (rxTaken s).txShift = s.txShift := by
  simp [rxTaken]
@[simp] theorem rxTaken_wireOut (s : State) : (rxTaken s).wireOut = s.wireOut := by
  simp [rxTaken]
@[simp] theorem rxTaken_responses (s : State) : (rxTaken s).responses = s.responses := by
  simp [rxTaken]
@[simp] theorem rxTaken_hookCalls (s : State) : (rxTaken s).hookCalls = s.hookCalls := by
  simp [rxTaken]
@[simp] theorem rxTaken_sched (s : State) : (rxTaken s).sched = s.sched := by
  simp [rxTaken]
@[simp] theorem rxTaken_hookIn (s : State) : (rxTaken s).hookIn = s.hookIn := by
  simp [rxTaken]

@[simp] theorem rxTaken_bus (s : State) :
    (rxTaken s).bus = s.bus ++ [.rd .csa (rxStatus s), .rd .dr (rxData s)] := by
  simp [rxTaken, rxStatus, rxData]

/-! ### rxDecided -/

@[simp] theorem rxDecided_cfg (s : State) : (rxDecided s).cfg = s.cfg := by
  unfold rxDecided; split <;> simp
@[simp] theorem rxDecided_rxHead (s : State) : (rxDecided s).rxHead = s.rxHead := by
  unfold rxDecided; split <;> simp
@[simp] theorem rxDecided_rxTail (s : State) : (rxDecided s).rxTail = s.rxTail := by
  unfold rxDecided; split <;> simp
@[simp] theorem rxDecided_txHead (s : State) : (rxDecided s).txHead = s.txHead := by
  unfold rxDecided; split <;> simp
@[simp] theorem rxDecided_txTail (s : State) : (rxDecided s).txTail = s.txTail := by
  unfold rxDecided; split <;> simp
@[simp] theorem rxDecided_rxBuf (s : State) : (rxDecided s).rxBuf = s.rxBuf := by
  unfold rxDecided; split <;> simp
@[simp] theorem rxDecided_txBuf (s : State) : (rxDecided s).txBuf = s.txBuf := by
  unfold rxDecided; split <;> simp
@[simp] theorem rxDecided_written (s : State) : (rxDecided s).written = s.written := by
  unfold rxDecided; split <;> simp
@[simp] theorem rxDecided_hook (s : State) : (rxDecided s).hook = s.hook := by
  unfold rxDecided; split <;> simp
@[simp] theorem rxDecided_line (s : State) : (rxDecided s).line = s.line := by
  unfold rxDecided; split <;> simp
@[simp] theorem rxDecided_fg (s : State) : (rxDecided s).fg = s.fg := by
  unfold rxDecided; split <;> simp
@[simp] theorem rxDecided_gie (s : State) : (rxDecided s).gie = s.gie := by
  unfold rxDecided; split <;> simp
@[simp] theorem rxDecided_brh (s : State) : (rxDecided s).brh = s.brh := by
  unfold rxDecided; split <;> simp
@[simp] theorem rxDecided_brl (s : State) : (rxDecided s).brl = s.brl := by
  unfold rxDecided; split <;> simp
@[simp] theorem rxDecided_csb (s : State) : (rxDecided s).csb = s.csb := by
  unfold rxDecided; split <;> simp
@[simp] theorem rxDecided_csc (s : State) : (rxDecided s).csc = s.csc := by
  unfold rxDecided; split <;> simp
@[simp] theorem rxDecided_txc (s : State) : (rxDecided s).txc = s.txc := by
  unfold rxDecided; split <;> simp
@[simp] theorem rxDecided_u2x (s : State) : (rxDecided s).u2x = s.u2x := by
  unfold rxDecided; split <;> simp
@[simp] theorem rxDecided_mpcm (s : State) : (rxDecided s).mpcm = s.mpcm := by
  unfold rxDecided; split <;> simp
@[simp] theorem rxDecided_rxWait (s : State) : (rxDecided s).rxWait = none := by
  unfold rxDecided; split <;> simp
@[simp] theorem rxDecided_txHold (s : State) : (rxDecided s).txHold = s.txHold := by
  unfold rxDecided; split <;> simp
@[simp] theorem rxDecided_txShift (s : State) : (rxDecided s).txShift = s.txShift := by
  unfold rxDecided; split <;> simp
@[simp] theorem rxDecided_wireOut (s : State) : (rxDecided s).wireOut = s.wireOut := by
  unfold rxDecided; split <;> simp
@[simp] theorem rxDecided_responses (s : State) : (rxDecided s).responses = s.responses := by
  unfold rxDecided; split <;> simp
@[simp] theorem rxDecided_bus (s : State) : (rxDecided s).bus = s.bus ++ [.rd .csa (rxStatus s), .rd .dr (rxData s)] := by
  unfold rxDecided; split <;> simp
@[simp] theorem rxDecided_sched (s : State) : (rxDecided s).sched = s.sched := by
  unfold rxDecided; split <;> simp

theorem rxBody_eq (s : State) :
    rxBody s = if rxKeeps s then storeReceived (rxData s) (rxDecided s) else .next (rxDecided s) := by
  unfold rxBody rxKeeps rxDecided
  cases hk : s.hook with
  | none =>
    simp only [readCsa_upe]
    by_cases hu : upeOf s.rxWait = true <;> simp [hu] <;> rfl
  | some h => rfl

/-- Everything a kept byte can do: dropped on a full ring, else stored and the head advanced (R151). -/
theorem storeReceived_next {d : Byte} {s t : State} (h : storeReceived d s = .next t) :
    (nextIndex s.cfg.cRx s.rxHead = s.rxTail ∧ t = s) ∨
    (nextIndex s.cfg.cRx s.rxHead ≠ s.rxTail ∧ s.rxHead < s.cfg.cRx ∧
      t = { s with rxBuf := s.rxBuf.write s.rxHead d, rxHead := nextIndex s.cfg.cRx s.rxHead }) := by
  obtain ⟨r, hr, ht⟩ := andThen_eq_next.1 h
  rcases tryPush_next hr with ⟨hf, rfl⟩ | ⟨hf, hl, rfl⟩
  · exact .inl ⟨hf, by simpa using ht.symm⟩
  · exact .inr ⟨hf, hl, (Host.Outcome.next.inj ht).symm⟩

/-- A kept byte on a full ring (R153b). -/
theorem storeReceived_full {d : Byte} {s : State} (h : nextIndex s.cfg.cRx s.rxHead = s.rxTail) :
    storeReceived d s = .next s := by
  rw [storeReceived, tryPush_full (q := .rx) d h]; rfl

/-- A kept byte on a ring with room (R153c). -/
theorem storeReceived_room {d : Byte} {s : State} (hl : s.rxHead < s.cfg.cRx)
    (h : nextIndex s.cfg.cRx s.rxHead ≠ s.rxTail) :
    storeReceived d s =
      .next { s with rxBuf := s.rxBuf.write s.rxHead d, rxHead := nextIndex s.cfg.cRx s.rxHead } := by
  rw [storeReceived, tryPush_room (q := .rx) d hl h]; rfl

/-- Everything the receive body can answer with (R151): the byte is taken, and stored or not. -/
theorem rxBody_next {s t : State} (h : rxBody s = .next t) :
    t = rxDecided s ∨
    (rxKeeps s = true ∧ nextIndex s.cfg.cRx s.rxHead ≠ s.rxTail ∧ s.rxHead < s.cfg.cRx ∧
      t = { rxDecided s with
        rxBuf := s.rxBuf.write s.rxHead (rxData s), rxHead := nextIndex s.cfg.cRx s.rxHead }) := by
  rw [rxBody_eq] at h
  split at h
  · rename_i hk
    rcases storeReceived_next h with ⟨-, rfl⟩ | ⟨hf, hl, rfl⟩
    · exact .inl rfl
    · exact .inr ⟨hk, by simpa using hf, by simpa using hl, by simp⟩
  · exact .inl (by simpa using h.symm)

end Sys2Proof.Machine
end

