-- ==== Sys2Proof/Laws/Commands.lean ====
section
/-! SUPPORT. One inversion lemma per command and per move: everything its meaning can answer with, by label.
The provers cite these instead of unfolding a meaning. -/

namespace Sys2Proof.Machine

/-! ### The atomic groups of BEGIN and END -/

/-- The state after S1 of BEGIN (R114). -/
def lineBegun (baud : BitVec 32) (frame : Byte) (s : State) : State :=
  { s with
    rxHead := 0
    rxTail := 0
    txHead := 0
    txTail := 0
    written := false
    line := .active
    brh := divisorHigh s.cfg baud
    brl := divisorLow s.cfg baud
    csc := frame
    csb := (s.csb ||| beginSet s.cfg) &&& ~~~bitMask s.cfg.pUdrie
    bus := s.bus ++ [.wr .brh (divisorHigh s.cfg baud), .wr .brl (divisorLow s.cfg baud), .wr .csc frame,
      .rd .csb s.csb, .wr .csb ((s.csb ||| beginSet s.cfg) &&& ~~~bitMask s.cfg.pUdrie)] }

theorem beginAtomic_eq (baud : BitVec 32) (frame : Byte) (s : State) :
    beginAtomic baud frame s = .next (lineBegun baud frame s) := by
  simp [beginAtomic, regWrite, regRead, logAccess, resetRings, lineBegun]

/-- The state after E1 of END (R118). -/
def lineEnded (s : State) : State :=
  { s with
    rxHead := 0
    rxTail := 0
    txHead := 0
    txTail := 0
    line := .uninitialized
    csb := s.csb &&& ~~~endClear s.cfg
    bus := s.bus ++ [.rd .csb s.csb, .wr .csb (s.csb &&& ~~~endClear s.cfg)] }

theorem endAtomic_eq (s : State) : endAtomic s = .next (lineEnded s) := by
  rw [endAtomic, regClearBits_csb]
  simp [csbUpdated, resetRings, lineEnded]

/-- The state after W4 of WRITE (R140). -/
def published (n : Nat) (s : State) : State :=
  csbUpdated (s.csb ||| bitMask s.cfg.pUdrie) { s with txHead := n, written := true }

theorem writeW4_eq (byte : Byte) (n : Nat) (s : State) :
    writeW4 byte n s = .next (goTo (.write byte .w5) (published n s)) := by
  rw [writeW4, regSetBits_csb]; rfl

/-! ### Inversion, command by command -/

theorem execReady_next {s t : State} (h : execReady s = .next t) :
    (s.fg = .idle ∧ t = goTo .ready s) ∨ (s.fg = .ready ∧ t = respond (.val 1) s) := by
  unfold execReady at h
  split at h
  · rename_i e; exact .inl ⟨e, (present_next h).2⟩
  · rename_i e; exact .inr ⟨e, by simpa using h.symm⟩
  · simp at h

theorem execAttach_next {a : Handle} {s t : State} (h : execAttach a s = .next t) :
    (s.fg = .idle ∧ t = goTo (.attach a .s1) s) ∨
    (s.fg = .attach a .s1 ∧ t = goTo (.attach a .s2) { s with hook := hookOf a }) ∨
    (s.fg = .attach a .s2 ∧ t = respond .done s) := by
  unfold execAttach at h
  split at h
  · rename_i e; exact .inl ⟨e, (present_next h).2⟩
  · rename_i b e
    split at h
    · rename_i hb; subst hb; exact .inr (.inl ⟨e, by simpa using h.symm⟩)
    · simp at h
  · rename_i b e
    split at h
    · rename_i hb; subst hb; exact .inr (.inr ⟨e, by simpa using h.symm⟩)
    · simp at h
  · simp at h

theorem execBegin_next {baud : BitVec 32} {frame : Byte} {s t : State} (h : execBegin baud frame s = .next t) :
    beginOk s.cfg baud frame = true ∧
    ((s.fg = .idle ∧ t = goTo (.beginLine baud frame .s1) s) ∨
     (s.fg = .beginLine baud frame .s1 ∧ t = goTo (.beginLine baud frame .s2) (lineBegun baud frame s)) ∨
     (s.fg = .beginLine baud frame .s2 ∧ t = respond .done s)) := by
  unfold execBegin at h
  split at h
  · rename_i hok
    refine ⟨hok, ?_⟩
    split at h
    · rename_i e; exact .inl ⟨e, (present_next h).2⟩
    · rename_i b f e
      split at h
      · rename_i hb
        obtain ⟨rfl, rfl⟩ := hb
        rw [beginAtomic_eq] at h
        exact .inr (.inl ⟨e, by simpa using h.symm⟩)
      · simp at h
    · rename_i b f e
      split at h
      · rename_i hb
        obtain ⟨rfl, rfl⟩ := hb
        exact .inr (.inr ⟨e, by simpa using h.symm⟩)
      · simp at h
    · simp at h
  · simp at h

theorem execAvail_next {s t : State} (h : execAvail s = .next t) :
    (s.fg = .idle ∧ t = goTo (.avail .s1) s) ∨
    (s.fg = .avail .s1 ∧ t = goTo (.avail (.s2 s.rxHead s.rxTail)) s) ∨
    (∃ a b, s.fg = .avail (.s2 a b) ∧ t = respond (.val (ringCount s.cfg.cRx a b)) s) := by
  unfold execAvail at h
  split at h
  · rename_i e; exact .inl ⟨e, (present_next h).2⟩
  · rename_i e; exact .inr (.inl ⟨e, by simpa using h.symm⟩)
  · rename_i a b e; exact .inr (.inr ⟨a, b, e, by simpa using h.symm⟩)
  · simp at h

theorem execAvailw_next {s t : State} (h : execAvailw s = .next t) :
    (s.fg = .idle ∧ t = goTo (.availw .s1) s) ∨
    (s.fg = .availw .s1 ∧ t = goTo (.availw (.s2 s.txHead s.txTail)) s) ∨
    (∃ a b, s.fg = .availw (.s2 a b) ∧ t = respond (.val (s.cfg.cTx - 1 - ringCount s.cfg.cTx a b)) s) := by
  unfold execAvailw at h
  split at h
  · rename_i e; exact .inl ⟨e, (present_next h).2⟩
  · rename_i e; exact .inr (.inl ⟨e, by simpa using h.symm⟩)
  · rename_i a b e; exact .inr (.inr ⟨a, b, e, by simpa using h.symm⟩)
  · simp at h

theorem execPeek_next {s t : State} (h : execPeek s = .next t) :
    (s.fg = .idle ∧ t = goTo (.peek .s1) s) ∨
    (s.fg = .peek .s1 ∧ s.rxHead = s.rxTail ∧ t = respond .none s) ∨
    (s.fg = .peek .s1 ∧ s.rxHead ≠ s.rxTail ∧ t = goTo (.peek (.s2 s.rxTail)) s) ∨
    (∃ a, s.fg = .peek (.s2 a) ∧ a < s.cfg.cRx ∧ t = goTo (.peek (.s3 (cellValue .rxb s.rxBuf a))) s) ∨
    (∃ b, s.fg = .peek (.s3 b) ∧ t = respond (.some b) s) := by
  unfold execPeek at h
  split at h
  · rename_i e; exact .inl ⟨e, (present_next h).2⟩
  · rename_i e
    split at h
    · rename_i he; exact .inr (.inl ⟨e, he, by simpa using h.symm⟩)
    · rename_i he; exact .inr (.inr (.inl ⟨e, he, by simpa using h.symm⟩))
  · rename_i a e
    obtain ⟨r, hr, ht⟩ := andThen_eq_next.1 h
    obtain ⟨ha, rfl⟩ := memRead_rxb_next hr
    exact .inr (.inr (.inr (.inl ⟨a, e, ha, by simpa using ht.symm⟩)))
  · rename_i b e; exact .inr (.inr (.inr (.inr ⟨b, e, by simpa using h.symm⟩)))
  · simp at h

theorem execRead_next {s t : State} (h : execRead s = .next t) :
    (s.fg = .idle ∧ t = goTo (.read .s1) s) ∨
    (s.fg = .read .s1 ∧ s.rxHead = s.rxTail ∧ t = respond .none s) ∨
    (s.fg = .read .s1 ∧ s.rxHead ≠ s.rxTail ∧ t = goTo (.read (.s2 s.rxTail)) s) ∨
    (∃ a, s.fg = .read (.s2 a) ∧ a < s.cfg.cRx ∧ t = goTo (.read (.s3 a (cellValue .rxb s.rxBuf a))) s) ∨
    (∃ a b, s.fg = .read (.s3 a b) ∧ t = goTo (.read (.s4 b)) { s with rxTail := nextIndex s.cfg.cRx a }) ∨
    (∃ b, s.fg = .read (.s4 b) ∧ t = respond (.some b) s) := by
  unfold execRead at h
  split at h
  · rename_i e; exact .inl ⟨e, (present_next h).2⟩
  · rename_i e
    split at h
    · rename_i he; exact .inr (.inl ⟨e, he, by simpa using h.symm⟩)
    · rename_i he; exact .inr (.inr (.inl ⟨e, he, by simpa using h.symm⟩))
  · rename_i a e
    obtain ⟨r, hr, ht⟩ := andThen_eq_next.1 h
    obtain ⟨ha, rfl⟩ := memRead_rxb_next hr
    exact .inr (.inr (.inr (.inl ⟨a, e, ha, by simpa using ht.symm⟩)))
  · rename_i a b e; exact .inr (.inr (.inr (.inr (.inl ⟨a, b, e, by simpa using h.symm⟩))))
  · rename_i b e; exact .inr (.inr (.inr (.inr (.inr ⟨b, e, by simpa using h.symm⟩))))
  · simp at h

theorem execWrite_next {c : Byte} {s t : State} (h : execWrite c s = .next t) :
    (s.fg = .idle ∧ s.line = .active ∧ t = goTo (.write c .w1) s) ∨
    (s.fg = .write c .w1 ∧ nextIndex s.cfg.cTx s.txHead = s.txTail ∧ t = goTo (.write c .w2) s) ∨
    (s.fg = .write c .w1 ∧ nextIndex s.cfg.cTx s.txHead ≠ s.txTail ∧
      t = goTo (.write c (.w3 s.txHead (nextIndex s.cfg.cTx s.txHead))) s) ∨
    (s.fg = .write c .w2 ∧ s.gie = true ∧ t = goTo (.write c .w1) s) ∨
    (s.fg = .write c .w2 ∧ s.gie = false ∧ ∃ u, pollAndPump s = .next u ∧ t = goTo (.write c .w1) u) ∨
    (∃ a n, s.fg = .write c (.w3 a n) ∧ a < s.cfg.cTx ∧
      t = goTo (.write c (.w4 a n)) { s with txBuf := s.txBuf.write a c }) ∨
    (∃ a n, s.fg = .write c (.w4 a n) ∧ t = goTo (.write c .w5) (published n s)) ∨
    (s.fg = .write c .w5 ∧ t = respond (.val 1) s) := by
  unfold execWrite at h
  split at h
  · rename_i e
    obtain ⟨ha, ht⟩ := present_next h
    refine .inl ⟨e, ?_, ht⟩
    cases hl : s.line with
    | uninitialized => simp [hl, admitted] at ha
    | active => rfl
  · rename_i b pt e
    split at h
    · rename_i hb
      subst hb
      cases pt with
      | w1 =>
        simp only [writeStep, writeW1] at h
        split at h
        · rename_i hn; exact .inr (.inl ⟨e, hn, by simpa using h.symm⟩)
        · rename_i hn; exact .inr (.inr (.inl ⟨e, hn, by simpa using h.symm⟩))
      | w2 =>
        simp only [writeStep, writeW2] at h
        split at h
        · rename_i hg; exact .inr (.inr (.inr (.inl ⟨e, hg, by simpa using h.symm⟩)))
        · rename_i hg
          obtain ⟨u, hu, ht⟩ := andThen_eq_next.1 h
          exact .inr (.inr (.inr (.inr (.inl ⟨e, by simpa using hg, u, hu, by simpa using ht.symm⟩))))
      | w3 a n =>
        simp only [writeStep, writeW3] at h
        obtain ⟨u, hu, ht⟩ := andThen_eq_next.1 h
        obtain ⟨ha, rfl⟩ := memWrite_txb_next hu
        exact .inr (.inr (.inr (.inr (.inr (.inl ⟨a, n, e, ha, by simpa using ht.symm⟩)))))
      | w4 a n =>
        simp only [writeStep, writeW4_eq] at h
        exact .inr (.inr (.inr (.inr (.inr (.inr (.inl ⟨a, n, e, by simpa using h.symm⟩))))))
      | w5 =>
        exact .inr (.inr (.inr (.inr (.inr (.inr (.inr ⟨e, by simpa [writeStep] using h.symm⟩))))))
    · simp at h
  · simp at h

/-- Everything one step of the flush loop can do, by its label (R144), for FLUSH and for END's drain alike. -/
inductive FlushStep (loc : FlushPt → Fg) (finish : State → State) (s t : State) : FlushPt → Prop where
  /-- F1 finds that something was written. -/
  | written (hw : s.written = true) (ht : t = goTo (loc .f2) s) : FlushStep loc finish s t .f1
  /-- F1 finds that nothing was written. -/
  | nothingWritten (hw : s.written = false) (ht : t = finish s) : FlushStep loc finish s t .f1
  /-- F2 finds the ring empty. -/
  | ringEmpty (he : s.txHead = s.txTail) (ht : t = goTo (loc .f3) s) : FlushStep loc finish s t .f2
  /-- F2 finds bytes still queued. -/
  | stillQueued (he : s.txHead ≠ s.txTail) (ht : t = goTo (loc .f4) s) : FlushStep loc finish s t .f2
  /-- F3 reads TXC as 1. -/
  | complete (hc : s.txc = true) (ht : t = finish (readCsa s).2) : FlushStep loc finish s t .f3
  /-- F3 reads TXC as 0. -/
  | notComplete (hc : s.txc = false) (ht : t = goTo (loc .f2) (readCsa s).2) : FlushStep loc finish s t .f3
  /-- F4 with handlers to drain the ring, or without the polling variant. -/
  | reChecks (hg : s.gie = true ∨ s.cfg.flushPollsWhenMasked = false) (ht : t = goTo (loc .f2) s) :
      FlushStep loc finish s t .f4
  /-- F4 polls and pumps. -/
  | pumps (u : State) (hg : s.gie = false) (hm : s.cfg.flushPollsWhenMasked = true)
      (hu : pollAndPump s = .next u) (ht : t = goTo (loc .f2) u) : FlushStep loc finish s t .f4

/-- Every next state of a step of the flush loop is one of these. -/
theorem flushStep_next {loc : FlushPt → Fg} {finish : State → State} {pt : FlushPt} {s t : State}
    (h : flushStep loc finish pt s = .next t) : FlushStep loc finish s t pt := by
  cases pt with
  | f1 =>
    cases hw : s.written <;> simp [flushStep, hw] at h
    · exact .nothingWritten hw h.symm
    · exact .written hw h.symm
  | f2 =>
    by_cases he : s.txHead = s.txTail <;> simp [flushStep, he] at h
    · exact .ringEmpty he h.symm
    · exact .stillQueued he h.symm
  | f3 =>
    cases hc : s.txc <;> simp [flushStep, hc] at h
    · exact .notComplete hc h.symm
    · exact .complete hc h.symm
  | f4 =>
    by_cases hg : s.gie = true ∨ s.cfg.flushPollsWhenMasked = false
    · refine .reChecks hg ?_
      rcases hg with hg | hg <;> simp [flushStep, hg] at h <;> exact h.symm
    · simp only [not_or, Bool.not_eq_true, Bool.not_eq_false] at hg
      simp only [flushStep, hg.1, hg.2] at h
      obtain ⟨u, hu, ht⟩ := andThen_eq_next.1 h
      exact .pumps u hg.1 hg.2 hu (by simpa using ht.symm)

theorem execFlush_next {s t : State} (h : execFlush s = .next t) :
    (s.fg = .idle ∧ s.line = .active ∧ t = goTo (.flush .f1) s) ∨
    (∃ pt, s.fg = .flush pt ∧ flushStep .flush (respond .done) pt s = .next t) := by
  unfold execFlush at h
  split at h
  · rename_i e
    obtain ⟨ha, ht⟩ := present_next h
    refine .inl ⟨e, ?_, ht⟩
    cases hl : s.line with
    | uninitialized => simp [hl, admitted] at ha
    | active => rfl
  · rename_i pt e; exact .inr ⟨pt, e, h⟩
  · simp at h

theorem execEnd_next {s t : State} (h : execEnd s = .next t) :
    (s.fg = .idle ∧ s.line = .active ∧ t = goTo (.endLine (.drain .f1)) s) ∨
    (∃ pt, s.fg = .endLine (.drain pt) ∧
      flushStep (fun p => .endLine (.drain p)) (goTo (.endLine .e1)) pt s = .next t) ∨
    (s.fg = .endLine .e1 ∧ t = goTo (.endLine .e2) (lineEnded s)) ∨
    (s.fg = .endLine .e2 ∧ t = respond .done s) := by
  unfold execEnd at h
  split at h
  · rename_i e
    obtain ⟨ha, ht⟩ := present_next h
    refine .inl ⟨e, ?_, ht⟩
    cases hl : s.line with
    | uninitialized => simp [hl, admitted] at ha
    | active => rfl
  · rename_i pt e; exact .inr (.inl ⟨pt, e, h⟩)
  · rename_i e
    rw [endAtomic_eq] at h
    exact .inr (.inr (.inl ⟨e, by simpa using h.symm⟩))
  · rename_i e; exact .inr (.inr (.inr ⟨e, by simpa using h.symm⟩))
  · simp at h

/-! ### Moves -/

theorem unitReceive_next {b : Byte} {pe : Bool} {s t : State} (h : unitReceive b pe s = .next t) :
    receiveEnabled s = true ∧ t = { s with rxWait := some ⟨b, pe⟩ } := by
  by_cases he : receiveEnabled s = true <;> simp [unitReceive, he] at h
  exact ⟨he, h.symm⟩

theorem unitLoad_next {s t : State} (h : unitLoad s = .next t) :
    loadEnabled s = true ∧ t = { s with txShift := s.txHold, txHold := none } := by
  by_cases he : loadEnabled s = true <;> simp [unitLoad, he] at h
  exact ⟨he, h.symm⟩

theorem unitDone_next {s t : State} (h : unitDone s = .next t) :
    ∃ b, s.txShift = some b ∧
      t = { s with wireOut := s.wireOut ++ [b], txShift := none,
                   txc := if s.txHold.isNone then true else s.txc } := by
  unfold unitDone at h
  split at h
  · rename_i b e; exact ⟨b, e, by simpa using h.symm⟩
  · simp at h

theorem invokeHandler_next {i : Instr} {body : State → Result State} {s t : State}
    (h : invokeHandler i body s = .next t) : handlerEnabled s i = true ∧ body s = .next t := by
  by_cases he : handlerEnabled s i = true <;> simp [invokeHandler, he] at h
  obtain ⟨u, hu, ht⟩ := andThen_eq_next.1 h
  refine ⟨he, ?_⟩
  simpa [leaveHandler, enterHandler, ← ht] using hu

/-- An entry of this line is IRQ_RX or IRQ_UDRE (R86). -/
theorem routeVector_some {l idx : Nat} {i : Instr} (h : routeVector l idx = some i) :
    (i = .irqRx ∧ idx = vectorIndex l 0) ∨ (i = .irqUdre ∧ idx = vectorIndex l 1) := by
  unfold routeVector at h
  split at h
  · rename_i e; exact .inl ⟨by simpa [decodeVector] using h.symm, e⟩
  · split at h
    · rename_i e; exact .inr ⟨by simpa [decodeVector] using h.symm, e⟩
    · simp at h

theorem moveIrq_next {idx : Nat} {s t : State} (h : moveIrq idx s = .next t) :
    (routeVector s.cfg.lineId idx = none ∧ s.gie = true ∧ t = s) ∨
    (s.gie = true ∧ irqRxRequest s = true ∧ execIrqRx s = .next t) ∨
    (s.gie = true ∧ irqUdreRequest s = true ∧ execIrqUdre s = .next t) := by
  unfold moveIrq at h
  split at h
  · rename_i i hi
    obtain ⟨he, hb⟩ := invokeHandler_next h
    rcases routeVector_some hi with ⟨rfl, -⟩ | ⟨rfl, -⟩
    · simp [handlerEnabled] at he; exact .inr (.inl ⟨he.1, he.2, hb⟩)
    · simp [handlerEnabled] at he; exact .inr (.inr ⟨he.1, he.2, hb⟩)
  · rename_i hi
    split at h
    · rename_i hg; exact .inl ⟨hi, hg, by simpa using h.symm⟩
    · simp at h

theorem movePresent_next {w : CommandWord} {s t : State} (h : movePresent w s = .next t) :
    s.fg = .idle ∧ ((∃ e, decodeCommand w = .error e ∧ t = s) ∨ ∃ i, decodeCommand w = .ok i ∧ exec i s = .next t) := by
  unfold movePresent at h
  split at h
  · rename_i hf
    refine ⟨hf, ?_⟩
    split at h
    · rename_i i hi; exact .inr ⟨i, hi, h⟩
    · rename_i e he; exact .inl ⟨e, he, by simpa using h.symm⟩
  · simp at h

theorem moveFg_next {s t : State} (h : moveFg s = .next t) :
    ∃ i, s.fg.command? = some i ∧ exec i s = .next t := by
  unfold moveFg at h
  split at h
  · rename_i i hi; exact ⟨i, hi, h⟩
  · simp at h

theorem moveSetGie_next {on : Bool} {s t : State} (h : moveSetGie on s = .next t) :
    s.fg = .idle ∧ t = { s with gie := on } := by
  unfold moveSetGie at h
  split at h
  · rename_i hf; exact ⟨hf, by simpa using h.symm⟩
  · simp at h

/-- Everything one step can do (R60): FG goes on or waits with no move listed, or the listed move happens. -/
theorem stepOnce_next {s t : State} (h : stepOnce s = .next t) :
    s.cfg.ok = true ∧
    ((s.sched = [] ∧ ((s.fg = .idle ∧ t = s) ∨ ∃ i, s.fg.command? = some i ∧ exec i s = .next t)) ∨
     ∃ m rest, s.sched = m :: rest ∧ runMove m { s with sched := rest } = .next t) := by
  unfold stepOnce at h
  split at h
  · rename_i hc
    refine ⟨hc, ?_⟩
    split at h
    · rename_i hs
      refine .inl ⟨hs, ?_⟩
      unfold runUnscheduled at h
      split at h
      · rename_i i hi; exact .inr ⟨i, hi, h⟩
      · rename_i hi
        refine .inl ⟨?_, by simpa using h.symm⟩
        cases hf : s.fg <;> simp [hf, Fg.command?] at hi
        rfl
    · rename_i m rest hs; exact .inr ⟨m, rest, hs, h⟩
  · simp at h

end Sys2Proof.Machine
end

