-- ==== Sys2Proof/Laws/Encoding.lean ====
section
/-! SUPPORT. The three fields of the command word (R80), taken apart and put together. -/

namespace Sys2Proof

theorem getLsbD_commandWord (op a : Byte) (b : BitVec 32) (i : Nat) :
    (commandWord op a b).getLsbD i =
      if i < 32 then b.getLsbD i else if i - 32 < 8 then a.getLsbD (i - 32) else op.getLsbD (i - 40) := by
  show BitVec.getLsbD (w := 8 + 8 + 32) (op ++ a ++ b) i = _
  rw [BitVec.getLsbD_append, BitVec.getLsbD_append, show i - 32 - 8 = i - 40 by omega]

@[simp] theorem opField_commandWord (op a : Byte) (b : BitVec 32) : opField (commandWord op a b) = op := by
  apply BitVec.eq_of_getLsbD_eq
  intro i hi
  rw [opField, BitVec.getLsbD_extractLsb', getLsbD_commandWord, if_neg (by omega), if_neg (by omega)]
  simp [hi]

@[simp] theorem aField_commandWord (op a : Byte) (b : BitVec 32) : aField (commandWord op a b) = a := by
  apply BitVec.eq_of_getLsbD_eq
  intro i hi
  rw [aField, BitVec.getLsbD_extractLsb', getLsbD_commandWord, if_neg (by omega), if_pos (by omega)]
  simp [hi]

@[simp] theorem bField_commandWord (op a : Byte) (b : BitVec 32) : bField (commandWord op a b) = b := by
  apply BitVec.eq_of_getLsbD_eq
  intro i hi
  rw [bField, BitVec.getLsbD_extractLsb', getLsbD_commandWord, if_pos (by omega)]
  simp [hi]

/-- A word is its three fields. -/
theorem commandWord_fields (w : CommandWord) : commandWord (opField w) (aField w) (bField w) = w := by
  apply BitVec.eq_of_getLsbD_eq
  intro i hi
  rw [getLsbD_commandWord, opField, aField, bField]
  simp only [BitVec.getLsbD_extractLsb']
  by_cases h1 : i < 32
  · simp [h1]
  · by_cases h2 : i - 32 < 8
    · simp [h1, h2, show 32 + (i - 32) = i by omega]
    · simp [h1, h2, show i - 40 < 8 by omega, show 40 + (i - 40) = i by omega]

/-- The fields as numbers: the word is `op * 2^40 + a * 2^32 + b`. -/
theorem toNat_fields (w : CommandWord) :
    (opField w).toNat = w.toNat / 2 ^ 40 ∧ (aField w).toNat = w.toNat / 2 ^ 32 % 2 ^ 8 ∧
      (bField w).toNat = w.toNat % 2 ^ 32 := by
  have := w.isLt
  refine ⟨?_, ?_, ?_⟩
  · simp [opField, BitVec.extractLsb'_toNat, Nat.shiftRight_eq_div_pow]; omega
  · simp [aField, BitVec.extractLsb'_toNat, Nat.shiftRight_eq_div_pow]
  · simp [bField, BitVec.extractLsb'_toNat]

end Sys2Proof
end

