-- ==== Sys2Proof/Laws/PerInstr.lean ====
section
/-! SUPPORT. Statements about every instruction as syntax, one lemma per constructor. -/

namespace Sys2Proof.Laws

namespace EncodedInItsRow

/-- The instruction's word lies in the row of R81 that carries its opcode and in no other row; an entry point has no
row and its vector number is the one R86 gives it. -/
def Statement (i : Instr) : Prop :=
  match encode i with
  | .command w => ∃ r ∈ opTable, i.opcode? = some r.op ∧ ∀ q ∈ opTable, (q.selects w = true ↔ q = r)
  | .vector v => i.opcode? = none ∧ decodeVector v = i

/-- A row selects the words whose masked bits are its match. -/
theorem selects_iff (q : OpRow) (w : CommandWord) :
    q.selects w = true ↔ ∀ k < 48, (w.getLsbD k && q.mask.getLsbD k) = q.value.getLsbD k := by
  rw [OpRow.selects, beq_iff_eq]
  constructor
  · intro h k _
    rw [← BitVec.getLsbD_and, h]
  · intro h
    apply BitVec.eq_of_getLsbD_eq
    intro k hk
    rw [BitVec.getLsbD_and]
    exact h k hk

/-- No word of another opcode is selected, for every row of the table. -/
theorem op_of_selects {q : OpRow} (hq : q ∈ opTable) {op a : Byte} {b : BitVec 32}
    (h : q.selects (commandWord op a b) = true) : q.op = op := by
  have hk := (selects_iff q _).1 h
  have hm : ∀ r ∈ opTable, ∀ k < 8, r.mask.getLsbD (40 + k) = true ∧
      r.value.getLsbD (40 + k) = r.op.getLsbD k := by decide
  apply BitVec.eq_of_getLsbD_eq
  intro k hk8
  have h1 := hk (40 + k) (by omega)
  obtain ⟨h2, h3⟩ := hm q hq k hk8
  rw [h2, h3, Bool.and_true, getLsbD_commandWord, if_neg (by omega), if_neg (by omega),
    show 40 + k - 40 = k by omega] at h1
  exact h1.symm

/-- The rows of the table differ in `op`. -/
theorem eq_of_op {q r : OpRow} (hq : q ∈ opTable) (hr : r ∈ opTable) (h : q.op = r.op) : q = r := by
  have : ∀ q ∈ opTable, ∀ r ∈ opTable, q.op = r.op → q = r := by decide
  exact this q hq r hr h

/-- One selected row is enough: the others have another `op`. -/
theorem of_row {i : Instr} {op a : Byte} {b : BitVec 32} (he : encode i = .command (commandWord op a b))
    (r : OpRow) (hr : r ∈ opTable) (ho : i.opcode? = some r.op) (hop : r.op = op)
    (hs : r.selects (commandWord op a b) = true) : Statement i := by
  rw [Statement, he]
  exact ⟨r, hr, ho, fun q hq => ⟨fun h => eq_of_op hq hr ((op_of_selects hq h).trans hop.symm),
    fun h => h ▸ hs⟩⟩

/-- The row of BEGIN leaves both operands free. -/
theorem begin_selects (baud : BitVec 32) (frame : Byte) :
    OpRow.selects ⟨0x01, 0x010000000000, 0xFF0000000000⟩ (commandWord 0x01 frame baud) = true := by
  rw [selects_iff]
  intro k hk
  rw [getLsbD_commandWord]
  by_cases h1 : k < 32
  · interval_cases k <;> simp
  · by_cases h2 : k - 32 < 8
    · interval_cases k <;> simp
    · interval_cases k <;> simp at h1 h2 ⊢

/-- The row of WRITE leaves the byte free. -/
theorem write_selects (byte : Byte) :
    OpRow.selects ⟨0x08, 0x080000000000, 0xFF00FFFFFFFF⟩ (commandWord 0x08 byte 0) = true := by
  rw [selects_iff]
  intro k hk
  rw [getLsbD_commandWord]
  interval_cases k <;> simp

/-- The row of ATTACH leaves the handle free. -/
theorem attach_selects (handle : Handle) :
    OpRow.selects ⟨0x09, 0x090000000000, 0xFFFF00000000⟩ (commandWord 0x09 0 handle) = true := by
  rw [selects_iff]
  intro k hk
  rw [getLsbD_commandWord]
  interval_cases k <;> simp

theorem ready : Statement .ready := of_row rfl ⟨0x00, 0, 0xFFFFFFFFFFFF⟩ (by decide) rfl rfl (by decide)
theorem beginLine (baud : BitVec 32) (frame : Byte) : Statement (.beginLine baud frame) :=
  of_row rfl ⟨0x01, 0x010000000000, 0xFF0000000000⟩ (by decide) rfl rfl (begin_selects baud frame)
theorem endLine : Statement .endLine :=
  of_row rfl ⟨0x02, 0x020000000000, 0xFFFFFFFFFFFF⟩ (by decide) rfl rfl (by decide)
theorem avail : Statement .avail :=
  of_row rfl ⟨0x03, 0x030000000000, 0xFFFFFFFFFFFF⟩ (by decide) rfl rfl (by decide)
theorem peek : Statement .peek :=
  of_row rfl ⟨0x04, 0x040000000000, 0xFFFFFFFFFFFF⟩ (by decide) rfl rfl (by decide)
theorem read : Statement .read :=
  of_row rfl ⟨0x05, 0x050000000000, 0xFFFFFFFFFFFF⟩ (by decide) rfl rfl (by decide)
theorem availw : Statement .availw :=
  of_row rfl ⟨0x06, 0x060000000000, 0xFFFFFFFFFFFF⟩ (by decide) rfl rfl (by decide)
theorem flush : Statement .flush :=
  of_row rfl ⟨0x07, 0x070000000000, 0xFFFFFFFFFFFF⟩ (by decide) rfl rfl (by decide)
theorem write (byte : Byte) : Statement (.write byte) :=
  of_row rfl ⟨0x08, 0x080000000000, 0xFF00FFFFFFFF⟩ (by decide) rfl rfl (write_selects byte)
theorem attach (handle : Handle) : Statement (.attach handle) :=
  of_row rfl ⟨0x09, 0x090000000000, 0xFFFF00000000⟩ (by decide) rfl rfl (attach_selects handle)
theorem irqRx : Statement .irqRx := ⟨rfl, by decide⟩
theorem irqUdre : Statement .irqUdre := ⟨rfl, by decide⟩

end EncodedInItsRow

end Sys2Proof.Laws
end

