-- ==== Sys2Proof/Laws/Steps.lean ====
section
/-! SUPPORT. Said once for every later proof: what a labelled step of the running command can be, what a step of
the machine can be, and that moving the foreground label commutes with the shared operations. -/

namespace Sys2Proof.Machine

/-! ### Moving the label commutes with the shared operations -/

theorem drawByte_goTo (f : Fg) (s : State) :
    drawByte (goTo f s) = ((drawByte s).1, goTo f (drawByte s).2) := by
  unfold drawByte goTo; cases h : s.drawIn <;> rfl

theorem readCsa_goTo (f : Fg) (s : State) : readCsa (goTo f s) = ((readCsa s).1, goTo f (readCsa s).2) := by
  unfold readCsa; simp only [drawByte_goTo]; simp [csaView, logAccess, goTo]

theorem txBodyEnd_goTo (f : Fg) (s : State) : txBodyEnd (goTo f s) = goTo f (txBodyEnd s) := by
  unfold txBodyEnd txcCleared
  rw [readCsa_goTo]
  by_cases q : s.txHead = s.txTail <;> simp [goTo, q, csbUpdated, writeCsa, storeCsa, logAccess]

theorem txEmptyBody_goTo {f : Fg} {s t : State} (h : txEmptyBody s = .next t) :
    txEmptyBody (goTo f s) = .next (goTo f t) := by
  obtain ⟨hne, ht, hh, rfl⟩ := txEmptyBody_next h
  rw [txEmptyBody_eq (s := goTo f s) hne ht hh, ← txBodyEnd_goTo]
  rfl

theorem pollAndPump_goTo {f : Fg} {s t : State} (h : pollAndPump s = .next t) :
    pollAndPump (goTo f s) = .next (goTo f t) := by
  unfold pollAndPump at *
  simp only [readCsa_goTo] at h ⊢
  split at h
  · rename_i hu; rw [if_pos hu]; exact txEmptyBody_goTo h
  · rename_i hu; rw [if_neg hu]; cases h; rfl

/-! ### Words and labels never stand for an entry point -/

theorem decodeCommand_not_entry {w : CommandWord} {i : Instr} (h : decodeCommand w = .ok i) :
    i ≠ .irqRx ∧ i ≠ .irqUdre := by
  constructor <;> rintro rfl <;> simp only [decodeCommand, whenUnusedZero] at h <;> split at h <;>
    (try split at h) <;> simp_all

theorem command?_not_entry {f : Fg} {i : Instr} (h : f.command? = some i) : i ≠ .irqRx ∧ i ≠ .irqUdre := by
  constructor <;> rintro rfl <;> cases f <;> simp [Fg.command?] at h

/-! ### Labelled steps -/

/-- A label whose step publishes nothing, empties nothing and takes nothing. -/
def plainAt (f : Fg) : Prop :=
  publishesAt f = none ∧ discardsAt f = false ∧ takesOneAt f = false

/-- The state after the masked fallback ran the transmit-empty body (R140 step W2, R144 step F4). -/
def pumped (s : State) : State :=
  txBodyEnd (handedOver (cellValue .txb s.txBuf s.txTail) (readCsa s).2)

/-- Everything a labelled step of the running command can do to the state. -/
inductive LabelStep (s t : State) : Prop where
  /-- It moves the label, or answers. -/
  | plain (hp : plainAt s.fg) (ht : t = { s with fg := t.fg, responses := t.responses })
  /-- It reads CSA once besides. -/
  | polls (hp : plainAt s.fg) (ht : t = { (readCsa s).2 with fg := t.fg, responses := t.responses })
  /-- It is a masked fallback that found DR free. -/
  | pumps (back : Fg) (hp : plainAt s.fg) (hb : fallbackTo s = some back) (hg : s.gie = false)
      (hh : s.txHold = none) (hn : s.txHead ≠ s.txTail) (hl : s.txTail < s.cfg.cTx)
      (ht : t = goTo t.fg (pumped s))
  /-- S1 of BEGIN. -/
  | begins (baud : BitVec 32) (frame : Byte) (hf : s.fg = .beginLine baud frame .s1)
      (ht : t = goTo (.beginLine baud frame .s2) (lineBegun baud frame s))
  /-- E1 of END. -/
  | ends (hf : s.fg = .endLine .e1) (ht : t = goTo (.endLine .e2) (lineEnded s))
  /-- S1 of ATTACH. -/
  | attaches (a : Handle) (hf : s.fg = .attach a .s1) (ht : t = goTo (.attach a .s2) { s with hook := hookOf a })
  /-- S3 of READ. -/
  | takes (k : Nat) (b : Byte) (hf : s.fg = .read (.s3 k b))
      (ht : t = goTo (.read (.s4 b)) { s with rxTail := nextIndex s.cfg.cRx k })
  /-- W3 of WRITE. -/
  | stores (byte : Byte) (h n : Nat) (hf : s.fg = .write byte (.w3 h n)) (hl : h < s.cfg.cTx)
      (ht : t = goTo (.write byte (.w4 h n)) { s with txBuf := s.txBuf.write h byte })
  /-- W4 of WRITE. -/
  | publishes (byte : Byte) (h n : Nat) (hf : s.fg = .write byte (.w4 h n))
      (ht : t = goTo (.write byte .w5) (published n s))

/-- Everything the masked fallback can do, with where it starts named in full. -/
theorem pollAndPump_pumped {s t : State} (h : pollAndPump s = .next t) :
    t = (readCsa s).2 ∨
    (s.txHold = none ∧ s.txHead ≠ s.txTail ∧ s.txTail < s.cfg.cTx ∧ t = pumped s) := by
  rcases pollAndPump_next h with ⟨-, rfl⟩ | ⟨hh, h⟩
  · exact .inl rfl
  · obtain ⟨hn, hl, -, rfl⟩ := txEmptyBody_next h
    exact .inr ⟨hh, by simpa using hn, by simpa using hl, by simp [pumped]⟩

/-- The flush loop, for FLUSH and END's drain alike. -/
theorem flushStep_labelStep {loc : FlushPt → Fg} {finish : State → State} {pt : FlushPt} {s t : State}
    (hfin : ∀ u, finish u = { u with fg := (finish u).fg, responses := (finish u).responses })
    (hp : plainAt s.fg) (hb : pt = .f4 → s.cfg.flushPollsWhenMasked = true → fallbackTo s = some (loc .f2))
    (h : flushStep loc finish pt s = .next t) : LabelStep s t := by
  cases flushStep_next h with
  | nothingWritten _ ht => exact .plain hp (ht ▸ hfin s)
  | complete _ ht => exact .polls hp (ht ▸ hfin _)
  | notComplete _ ht => exact .polls hp (ht ▸ rfl)
  | pumps u hg hm hu ht =>
    subst ht
    rcases pollAndPump_pumped hu with rfl | ⟨hh, hn, hl, rfl⟩
    · exact .polls hp rfl
    · exact .pumps _ hp (hb rfl hm) hg hh hn hl rfl
  | written _ ht | ringEmpty _ ht | stillQueued _ ht | reChecks _ ht => exact .plain hp (ht ▸ rfl)

theorem plainAt_flush (pt : FlushPt) : plainAt (.flush pt) := ⟨rfl, rfl, rfl⟩

theorem plainAt_drain (pt : FlushPt) : plainAt (.endLine (.drain pt)) := ⟨rfl, by simp [discardsAt], rfl⟩

/-- A step at a label known to be plain. -/
theorem LabelStep.plainFrom {f : Fg} {s t : State} (q : s.fg = f) (hp : plainAt f)
    (ht : t = { s with fg := t.fg, responses := t.responses }) : LabelStep s t := .plain (q ▸ hp) ht

/-- The steps of FLUSH. -/
theorem execFlush_labelStep {s t : State} (hi : s.fg ≠ .idle) (h : execFlush s = .next t) : LabelStep s t := by
  obtain ⟨q, -⟩ | ⟨pt, q, h⟩ := execFlush_next h
  · exact absurd q hi
  · exact flushStep_labelStep (fun _ => rfl) (q ▸ plainAt_flush pt)
      (fun h4 hm => by simp [fallbackTo, q, h4, hm]) h

/-- The steps of END. -/
theorem execEnd_labelStep {s t : State} (hi : s.fg ≠ .idle) (h : execEnd s = .next t) : LabelStep s t := by
  obtain ⟨q, -⟩ | ⟨pt, q, h⟩ | ⟨q, ht⟩ | ⟨q, rfl⟩ := execEnd_next h
  · exact absurd q hi
  · exact flushStep_labelStep (fun _ => rfl) (q ▸ plainAt_drain pt)
      (fun h4 hm => by simp [fallbackTo, q, h4, hm]) h
  · exact .ends q ht
  · exact .plainFrom q ⟨rfl, by simp [discardsAt], rfl⟩ rfl

/-- The steps of WRITE. -/
theorem execWrite_labelStep {c : Byte} {s t : State} (hi : s.fg ≠ .idle) (h : execWrite c s = .next t) :
    LabelStep s t := by
  obtain ⟨q, -⟩ | ⟨q, -, rfl⟩ | ⟨q, -, rfl⟩ | ⟨q, -, rfl⟩ | ⟨q, hg, u, hu, rfl⟩ | ⟨a, n, q, hl, ht⟩ | ⟨a, n, q, ht⟩ |
    ⟨q, rfl⟩ := execWrite_next h
  · exact absurd q hi
  case inr.inr.inr.inr.inl =>
    have hp : plainAt s.fg := q ▸ ⟨rfl, rfl, rfl⟩
    rcases pollAndPump_pumped hu with rfl | ⟨hh, hn, hl, rfl⟩
    · exact .polls hp rfl
    · exact .pumps _ hp (by simp only [fallbackTo, q]; rfl) hg hh hn hl rfl
  case inr.inr.inr.inr.inr.inl => exact .stores c a n q hl ht
  case inr.inr.inr.inr.inr.inr.inl => exact .publishes c a n q ht
  all_goals exact .plainFrom q ⟨rfl, rfl, rfl⟩ rfl

/-- The steps of READ. -/
theorem execRead_labelStep {s t : State} (hi : s.fg ≠ .idle) (h : execRead s = .next t) : LabelStep s t := by
  obtain ⟨q, -⟩ | ⟨q, -, rfl⟩ | ⟨q, -, rfl⟩ | ⟨a, q, -, rfl⟩ | ⟨a, b, q, ht⟩ | ⟨b, q, rfl⟩ := execRead_next h
  · exact absurd q hi
  case inr.inr.inr.inr.inl => exact .takes a b q ht
  all_goals exact .plainFrom q ⟨rfl, rfl, rfl⟩ rfl

/-- Everything a step of the running command can do. -/
theorem exec_labelStep {i : Instr} {s t : State} (hi : s.fg.command? = some i) (h : exec i s = .next t) :
    LabelStep s t := by
  have hn : s.fg ≠ .idle := fun q => by simp [q, Fg.command?] at hi
  cases i with
  | irqRx => exact absurd rfl (command?_not_entry hi).1
  | irqUdre => exact absurd rfl (command?_not_entry hi).2
  | ready =>
    obtain ⟨q, -⟩ | ⟨q, rfl⟩ := execReady_next h
    · exact absurd q hn
    · exact .plainFrom q ⟨rfl, rfl, rfl⟩ rfl
  | attach handle =>
    obtain ⟨q, -⟩ | ⟨q, ht⟩ | ⟨q, rfl⟩ := execAttach_next h
    · exact absurd q hn
    · exact .attaches handle q ht
    · exact .plainFrom q ⟨rfl, rfl, rfl⟩ rfl
  | beginLine baud frame =>
    obtain ⟨q, -⟩ | ⟨q, ht⟩ | ⟨q, rfl⟩ := (execBegin_next h).2
    · exact absurd q hn
    · exact .begins baud frame q ht
    · exact .plainFrom q ⟨rfl, by simp [discardsAt], rfl⟩ rfl
  | avail =>
    obtain ⟨q, -⟩ | ⟨q, rfl⟩ | ⟨_, _, q, rfl⟩ := execAvail_next h
    · exact absurd q hn
    all_goals exact .plainFrom q ⟨rfl, rfl, rfl⟩ rfl
  | availw =>
    obtain ⟨q, -⟩ | ⟨q, rfl⟩ | ⟨_, _, q, rfl⟩ := execAvailw_next h
    · exact absurd q hn
    all_goals exact .plainFrom q ⟨rfl, rfl, rfl⟩ rfl
  | peek =>
    obtain ⟨q, -⟩ | ⟨q, -, rfl⟩ | ⟨q, -, rfl⟩ | ⟨_, q, -, rfl⟩ | ⟨_, q, rfl⟩ := execPeek_next h
    · exact absurd q hn
    all_goals exact .plainFrom q ⟨rfl, rfl, rfl⟩ rfl
  | read => exact execRead_labelStep hn h
  | flush => exact execFlush_labelStep hn h
  | endLine => exact execEnd_labelStep hn h
  | write byte => exact execWrite_labelStep hn h

theorem present_goTo {i : Instr} {l : Fg} {s t : State} (h : present i l s = .next t) : t = goTo t.fg s := by
  rw [(present_next h).2]; rfl

/-- A command that an idle foreground takes changes nothing but `fg` (R28). -/
theorem exec_presented {i : Instr} {s t : State} (hf : s.fg = .idle) (hr : i ≠ .irqRx) (hu : i ≠ .irqUdre)
    (h : exec i s = .next t) : t = goTo t.fg s := by
  cases i with
  | ready => simp only [exec, execReady, hf] at h; exact present_goTo h
  | beginLine baud frame =>
    rcases (execBegin_next h).2 with ⟨-, rfl⟩ | ⟨q, -⟩ | ⟨q, -⟩
    · rfl
    · simp [hf] at q
    · simp [hf] at q
  | endLine => simp only [exec, execEnd, hf] at h; exact present_goTo h
  | avail => simp only [exec, execAvail, hf] at h; exact present_goTo h
  | peek => simp only [exec, execPeek, hf] at h; exact present_goTo h
  | read => simp only [exec, execRead, hf] at h; exact present_goTo h
  | availw => simp only [exec, execAvailw, hf] at h; exact present_goTo h
  | flush => simp only [exec, execFlush, hf] at h; exact present_goTo h
  | write byte => simp only [exec, execWrite, hf] at h; exact present_goTo h
  | attach handle => simp only [exec, execAttach, hf] at h; exact present_goTo h
  | irqRx => exact absurd rfl hr
  | irqUdre => exact absurd rfl hu

/-! ### Steps of the machine -/

/-- Everything a step of the machine can be, by the agent that moves (R60). -/
inductive StepBy (s t : State) : Prop where
  /-- No move is listed and no command runs. -/
  | waits (hf : s.fg = .idle) (hs : s.sched = []) (ht : t = s)
  /-- FG executes a labelled step. -/
  | label (i : Instr) (rest : List Move) (hr : runsFg s = true) (hi : s.fg.command? = some i)
      (h : exec i { s with sched := rest } = .next t)
  /-- HOST's word is taken. -/
  | presented (rest : List Move) (hr : runsFg s = false) (hx : entersRx s = false) (hy : entersUdre s = false)
      (hf : s.fg = .idle) (ht : t = goTo t.fg { s with sched := rest })
  /-- This line's receive-complete entry runs. -/
  | receives (rest : List Move) (hr : runsFg s = false) (hx : entersRx s = true) (hy : entersUdre s = false)
      (hg : s.gie = true) (hq : irqRxRequest s = true) (h : execIrqRx { s with sched := rest } = .next t)
  /-- This line's transmit-empty entry runs. -/
  | transmits (rest : List Move) (hr : runsFg s = false) (hx : entersRx s = false) (hy : entersUdre s = true)
      (hg : s.gie = true) (hq : irqUdreRequest s = true) (h : execIrqUdre { s with sched := rest } = .next t)
  /-- The serial unit takes a byte in. -/
  | unitReceives (b : Byte) (pe : Bool) (rest : List Move) (hr : runsFg s = false) (hx : entersRx s = false)
      (hy : entersUdre s = false) (h : unitReceive b pe { s with sched := rest } = .next t)
  /-- The serial unit loads its shifter. -/
  | unitLoads (rest : List Move) (hr : runsFg s = false) (hx : entersRx s = false) (hy : entersUdre s = false)
      (h : unitLoad { s with sched := rest } = .next t)
  /-- The serial unit has sent a byte. -/
  | unitDone (rest : List Move) (hr : runsFg s = false) (hx : entersRx s = false) (hy : entersUdre s = false)
      (h : unitDone { s with sched := rest } = .next t)
  /-- An invalid word, a change of `gie`, or another line's entry. -/
  | input (on : Bool) (rest : List Move) (hr : runsFg s = false) (hx : entersRx s = false)
      (hy : entersUdre s = false) (ht : t = { s with sched := rest, gie := on })

/-- Everything a step of the machine can be. -/
theorem step_by {s t : State} (h : step s = .next t) : s.cfg.ok = true ∧ StepBy s t := by
  obtain ⟨hc, h⟩ := stepOnce_next h
  refine ⟨hc, ?_⟩
  rcases h with ⟨hs, ⟨hi, rfl⟩ | ⟨i, hi, h⟩⟩ | ⟨m, rest, hs, h⟩
  · exact .waits hi hs rfl
  · exact .label i s.sched (by simp [runsFg, hs]) hi h
  · cases m with
    | fg =>
      obtain ⟨i, hi, h⟩ := moveFg_next h
      exact .label i rest (by simp [runsFg, hs]) hi h
    | present w =>
      obtain ⟨hf, h⟩ := movePresent_next h
      rcases h with ⟨_, -, rfl⟩ | ⟨i, hi, h⟩
      · exact .input s.gie rest (by simp [runsFg, hs]) (by simp [entersRx, hs]) (by simp [entersUdre, hs]) rfl
      · obtain ⟨h1, h2⟩ := decodeCommand_not_entry hi
        exact .presented rest (by simp [runsFg, hs]) (by simp [entersRx, hs]) (by simp [entersUdre, hs]) hf
          (exec_presented hf h1 h2 h)
    | setGie on =>
      obtain ⟨-, rfl⟩ := moveSetGie_next h
      exact .input on rest (by simp [runsFg, hs]) (by simp [entersRx, hs]) (by simp [entersUdre, hs]) rfl
    | receive b pe =>
      exact .unitReceives b pe rest (by simp [runsFg, hs]) (by simp [entersRx, hs]) (by simp [entersUdre, hs]) h
    | load => exact .unitLoads rest (by simp [runsFg, hs]) (by simp [entersRx, hs]) (by simp [entersUdre, hs]) h
    | done => exact .unitDone rest (by simp [runsFg, hs]) (by simp [entersRx, hs]) (by simp [entersUdre, hs]) h
    | irq n =>
      simp only [runMove, moveIrq] at h
      split at h
      · rename_i i hi
        obtain ⟨he, hb⟩ := invokeHandler_next h
        rcases routeVector_some hi with ⟨rfl, e⟩ | ⟨rfl, e⟩
        · simp [handlerEnabled] at he
          simp [vectorIndex] at e
          exact .receives rest (by simp [runsFg, hs]) (by simp [entersRx, hs, e]) (by simp [entersUdre, hs, e])
            he.1 he.2 hb
        · simp [handlerEnabled] at he
          simp [vectorIndex] at e
          exact .transmits rest (by simp [runsFg, hs]) (by simp [entersRx, hs, e]) (by simp [entersUdre, hs, e])
            he.1 he.2 hb
      · rename_i hi
        split at h <;> cases h
        simp only [routeVector, vectorIndex] at hi
        refine .input s.gie rest (by simp [runsFg, hs]) ?_ ?_ rfl
        · simp only [entersRx, hs, List.head?_cons, Option.some.injEq, Move.irq.injEq, decide_eq_false_iff_not]
          intro e; simp [e] at hi
        · simp only [entersUdre, hs, List.head?_cons, Option.some.injEq, Move.irq.injEq, decide_eq_false_iff_not]
          intro e; simp [e] at hi

/-- A step that is not FG's empties, publishes and takes nothing. -/
theorem nothing_of_runsFg {s : State} (h : runsFg s = false) :
    discards s = false ∧ publishes s = none ∧ takesOne s = false := by
  simp [discards, publishes, takesOne, h]

/-- Nor does a step at a plain label. -/
theorem nothing_of_plainAt {s : State} (h : plainAt s.fg) :
    discards s = false ∧ publishes s = none ∧ takesOne s = false := by
  simp [discards, publishes, takesOne, h.1, h.2.1, h.2.2]

end Sys2Proof.Machine
end

