-- ==== Sys2Proof/Tests/Slice0.lean ====
section
/-! SUPPORT. Tests of one step each, expected values from the vectors and programs of spec/95_test_vectors.md, and for
every obligation with hypotheses a state and operands that meet them. -/

namespace Sys2Proof.Tests

open Sys2Proof Sys2Proof.Machine

/-- The state of an outcome, if it is a next state. -/
def after {α : Type} : Result α → Option α
  | .next a => some a
  | .fault _ => none
  | .refused _ => none

/-- Why an outcome was refused, if it was. -/
def refusal {α : Type} : Result α → Option Refusal
  | .refused r => some r
  | .next _ => none
  | .fault _ => none

/-- Why an outcome is a fault, if it is one. -/
def faultOf {α : Type} : Result α → Option Fault
  | .fault r => some r
  | .next _ => none
  | .refused _ => none

/-- The next step answers a state with a property. -/
def stepsTo (s : State) (p : State → Bool) : Bool :=
  match step s with
  | .next t => p t
  | .fault _ => false
  | .refused _ => false

/-- An active line with empty rings, the bits of CSA that no rule names drawn as 0 (the vectors' convention). -/
def active : State :=
  { State.reset with line := .active, csb := 0x98, gie := true, drawIn := [0, 0, 0, 0] }

/-- `active` with ring states written `(head, tail)`. -/
def rings (rx tx : Nat × Nat) (rxBuf txBuf : Memory) : State :=
  { active with
    rxHead := rx.1, rxTail := rx.2, txHead := tx.1, txTail := tx.2, rxBuf := rxBuf, txBuf := txBuf
    csb := if tx.1 = tx.2 then 0x98 else 0xB8 }

/-- Capacities for the vectors with C = 8. -/
def capacity (c : Nat) (s : State) : State := { s with cfg := { s.cfg with cRx := c, cTx := c } }

/-! ### WellFormed: an ill-formed instruction for each check, and the boundary on the good side -/

theorem test_illFormed_frame : (Instr.beginLine 9600 0x10).wellFormed Config.default = false := by decide
theorem test_illFormed_frame_bits :
    ([0x07, 0x40, 0x86, 0xFF] : List Byte).all
      (fun v => !(Instr.beginLine 9600 v).wellFormed Config.default) = true := by decide
theorem test_illFormed_baud_zero : (Instr.beginLine 0 0x06).wellFormed Config.default = false := by decide
theorem test_illFormed_divisor_negative : (Instr.beginLine 2000001 0x06).wellFormed Config.default = false := by
  decide
theorem test_illFormed_divisor_large : (Instr.beginLine 15 0x06).wellFormed Config.default = false := by decide
theorem test_illFormed_divisor_parameter :
    (Instr.beginLine 244 0x06).wellFormed { Config.default with divMax := 4095 } = false := by decide
theorem test_wellFormed_boundaries :
    (Instr.beginLine 16 0x06).wellFormed Config.default = true ∧
    (Instr.beginLine 2000000 0x00).wellFormed Config.default = true ∧
    (Instr.beginLine 1 0x06).wellFormed { Config.default with clockHz := 8 } = true ∧
    (Instr.beginLine 1 0x06).wellFormed { Config.default with clockHz := 7 } = false := by decide
theorem test_badConfiguration :
    Params.ok { Config.default with cRx := 257 } = false ∧ Params.ok { Config.default with cTx := 1 } = false ∧
    Params.ok { Config.default with pU2x := 6 } = false ∧ Params.ok Config.default = true := by decide

/-! ### Decoding: words of section 2.3, bit by bit from the table of R81 -/

theorem test_decode_ready : decodeCommand 0x000000000000 = .ok .ready := by decide
theorem test_decode_begin : decodeCommand 0x010E0000E100 = .ok (.beginLine 57600 0x0E) := by decide
theorem test_decode_end : decodeCommand 0x020000000000 = .ok .endLine := by decide
theorem test_decode_avail : decodeCommand 0x030000000000 = .ok .avail := by decide
theorem test_decode_peek : decodeCommand 0x040000000000 = .ok .peek := by decide
theorem test_decode_read : decodeCommand 0x050000000000 = .ok .read := by decide
theorem test_decode_availw : decodeCommand 0x060000000000 = .ok .availw := by decide
theorem test_decode_flush : decodeCommand 0x070000000000 = .ok .flush := by decide
theorem test_decode_write : decodeCommand 0x08FF00000000 = .ok (.write 0xFF) := by decide
theorem test_decode_attach : decodeCommand 0x0900FFFFFFFF = .ok (.attach 0xFFFFFFFF) := by decide
theorem test_decode_invalid :
    ([0x0A0000000000, 0xFF0000000000, 0x030000000001, 0x000100000000, 0x084100000001, 0x090100000000,
      0x020000002580] : List CommandWord).all (fun w => (decodeCommand w).toOption = none) = true := by decide
theorem test_decode_vectors : decodeVector 0 = .irqRx ∧ decodeVector 1 = .irqUdre := by decide
theorem test_vector_table : routeVector 2 4 = some .irqRx ∧ routeVector 2 5 = some .irqUdre ∧
    routeVector 2 3 = none ∧ routeVector 2 6 = none := by decide
theorem test_table_word :
    decodeTableWord 48 0x010600002580 = some (.beginLine 9600 0x06) ∧ decodeTableWord 8 1 = some .irqUdre ∧
    decodeTableWord 8 2 = none ∧ decodeTableWord 48 0x0A0000000000 = none := by decide
theorem test_responses :
    Response.done.encode = 0x00000 ∧ (Response.val 255).encode = 0x100FF ∧ Response.none.encode = 0x20000 ∧
    (Response.some 0).encode = 0x30000 ∧ (Response.some 0xFF).encode = 0x300FF := by decide

/-! ### Reset and memory -/

theorem test_reset_memory : State.reset.rxBuf.wf = true ∧ State.reset.txBuf.wf = true := by decide
theorem test_memory_write :
    Memory.write [(1, 0x11), (3, 0x33)] 2 0x22 = [(1, 0x11), (2, 0x22), (3, 0x33)] ∧
    Memory.write [(1, 0x11), (3, 0x33)] 3 0x44 = [(1, 0x11), (3, 0x44)] ∧
    Memory.read [(1, 0x11), (3, 0x33)] 2 = none := by decide

/-! ### Rings (section 2.1) -/

/-- V7 and V8. -/
theorem test_push_wraps : (after (tryPush .tx 0x5A (rings (0, 0) (3, 1) [] []))).map
      (fun r => (r.1, r.2.txHead, r.2.txBuf, count .tx r.2)) = some (true, 0, [(3, 0x5A)], 3) ∧
    after (tryPush .tx 0x01 (rings (0, 0) (0, 1) [] [])) = some (false, rings (0, 0) (0, 1) [] []) := by decide
/-- V17: the sum 399 does not wrap at 8 bits. -/
theorem test_count_wide : count .rx (capacity 200 (rings (199, 0) (0, 0) [] [])) = 199 ∧
    freeSlots .rx (capacity 8 (rings (2, 6) (0, 0) [] [])) = 3 := by decide

/-! ### Line control -/

/-- V77, in both line states. -/
theorem test_ready : (after (exec .ready { State.reset with fg := .ready })).map (·.responses) = some [.val 1] ∧
    (after (exec .ready { active with fg := .ready })).map (·.responses) = some [.val 1] := by decide
/-- V20, P1 step 1. -/
theorem test_begin : (after (exec (.beginLine 9600 0x06)
      { State.reset with fg := .beginLine 9600 0x06 .s1 })).map
        (fun t => (t.bus, t.line, t.brh, t.brl, t.csc, t.csb)) =
    some ([.wr .brh 0x00, .wr .brl 0x67, .wr .csc 0x06, .rd .csb 0x00, .wr .csb 0x98], .active,
      0x00, 0x67, 0x06, 0x98) := by decide
/-- V106: bits of CSB no rule names are kept. -/
theorem test_begin_keeps_bits : (after (exec (.beginLine 9600 0x06)
      { State.reset with csb := 0x44, fg := .beginLine 9600 0x06 .s1 })).map (·.csb) = some 0xDC := by decide
/-- V76, step E1. -/
theorem test_end : (after (exec .endLine
      { rings (2, 0) (3, 3) [] [] with written := true, txc := true, fg := .endLine .e1 })).map
        (fun t => (t.bus, t.line, t.rxHead, t.txHead, t.written)) =
    some ([.rd .csb 0x98, .wr .csb 0x00], .uninitialized, 0, 0, true) := by decide
/-- V76a. -/
theorem test_end_keeps_bits : (after (exec .endLine { active with csb := 0xDC, fg := .endLine .e1 })).map
    (·.csb) = some 0x44 := by decide
/-- V82. -/
theorem test_attach : (after (exec (.attach 2) { State.reset with hook := some 1, fg := .attach 2 .s1 })).map
    (·.hook) = some (some 2) := by decide
/-- V81. -/
theorem test_detach : (after (exec .detach { State.reset with hook := some 1, fg := .attach 0 .s1 })).map
    (fun t => (t.hook, t.bus)) = some (none, []) := by decide
/-- V79: refused in the reset state. -/
theorem test_refusals : refusal (exec (.write 0x41) State.reset) = some .commandNotAdmitted ∧
    refusal (exec .flush State.reset) = some .commandNotAdmitted ∧
    refusal (exec .endLine State.reset) = some .commandNotAdmitted := by decide

/-! ### Data path -/

/-- V83. -/
theorem test_avail : (after (exec .avail { capacity 8 (rings (2, 6) (0, 0) [] []) with
    fg := .avail (.s2 2 6) })).map (·.responses) = some [.val 4] := by decide
/-- V85. -/
theorem test_peek : (after (exec .peek { rings (2, 1) (0, 0) [(1, 0x41)] [] with fg := .peek (.s2 1) })).map
    (fun t => (t.fg, t.rxTail)) = some (.peek (.s3 0x41), 1) := by decide
/-- V84. -/
theorem test_peek_empty : (after (exec .peek { active with fg := .peek .s1 })).map (·.responses) =
    some [.none] := by decide
/-- V86, step S3. -/
theorem test_read : (after (exec .read { rings (0, 3) (0, 0) [(3, 0x5A)] [] with
    fg := .read (.s3 3 0x5A) })).map (fun t => (t.fg, t.rxTail)) = some (.read (.s4 0x5A), 0) := by decide
/-- V90: a byte that came between S1 and S3 is not affected by the pop. -/
theorem test_read_full : (after (exec .read { rings (3, 0) (0, 0) [] [] with
    fg := .read (.s3 0 0x10) })).map (fun t => (t.rxHead, t.rxTail)) = some (3, 1) := by decide
/-- V87. -/
theorem test_availw : (after (exec .availw { capacity 8 (rings (0, 0) (2, 6) [] []) with
    fg := .availw (.s2 2 6) })).map (·.responses) = some [.val 3] := by decide
/-- V64, step W4. -/
theorem test_write : (after (exec (.write 0x41) { rings (0, 0) (0, 0) [] [(0, 0x41)] with
      fg := .write 0x41 (.w4 0 1) })).map (fun t => (t.bus, t.txHead, t.written)) =
    some ([.rd .csb 0x98, .wr .csb 0xB8], 1, true) := by decide
/-- V69, step W2: the fallback sends the oldest byte and, emptying the ring, clears UDRIE. -/
theorem test_write_fallback : (after (exec (.write 0xA2)
      { capacity 2 (rings (0, 0) (1, 0) [] [(0, 0xA1)]) with gie := false, fg := .write 0xA2 .w2 })).map
        (fun t => (t.bus, t.fg, t.txTail)) =
    some ([.rd .csa 0x20, .wr .dr 0xA1, .rd .csa 0x00, .wr .csa 0x40, .rd .csb 0xB8, .wr .csb 0x98],
      .write 0xA2 .w1, 1) := by decide
/-- V71. -/
theorem test_flush : (after (exec .flush { rings (0, 0) (3, 3) [] [] with
      written := true, txc := true, fg := .flush .f3 })).map (fun t => (t.bus, t.responses, t.txc)) =
    some ([.rd .csa 0x60], [.done], true) := by decide
/-- V72: transmission not complete. -/
theorem test_flush_waits : (after (exec .flush { rings (0, 0) (3, 3) [] [] with
      written := true, txShift := some 0x43, fg := .flush .f3 })).map (fun t => (t.bus, t.fg)) =
    some ([.rd .csa 0x20], .flush .f2) := by decide

/-! ### Handlers -/

/-- V55: stored in spite of the parity error, because a hook that is installed decides. -/
theorem test_irqRx_hook : (after (exec .irqRx { rings (1, 0) (0, 0) [] [] with
      hook := some 7, hookIn := [true], rxWait := some ⟨0x42, true⟩ })).map
        (fun t => (t.bus, t.hookCalls, t.rxHead, t.rxBuf)) =
    some ([.rd .csa 0xA4, .rd .dr 0x42], [⟨7, 0x42, 0xA4, true⟩], 2, [(1, 0x42)]) := by decide
/-- V56b: the head wraps, a zero byte is data, and UDRE is 0 while a byte is held. -/
theorem test_irqRx_wraps : (after (exec .irqRx { rings (3, 3) (0, 0) [] [] with
      rxWait := some ⟨0x00, false⟩, txHold := some 0x01 })).map
        (fun t => (t.bus, t.rxHead, t.rxBuf, t.rxWait)) =
    some ([.rd .csa 0x80, .rd .dr 0x00], 0, [(3, 0x00)], none) := by decide
/-- V59: both kept bits survive, the ring is now empty. -/
theorem test_irqUdre : (after (exec .irqUdre { rings (0, 0) (1, 0) [] [(0, 0x99)] with
      txc := true, u2x := true, mpcm := true })).map (fun t => (t.bus, t.txTail, t.txHold, t.txc, t.csb)) =
    some ([.wr .dr 0x99, .rd .csa 0x43, .wr .csa 0x43, .rd .csb 0xB8, .wr .csb 0x98], 1, some 0x99, false,
      0x98) := by decide
/-- V63. -/
theorem test_irqUdre_empty : faultOf (exec .irqUdre { rings (0, 0) (2, 2) [] [] with csb := 0xB8 }) =
    some .txBodyOnEmptyRing := by decide
/-- V61, at the draws the vector lists, with and without the multiprocessor bit. -/
theorem test_value_written_to_csa :
    ([0xFF, 0x00, 0x9C, 0x01, 0x22] : List Byte).map
      (fun v => (clearTxcValue Config.default (Csa.ofImage Config.default v)).image Config.default) =
        [0x43, 0x40, 0x40, 0x41, 0x42] ∧
    ([0xFF, 0x00, 0x9C, 0x01, 0x22] : List Byte).map
      (fun v => (v &&& keepA { Config.default with hasMpcm := false }) ||| bitMask Config.default.pTxc) =
        [0x42, 0x40, 0x40, 0x40, 0x42] := by decide
/-- V91, V92, V94. -/
theorem test_enabled :
    handlerEnabled { active with rxWait := some ⟨0, false⟩ } .irqRx = true ∧
    handlerEnabled { active with rxWait := some ⟨0, false⟩ } .irqUdre = false ∧
    handlerEnabled { rings (0, 0) (1, 0) [] [] with rxWait := some ⟨0, false⟩ } .irqUdre = true ∧
    handlerEnabled { active with rxWait := some ⟨0, false⟩, gie := false } .irqRx = false := by decide

/-! ### The unit and the step -/

/-- P1 steps 9 and 15: TXC rises only if nothing is held. -/
theorem test_done : (after (unitDone { active with txShift := some 0x41, txHold := some 0x42 })).map
      (fun t => (t.wireOut, t.txc, t.txHold)) = some ([0x41], false, some 0x42) ∧
    (after (unitDone { active with txShift := some 0x43 })).map (fun t => (t.wireOut, t.txc)) =
      some ([0x43], true) := by decide
/-- P1 step 7, P2 step 2, and U15. -/
theorem test_load_receive : (after (unitLoad { active with txHold := some 0x41 })).map
      (fun t => (t.txShift, t.txHold)) = some (some 0x41, none) ∧
    (after (unitReceive 0x10 false active)).map (·.rxWait) = some (some ⟨0x10, false⟩) ∧
    refusal (unitReceive 0x10 false { active with rxWait := some ⟨0x11, false⟩ }) = some .moveNotEnabled := by
  decide
/-- A word laid for the next step is taken by it. -/
theorem test_withFetchWord :
    (after (step (State.reset.withFetchWord 48 0x084100000000))).map (·.fg) = some (.write 0x41 .w1) ∧
    (after (step (State.reset.withFetchWord 8 1))).map (fun t => (t.txHold, t.txTail)) = some (some 0, 1) := by
  decide

/-- R182: the lines share `gie`. -/
theorem test_other_line :
    refusal (step { active with gie := false, sched := [.irq 2] }) = some .moveNotEnabled ∧
    after (step { active with sched := [.irq 2] }) = some active := by decide

/-! ### Witnesses: for every obligation with hypotheses, inputs that meet them together -/

/-- An active line with two bytes in each ring, a third one stored in TXB but not published, one in the shifter and
something written. -/
def busy : State :=
  { rings (2, 0) (2, 0) [(0, 0x31), (1, 0x32)] [(0, 0x41), (1, 0x42), (2, 0x43)] with
    written := true, txShift := some 0x40, drawIn := [0, 0, 0, 0] }

theorem busy_idle : BlockInv busy where
  config := by decide
  rxIndices := by decide
  txIndices := by decide
  rxStorage := by constructor <;> decide
  txStorage := by constructor <;> decide
  hookHandle := by decide
  udrieIff := by decide
  uninitialized := by intro hl; exact absurd hl (by decide)
  active := by intro _; decide
  rxWritten := by
    intro i hi
    have h4 : i < 4 := hi.1
    have h2 := hi.2
    interval_cases i
    · rfl
    · rfl
    · exact absurd h2 (by decide)
    · exact absurd h2 (by decide)
  txWritten := by
    intro i hi
    have h4 : i < 4 := hi.1
    have h2 := hi.2
    interval_cases i
    · rfl
    · rfl
    · exact absurd h2 (by decide)
    · exact absurd h2 (by decide)
  txcIdle := by intro hc; exact absurd hc (by decide)
  onItsWay := by intro _; exact .inl (by decide)
  sequencer := trivial

/-- Everything of the invariant but the label holds of `busy` whatever FG, HOST and the receiver do. -/
theorem busy_inv (f : Fg) (on : Bool) (moves : List Move) (w : Option RxByte)
    (h : sequencerOk { busy with fg := f, gie := on, sched := moves, rxWait := w }) :
    BlockInv { busy with fg := f, gie := on, sched := moves, rxWait := w } :=
  { busy_idle with sequencer := h }

/-- An active line whose transmission is complete. -/
def sent : State :=
  { rings (0, 0) (3, 3) [] [] with written := true, txc := true, wireOut := [0x41], drawIn := [0, 0, 0, 0] }

theorem not_occupied (c h i : Nat) : ¬ occupied c h h i := by simp [occupied]

theorem sent_idle : BlockInv sent where
  config := by decide
  rxIndices := by decide
  txIndices := by decide
  rxStorage := by constructor <;> decide
  txStorage := by constructor <;> decide
  hookHandle := by decide
  udrieIff := by decide
  uninitialized := by intro hl; exact absurd hl (by decide)
  active := by intro _; decide
  rxWritten := by intro i hi; exact absurd hi (not_occupied 4 0 i)
  txWritten := by intro i hi; exact absurd hi (not_occupied 4 3 i)
  txcIdle := by intro _; exact ⟨rfl, rfl⟩
  onItsWay := by intro _; exact .inr (.inr (.inr rfl))
  sequencer := trivial

theorem sent_inv (f : Fg) (moves : List Move) (h : sequencerOk { sent with fg := f, sched := moves }) :
    BlockInv { sent with fg := f, sched := moves } :=
  { sent_idle with sequencer := h }

theorem reset_resetState (p : Params) : ResetState (State.resetWith p) := by
  constructor <;> simp [State.resetWith, storageOk, Memory.wf, Machine.rxcie, Machine.udrie, bitOf]

theorem witness_DecodeEncodeInverse :
    decode (.command 0x08FF00000000) = .ok (.write 0xFF) ∧ decode (.vector 1) = .ok .irqUdre := by decide

theorem witness_InvalidWordsChangeNothing :
    let s : State := { State.reset with sched := [.present 0x0A0000000000] }
    let u : State := { State.reset with sched := [.present 0x010600000000] }
    (s.cfg.ok = true ∧ s.fg = .idle ∧ decodeCommand 0x0A0000000000 = .error (.reservedOpcode 0x0A)) ∧
    decodeCommand 0x020000000001 = .error (.unusedFieldNotZero 0x02) ∧
    (u.cfg.ok = true ∧ u.fg = .idle ∧ (0x010600000000 : CommandWord).toNat / 2 ^ 40 = 0x01 ∧
      beginOk u.cfg 0 0x06 = false) := by decide

theorem witness_ResponseWordLayout : 0 < 2 ^ 16 ∧ 65535 < 2 ^ 16 := by decide

/-- Room at the last cell, and a full ring, of each ring. -/
theorem witness_PushStoresAndPublishes :
    let room := rings (3, 3) (3, 3) [] []
    let full := rings (3, 0) (3, 0) [] []
    (room.rxHead < room.cfg.cRx ∧ (room.rxHead + 1) % room.cfg.cRx ≠ room.rxTail) ∧
    (full.rxHead < full.cfg.cRx ∧ (full.rxHead + 1) % full.cfg.cRx = full.rxTail) ∧
    (room.txHead < room.cfg.cTx ∧ (room.txHead + 1) % room.cfg.cTx ≠ room.txTail) ∧
    (full.txHead < full.cfg.cTx ∧ (full.txHead + 1) % full.cfg.cTx = full.txTail) := by decide

theorem witness_PopAndPeekGiveTheOldestByte :
    let full := rings (2, 3) (2, 3) [(3, 1)] [(3, 2)]
    full.rxTail < full.cfg.cRx ∧ full.rxHead ≠ full.rxTail ∧ full.txTail < full.cfg.cTx ∧
    full.txHead ≠ full.txTail ∧ active.rxTail < active.cfg.cRx ∧ active.rxHead = active.rxTail := by decide

/-- Empty, full, and in between with the head below the tail. -/
theorem witness_CountAndFreeSlots :
    ([rings (3, 3) (0, 0) [] [], rings (2, 3) (0, 0) [] [], rings (1, 3) (0, 0) [] []] : List State).all
      (fun s => decide (ringHead .rx s < ringCap .rx s ∧ ringTail .rx s < ringCap .rx s)) = true := by decide

theorem witness_FifoLaw :
    let s := rings (3, 3) (0, 0) [] []
    ringHead .rx s < ringCap .rx s ∧ ringHead .rx s = ringTail .rx s ∧
      ([1, 2, 3] : List Byte).length < ringCap .rx s := by decide

theorem witness_FullBufferAndCountAccuracy :
    let e := rings (3, 3) (0, 0) [] []
    let f := rings (2, 3) (0, 0) [] []
    (2 ≤ ringCap .rx f ∧ ringHead .rx f < ringCap .rx f ∧ ringTail .rx f < ringCap .rx f ∧
      count .rx f = ringCap .rx f - 1 ∧ count .rx f ≠ 0) ∧
    (2 ≤ ringCap .rx e ∧ ringHead .rx e < ringCap .rx e ∧ ringTail .rx e < ringCap .rx e ∧ count .rx e = 0 ∧
      ([1, 2, 3] : List Byte).length < ringCap .rx e) := by decide

theorem witness_RingContentsAfterPushAndPop :
    let s := rings (1, 3) (0, 0) [(0, 2), (3, 1)] []
    (ringHead .rx s < ringCap .rx s ∧ ringTail .rx s < ringCap .rx s) ∧
    (after (tryPush .rx 7 s)).map (·.1) = some true ∧ (after (tryPop .rx s)).map (·.1) = some (some 1) := by
  decide

theorem witness_StatusImage :
    active.cfg.ok = true ∧ bitOf (csaNamed active.cfg) 3 = false ∧ bitOf (csaNamed active.cfg) 4 = false := by
  decide

theorem witness_DataRegister :
    active.rxWait = none ∧ active.txHold = none ∧
    ({ active with rxWait := some ⟨5, true⟩ } : State).rxWait = some ⟨5, true⟩ ∧
    ({ active with txHold := some 5 } : State).txHold ≠ none := by decide

theorem witness_RegisterWritesAndBitUpdates : Reg.brh ≠ .csa ∧ Reg.brh ≠ .dr := by decide

theorem witness_UnitSteps :
    (bitOf active.csb active.cfg.pRxen = true ∧ active.rxWait = none) ∧
    (let s : State := { active with txHold := some 1 }
     bitOf s.csb s.cfg.pTxen = true ∧ s.txHold ≠ none ∧ s.txShift = none) ∧
    ({ active with txShift := some 1 } : State).txShift = some 1 := by decide

theorem witness_InterruptRequests : active.cfg.ok = true ∧ irqUdreRequest busy = true := by decide

theorem witness_ReadyAnswersOne :
    State.reset.fg = .idle ∧ ({ active with fg := .ready } : State).fg = .ready := by decide

/-- The tie, and a clock below it. -/
theorem witness_DivisorRoundsHalfUp : divisor 8 1 = 0 ∧ divisor 7 1 = -1 ∧ 7 < 8 * 1 ∧ ¬ 8 < 8 * 1 := by decide

theorem witness_BeginWellFormedness :
    beginOk active.cfg 16 0x3E = true ∧ beginOk active.cfg 15 0x3E = false ∧ 1 ≤ (15 : BitVec 32).toNat := by
  decide

theorem witness_BeginConfiguresTheLine :
    State.reset.cfg.ok = true ∧ beginOk State.reset.cfg 2000000 0x00 = true ∧ beginOk State.reset.cfg 16 0x06 = true ∧
    State.reset.fg = .idle ∧
    ({ active with fg := .beginLine 16 0x06 .s1 } : State).fg = .beginLine 16 0x06 .s1 := by decide

theorem witness_EndClosesTheLine :
    active.fg = .idle ∧ active.line = .active ∧ active.written = false ∧
    ({ active with fg := .endLine .e1 } : State).fg = .endLine .e1 := by decide

/-- A step that goes on, and one that ends the flush part. -/
theorem witness_EndDrainsAsFlush :
    (∃ t, exec .flush { busy with fg := .flush .f2 } = .next t ∧ t.fg = .flush .f4) ∧
    (∃ t, exec .flush { sent with fg := .flush .f3 } = .next t ∧ t.fg = .idle) := ⟨⟨_, rfl, rfl⟩, ⟨_, rfl, rfl⟩⟩

theorem witness_AttachReplacesTheHook :
    State.reset.fg = .idle ∧ ({ active with fg := .attach 0 .s1 } : State).fg = .attach 0 .s1 ∧
    ({ active with fg := .attach 2 .s2 } : State).fg = .attach 2 .s2 := by decide

theorem witness_AvailAndAvailwCount :
    (let s : State := { active with fg := .avail (.s2 0 3) }
     s.fg = .avail (.s2 0 3) ∧ 3 ≤ s.cfg.cRx) ∧
    (let s : State := { active with fg := .availw (.s2 3 0) }
     s.fg = .availw (.s2 3 0) ∧ 0 ≤ s.cfg.cTx) ∧ active.fg = .idle := by decide

/-- Each label, the snapshots at the last cell; an empty ring and one that is not. -/
theorem witness_PeekGivesTheOldestByte :
    (active.fg = .idle ∧ active.rxHead = active.rxTail) ∧
    (busy.fg = .idle ∧ busy.rxHead ≠ busy.rxTail ∧ busy.rxTail < busy.cfg.cRx) ∧
    (let s : State := { busy with fg := .peek (.s2 3) }
     s.fg = .peek (.s2 3) ∧ 3 < s.cfg.cRx) ∧
    ({ busy with fg := .peek (.s3 0x31) } : State).fg = .peek (.s3 0x31) := by decide

theorem witness_ReadTakesTheOldestByte :
    (active.fg = .idle ∧ active.rxHead = active.rxTail) ∧
    (busy.fg = .idle ∧ busy.rxHead ≠ busy.rxTail ∧ busy.rxTail < busy.cfg.cRx) ∧
    (let s : State := { busy with fg := .read (.s2 3) }
     s.fg = .read (.s2 3) ∧ 3 < s.cfg.cRx) ∧
    ({ busy with fg := .read (.s3 3 0x31) } : State).fg = .read (.s3 3 0x31) ∧
    ({ busy with fg := .read (.s4 0x31) } : State).fg = .read (.s4 0x31) := by decide

theorem witness_ReadIsTryPop :
    BlockInv { busy with fg := .read (.s3 0 0x31), gie := true, sched := [], rxWait := none } ∧
    BlockInv { sent with fg := .read .s1, sched := [] } ∧
    tryPop .rx { sent with fg := .read .s1, sched := [] } = .next (none, { sent with fg := .read .s1, sched := [] }) :=
  ⟨busy_inv _ _ _ _ (by simp only [sequencerOk]; decide), sent_inv _ _ trivial, rfl⟩

/-- Each label, at the last cell; a full ring and one with room. -/
theorem witness_WriteQueuesTheByte :
    (busy.fg = .idle ∧ busy.line = .active ∧ busy.txHead < busy.cfg.cTx ∧
      (busy.txHead + 1) % busy.cfg.cTx ≠ busy.txTail) ∧
    (let s : State := { rings (0, 0) (3, 0) [] [] with fg := .write 7 .w1 }
     s.fg = .write 7 .w1 ∧ (s.txHead + 1) % s.cfg.cTx = s.txTail) ∧
    (let s : State := { active with fg := .write 7 .w2 }
     s.fg = .write 7 .w2 ∧ s.gie = true) ∧
    (let s : State := { active with fg := .write 7 (.w3 3 0) }
     s.fg = .write 7 (.w3 3 0) ∧ 3 < s.cfg.cTx) ∧
    ({ active with fg := .write 7 (.w4 3 0) } : State).fg = .write 7 (.w4 3 0) ∧
    ({ active with fg := .write 7 .w5 } : State).fg = .write 7 .w5 := by decide

/-- At W2, and at F4 of FLUSH and of END's drain with the polling variant; DR held and free. -/
theorem witness_MaskedFallbackRunsTheBody :
    let s : State := { busy with gie := false, fg := .write 7 .w2 }
    let p : Params := { Config.default with flushPollsWhenMasked := true }
    let f : State := { busy with gie := false, fg := .flush .f4, cfg := p }
    let e : State := { busy with gie := false, fg := .endLine (.drain .f4), cfg := p }
    (s.cfg.ok = true ∧ s.gie = false ∧ s.fg.command? = some (.write 7) ∧ fallbackTo s = some (.write 7 .w1) ∧
      s.txHold = none ∧ s.txHead ≠ s.txTail ∧ s.txTail < s.cfg.cTx) ∧
    (f.cfg.ok = true ∧ f.gie = false ∧ f.fg.command? = some .flush ∧ fallbackTo f = some (.flush .f2)) ∧
    (e.fg.command? = some .endLine ∧ fallbackTo e = some (.endLine (.drain .f2))) ∧
    ({ s with txHold := some 1 } : State).txHold ≠ none := by decide

theorem witness_WriteFallbackCompletes :
    let s : State := { rings (0, 0) (3, 0) [] [(0, 1), (1, 2), (2, 3)] with gie := false }
    s.cfg.ok = true ∧ s.fg = .idle ∧ s.line = .active ∧ s.gie = false ∧ s.txHead < s.cfg.cTx ∧
      s.txTail < s.cfg.cTx ∧ (s.txHead + 1) % s.cfg.cTx = s.txTail ∧ s.txHold = none := by decide

theorem witness_FlushWaitsForTransmitComplete :
    (active.fg = .idle ∧ active.line = .active ∧ active.written = false) ∧
    (let s : State := { sent with fg := .flush .f1 }
     s.fg = .flush .f1 ∧ s.written = true) ∧
    (let s : State := { sent with fg := .flush .f3 }
     s.fg = .flush .f3 ∧ s.cfg.ok = true ∧ s.txc = true) ∧
    (let s : State := { busy with fg := .flush .f4, gie := false }
     s.fg = .flush .f4 ∧ (s.gie = true ∨ s.cfg.flushPollsWhenMasked = false)) := by decide

theorem witness_BlockedLoopsStutter :
    (let s : State := { rings (0, 0) (3, 0) [] [] with fg := .write 7 .w1 }
     s.fg = .write 7 .w1 ∧ (s.txHead + 1) % s.cfg.cTx = s.txTail ∧ s.gie = true) ∧
    (let s : State := { busy with fg := .flush .f2 }
     s.fg = .flush .f2 ∧ s.txHead ≠ s.txTail ∧ (s.gie = true ∨ s.cfg.flushPollsWhenMasked = false)) ∧
    (let s : State := { sent with fg := .flush .f2, txc := false }
     s.fg = .flush .f2 ∧ s.txHead = s.txTail ∧ s.txc = false) := by decide

/-- With and without a hook, at the last cell, on a ring with room and on a full one. -/
theorem witness_ReceiveHandler :
    let s : State := { rings (3, 3) (0, 0) [] [] with rxWait := some ⟨7, true⟩ }
    let f : State := { rings (3, 0) (0, 0) [] [] with hook := some 1, hookIn := [true], rxWait := some ⟨7, true⟩ }
    (s.cfg.ok = true ∧ s.rxHead < s.cfg.cRx ∧ s.hook = none ∧ s.rxWait = some ⟨7, true⟩) ∧
    (f.cfg.ok = true ∧ f.rxHead < f.cfg.cRx ∧ f.hook = some 1 ∧ f.hookIn = [true]) := by decide

theorem witness_ReceiveOutcomes :
    let s : State := { rings (3, 3) (0, 0) [] [] with rxWait := some ⟨7, false⟩ }
    let f : State := { rings (3, 0) (0, 0) [] [] with hook := some 1, hookIn := [true], rxWait := some ⟨7, true⟩ }
    (s.cfg.ok = true ∧ s.rxHead < s.cfg.cRx ∧ s.rxTail < s.cfg.cRx ∧ s.hook = none ∧ upeOf s.rxWait = false ∧
      count .rx s < s.cfg.cRx - 1) ∧
    (f.cfg.ok = true ∧ f.rxHead < f.cfg.cRx ∧ f.rxTail < f.cfg.cRx ∧ f.hook = some 1 ∧
      count .rx f = f.cfg.cRx - 1) ∧
    (∃ t, exec .irqRx s = .next t) ∧ (∃ t, exec .irqRx f = .next t) :=
  ⟨by decide, by decide, ⟨_, rfl⟩, ⟨_, rfl⟩⟩

/-- An empty ring; the last byte at the last cell. -/
theorem witness_TransmitHandler :
    let s := rings (0, 0) (0, 3) [] [(3, 0x7E)]
    (active.cfg.ok = true ∧ active.txHead = active.txTail) ∧
    (s.cfg.ok = true ∧ s.txHead ≠ s.txTail ∧ s.txTail < s.cfg.cTx ∧ s.txHold = none) := by decide

theorem witness_ValueWrittenToControlA :
    let s := rings (0, 0) (0, 3) [] [(3, 0x7E)]
    s.cfg.ok = true ∧ ∃ t, exec .irqUdre s = .next t := ⟨by decide, _, rfl⟩

theorem witness_TransmitBodyFaults :
    active.txHead = active.txTail ∧
    (let s : State := { busy with txHold := some 1 }
     s.txHead ≠ s.txTail ∧ s.txTail < s.cfg.cTx ∧ s.txHold ≠ none) := by decide

theorem witness_HandlersKeepTheForeground :
    busy.cfg.ok = true ∧ (∃ t, exec (decodeVector 0) busy = .next t) ∧ ∃ t, exec (decodeVector 1) busy = .next t :=
  ⟨by decide, ⟨_, rfl⟩, ⟨_, rfl⟩⟩

theorem witness_HandlersCommute :
    let s : State := { busy with rxWait := some ⟨7, false⟩ }
    let h : State := { s with hook := some 1, hookIn := [true] }
    (s.cfg.ok = true ∧ s.rxHead < s.cfg.cRx ∧ s.txTail < s.cfg.cTx ∧ s.txHead ≠ s.txTail ∧ s.txHold = none ∧
      s.rxWait ≠ none ∧ s.hook = none) ∧ h.hookIn ≠ [] := by decide

theorem witness_StepRunsTheInstruction :
    let s : State := { State.reset with sched := [.present 0x000000000000] }
    let r : State := { busy with sched := [.fg], fg := .flush .f2 }
    let q : State := { busy with sched := [.irq 0], rxWait := some ⟨7, false⟩ }
    let e : State := { busy with sched := [.irq 1] }
    (s.cfg.ok = true ∧ s.fg = .idle ∧ decodeCommand 0x000000000000 = .ok .ready) ∧
    (r.cfg.ok = true ∧ r.fg.command? = some .flush) ∧
    (q.cfg.ok = true ∧ q.gie = true ∧ 2 * q.cfg.lineId + (0 : BitVec 1).toNat = 0 ∧ irqRxRequest q = true) ∧
    (e.cfg.ok = true ∧ e.gie = true ∧ 2 * e.cfg.lineId + (1 : BitVec 1).toNat = 1 ∧ irqUdreRequest e = true) := by
  decide

theorem witness_DispatchOfHandlers :
    let s : State := { State.reset with sched := [.irq 0] }
    s.cfg.ok = true ∧ (0 = 2 * s.cfg.lineId ∧ (s.gie && bitOf s.csb s.cfg.pRxcie && s.rxWait.isSome) = false) ∧
    (1 = 2 * s.cfg.lineId + 1 ∧ (s.gie && bitOf s.csb s.cfg.pUdrie && s.txHold.isNone) = false) ∧
    (2 ≠ 2 * s.cfg.lineId ∧ 2 ≠ 2 * s.cfg.lineId + 1 ∧ s.gie = false) ∧ ({ s with gie := true } : State).gie = true := by
  decide

/-- The invariant in the reset state. -/
theorem reset_inv : BlockInv State.reset where
  config := by decide
  rxIndices := by decide
  txIndices := by decide
  rxStorage := by constructor <;> decide
  txStorage := by constructor <;> decide
  hookHandle := by decide
  udrieIff := by decide
  uninitialized := by intro _; decide
  active := by intro hl; exact absurd hl (by decide)
  rxWritten := by intro i hi; exact absurd hi (not_occupied 4 0 i)
  txWritten := by intro i hi; exact absurd hi (not_occupied 4 0 i)
  txcIdle := by intro hc; exact absurd hc (by decide)
  onItsWay := by intro hw; exact absurd hw (by decide)
  sequencer := trivial

theorem witness_AdmissionTable :
    (State.reset.fg = .idle ∧ State.reset.line = .uninitialized ∧ BlockInv State.reset) ∧
    (active.fg = .idle ∧ (Instr.write 7).wellFormed active.cfg = true ∧ active.line = .active) ∧
    (Instr.beginLine 16 0x06).wellFormed State.reset.cfg = true :=
  ⟨⟨rfl, rfl, reset_inv⟩, by decide, by decide⟩

theorem witness_WhatHostMayNotDo :
    let s : State := { active with fg := .ready, sched := [.present 0] }
    let g : State := { active with sched := [.setGie false] }
    let u : State := { active with cfg := { Config.default with cRx := 257, cTx := 1 } }
    (s.cfg.ok = true ∧ s.fg ≠ .idle) ∧ (g.cfg.ok = true ∧ g.fg = .idle) ∧
    (∃ t, step g = .next t ∧ t.gie ≠ g.gie) ∧ 256 < u.cfg.cRx ∧ u.cfg.cTx < 2 :=
  ⟨by decide, by decide, ⟨_, rfl, by decide⟩, by decide, by decide⟩

theorem witness_ResetQueries : ResetState State.reset := reset_resetState _

theorem witness_ResetInv : State.reset.cfg.ok = true ∧ ResetState State.reset := ⟨by decide, reset_resetState _⟩

/-- A handler, a unit step and a labelled step, each from a state with the invariant. -/
theorem witness_StepKeepsInv :
    (let s : State := { busy with fg := .flush .f4, gie := true, sched := [.irq 1], rxWait := none }
     BlockInv s ∧ ∃ t, step s = .next t ∧ t.txTail = 1) ∧
    (let s : State := { busy with fg := .idle, gie := true, sched := [.receive 7 false], rxWait := none }
     BlockInv s ∧ ∃ t, step s = .next t ∧ t.rxWait = some ⟨7, false⟩) ∧
    (let s : State := { sent with fg := .endLine .e1, sched := [.fg] }
     BlockInv s ∧ ∃ t, step s = .next t ∧ t.line = .uninitialized) :=
  ⟨⟨busy_inv _ _ _ _ (by simp only [sequencerOk, flushOk]; decide), _, rfl, rfl⟩, ⟨busy_inv _ _ _ _ trivial, _, rfl, rfl⟩,
    ⟨sent_inv _ _ (by simp only [sequencerOk]; decide), _, rfl, rfl⟩⟩

theorem witness_NoFaultFromInv :
    BlockInv { busy with fg := .write 7 (.w3 2 3), gie := true, sched := [.irq 1], rxWait := none } :=
  busy_inv _ _ _ _ (by simp only [sequencerOk]; decide)

/-- From reset: BEGIN, then WRITE up to W5, and an idle line after BEGIN. -/
theorem witness_TransmitInterruptInvariant :
    let s : State := { State.reset with
      sched := [.present 0x010600002580, .fg, .fg, .present 0x084100000000, .fg, .fg, .fg] }
    s.cfg.ok = true ∧ ResetState s ∧ (∃ t, stepN 7 s = .next t ∧ t.line = .active ∧ udrie t = true) ∧
    ∃ t, stepN 3 s = .next t ∧ t.line = .active ∧ t.fg = .idle :=
  ⟨by decide, { reset_resetState Config.default with }, ⟨_, rfl, rfl, rfl⟩, ⟨_, rfl, rfl, rfl⟩⟩

/-- W4 publishes, E1 drops, the handler moves a byte. -/
theorem witness_TransmitOrder :
    (let s : State := { busy with fg := .write 0x43 (.w4 2 3), gie := true, sched := [], rxWait := none }
     BlockInv s ∧ publishes s = some 0x43 ∧ ∃ t, step s = .next t) ∧
    (let s : State := { sent with fg := .endLine .e1, sched := [] }
     BlockInv s ∧ discards s = true ∧ ∃ t, step s = .next t) ∧
    (let s : State := { busy with fg := .flush .f2, gie := true, sched := [.irq 1], rxWait := none }
     BlockInv s ∧ ∃ t, step s = .next t) :=
  ⟨⟨busy_inv _ _ _ _ (by simp only [sequencerOk]; decide), rfl, _, rfl⟩,
    ⟨sent_inv _ _ (by simp only [sequencerOk]; decide), rfl, _, rfl⟩, ⟨busy_inv _ _ _ _ (by simp only [sequencerOk, flushOk]; decide), _, rfl⟩⟩

theorem witness_FlushMeansEverythingSent :
    let s : State := { sent with fg := .flush .f2, sched := [] }
    BlockInv s ∧ discardsWithin 1 s = false ∧
    ∃ t u, stepN 1 s = .next t ∧ t.fg = .flush .f3 ∧ t.written = true ∧ exec .flush t = .next u ∧ u.fg = .idle :=
  ⟨sent_inv _ _ (by simp only [sequencerOk, flushOk]; decide), rfl, _, _, rfl, rfl, rfl, rfl, rfl⟩

theorem witness_ReceiveOrder :
    BlockInv { busy with fg := .peek (.s3 0x31), gie := true, sched := [], rxWait := none } ∧
    BlockInv { busy with fg := .read (.s3 0 0x31), gie := true, sched := [], rxWait := none } ∧
    (let s : State := { busy with fg := .read (.s3 0 0x31), gie := true, sched := [.irq 0], rxWait := some ⟨7, false⟩ }
     BlockInv s ∧ entersRx s = true ∧ ∃ t, step s = .next t) := by
  refine ⟨busy_inv _ _ _ _ ?_, busy_inv _ _ _ _ ?_, busy_inv _ _ _ _ ?_, rfl, _, rfl⟩
  all_goals simp only [sequencerOk]; decide

theorem witness_CountsAreLowerBounds :
    (let s : State := { busy with fg := .avail (.s2 2 0), gie := true, sched := [], rxWait := none }
     BlockInv s ∧ takesOne s = false ∧ discards s = false ∧ publishes s = none ∧ (∃ t, step s = .next t) ∧
       ∃ t, exec .avail s = .next t) ∧
    (let s : State := { busy with fg := .availw (.s2 2 0), gie := true, sched := [], rxWait := none }
     BlockInv s ∧ ∃ t, exec .availw s = .next t) :=
  ⟨⟨busy_inv _ _ _ _ (by simp only [sequencerOk]; decide), rfl, rfl, rfl, ⟨_, rfl⟩, ⟨_, rfl⟩⟩,
    ⟨busy_inv _ _ _ _ (by simp only [sequencerOk]; decide), ⟨_, rfl⟩⟩⟩

/-- A step that changes each index or storage. -/
theorem witness_IndexAndStorageOwnership :
    stepsTo { busy with sched := [.irq 0], rxWait := some ⟨7, false⟩ }
      (fun t => t.rxHead != busy.rxHead && t.rxBuf != busy.rxBuf) = true ∧
    stepsTo { busy with fg := .read (.s3 0 0x31) } (fun t => t.rxTail != busy.rxTail) = true ∧
    stepsTo { busy with fg := .write 7 (.w4 2 3) } (fun t => t.txHead != busy.txHead) = true ∧
    stepsTo { busy with sched := [.irq 1] } (fun t => t.txTail != busy.txTail) = true ∧
    stepsTo { busy with fg := .write 7 .w2, gie := false } (fun t => t.txTail != busy.txTail) = true ∧
    stepsTo { busy with fg := .write 7 (.w3 2 3) } (fun t => t.txBuf != busy.txBuf) = true := by decide

/-- A step that changes each control register or flag. -/
theorem witness_ControlStateOwnership :
    active.cfg.ok = true ∧ udrie active = false ∧
    stepsTo { active with fg := .write 7 (.w4 0 1) } (fun t => t.written != active.written && udrie t) = true ∧
    stepsTo { active with fg := .attach 9 .s1 } (fun t => t.hook != active.hook) = true ∧
    stepsTo { active with fg := .endLine .e1 }
      (fun t => t.line != active.line && rxcie t != rxcie active) = true ∧
    stepsTo { State.reset with fg := .beginLine 16 0x06 .s1 } (fun t => t.csc != State.reset.csc) = true := by decide

theorem witness_BusTracePerStep :
    (∃ t, exec .flush { sent with fg := .flush .f3 } = .next t) ∧ ∃ t, exec .irqUdre busy = .next t :=
  ⟨⟨_, rfl⟩, ⟨_, rfl⟩⟩

/-- A step that stores in each space, and cells outside the stored one. -/
theorem witness_MemoryFrame :
    let r : State := { busy with rxWait := some ⟨7, false⟩ }
    let w : State := { busy with fg := .write 7 (.w3 2 3) }
    (∃ t, exec .irqRx r = .next t) ∧ storeAddress .irqRx r = some (.rxb, 2) ∧
    (∃ t, exec (.write 7) w = .next t) ∧ storeAddress (.write 7) w = some (.txb, 2) :=
  ⟨⟨_, rfl⟩, rfl, ⟨_, rfl⟩, rfl⟩

end Sys2Proof.Tests
end

section
/-! Which agent's step writes the ring indices and the ring storage (R23, R24): every step has at most one writer,
and each writer touches its own fields only. -/

namespace Sys2Proof.Machine

/-- What the two rings hold: the four indices and the two storage spaces (R21, R22, R24). -/
structure RingFields where
  rxHead : Nat
  rxTail : Nat
  txHead : Nat
  txTail : Nat
  rxBuf  : Memory
  txBuf  : Memory

/-- The ring fields of a state. -/
def ringFields (s : State) : RingFields := ⟨s.rxHead, s.rxTail, s.txHead, s.txTail, s.rxBuf, s.txBuf⟩

/-! ### What the shared operations do to the ring fields -/

/-- A read of CSA leaves the rings alone (R57). -/
theorem ringFields_readCsa (s : State) : ringFields (readCsa s).2 = ringFields s := by
  simp [ringFields]

/-- The transmit-empty body moves the tail of the TX ring and nothing else of the rings (R155). -/
theorem txEmptyBody_ringFields {s t : State} (h : txEmptyBody s = .next t) :
    ringFields t = { ringFields s with txTail := t.txTail } := by
  obtain ⟨-, -, -, rfl⟩ := txEmptyBody_next h
  simp [ringFields]

/-- So does the masked fallback that runs it (R140 step W2, R144 step F4). -/
theorem pumped_ringFields (s : State) :
    ringFields (pumped s) = { ringFields s with txTail := (pumped s).txTail } := by
  simp [ringFields, pumped]

/-- The receive body writes the head and the storage of the RX ring and nothing else of the rings (R151). -/
theorem rxBody_ringFields {s t : State} (h : rxBody s = .next t) :
    ringFields t = { ringFields s with rxHead := t.rxHead, rxBuf := t.rxBuf } := by
  rcases rxBody_next h with rfl | ⟨-, -, -, rfl⟩ <;> simp [ringFields]

/-! ### The writer of a step -/

/-- The agents that may write the ring fields, and the fields each may write (R23, R24). -/
inductive RingWriter (s t : State) : Prop where
  /-- The step touches neither ring. -/
  | nobody (ht : ringFields t = ringFields s)
  /-- IRQ_RX stores a byte and publishes it. -/
  | receiver (hx : entersRx s = true)
      (ht : ringFields t = { ringFields s with rxHead := t.rxHead, rxBuf := t.rxBuf })
  /-- READ releases the oldest byte. -/
  | taker (hp : takesOne s = true) (ht : ringFields t = { ringFields s with rxTail := t.rxTail })
  /-- W3 of WRITE stores its byte. -/
  | storer (hr : runsFg s = true) (hf : ∃ byte h n, s.fg = .write byte (.w3 h n))
      (ht : ringFields t = { ringFields s with txBuf := t.txBuf })
  /-- W4 of WRITE publishes it. -/
  | publisher (hp : (publishes s).isSome = true) (ht : ringFields t = { ringFields s with txHead := t.txHead })
  /-- The transmit-empty body, as IRQ_UDRE or as the masked fallback, releases the oldest byte. -/
  | sender (hb : entersUdre s = true ∨ (runsFg s = true ∧ s.gie = false ∧ (fallbackTo s).isSome = true))
      (ht : ringFields t = { ringFields s with txTail := t.txTail })
  /-- BEGIN or END sets the indices to 0 and leaves the storage. -/
  | discarder (hd : discards s = true) (hrx : t.rxBuf = s.rxBuf) (htx : t.txBuf = s.txBuf)

/-- The writer of a labelled step, wherever the schedule stands after it is taken. -/
theorem LabelStep.ringWriter {s t : State} {rest : List Move} (hr : runsFg s = true)
    (h : LabelStep { s with sched := rest } t) : RingWriter s t := by
  cases h with
  | plain _ ht => exact .nobody (by rw [ht]; rfl)
  | polls _ ht =>
    refine .nobody ?_
    rw [ht]
    exact ringFields_readCsa _
  | attaches _ _ ht => exact .nobody (by rw [ht]; rfl)
  | pumps back _ hb hg _ _ _ ht =>
    have hb' : fallbackTo s = some back := hb
    refine .sender (.inr ⟨hr, hg, by simp [hb']⟩) ?_
    rw [ht]
    exact pumped_ringFields { s with sched := rest }
  | begins baud frame hf ht =>
    have hf' : s.fg = _ := hf
    exact .discarder (by simp [discards, hr, hf', discardsAt]) (by rw [ht]; rfl) (by rw [ht]; rfl)
  | ends hf ht =>
    have hf' : s.fg = _ := hf
    exact .discarder (by simp [discards, hr, hf', discardsAt]) (by rw [ht]; rfl) (by rw [ht]; rfl)
  | takes k b hf ht =>
    have hf' : s.fg = _ := hf
    exact .taker (by simp [takesOne, hr, hf', takesOneAt, ReadPt.takes]) (by rw [ht]; rfl)
  | stores byte h n hf _ ht => exact .storer hr ⟨byte, h, n, hf⟩ (by rw [ht]; rfl)
  | publishes byte h n hf ht =>
    have hf' : s.fg = _ := hf
    exact .publisher (by simp [Machine.publishes, hr, hf', publishesAt, WritePt.publishes]) (by rw [ht]; rfl)

/-- Every step of the machine has one of these writers (R23, R24). -/
theorem StepBy.ringWriter {s t : State} (h : StepBy s t) : RingWriter s t := by
  cases h with
  | waits _ _ ht => exact .nobody (by rw [ht])
  | label i rest hr hi h => exact (exec_labelStep (s := { s with sched := rest }) hi h).ringWriter hr
  | presented _ _ _ _ _ ht => exact .nobody (by rw [ht]; rfl)
  | receives rest _ hx _ _ _ h => exact .receiver hx (rxBody_ringFields (s := { s with sched := rest }) h)
  | transmits rest _ _ hy _ _ h => exact .sender (.inl hy) (txEmptyBody_ringFields (s := { s with sched := rest }) h)
  | unitReceives _ _ _ _ _ _ h =>
    obtain ⟨-, rfl⟩ := unitReceive_next h
    exact .nobody rfl
  | unitLoads _ _ _ _ h =>
    obtain ⟨-, rfl⟩ := unitLoad_next h
    exact .nobody rfl
  | unitDone _ _ _ _ h =>
    obtain ⟨b, -, rfl⟩ := unitDone_next h
    exact .nobody rfl
  | input _ _ _ _ _ ht => exact .nobody (by rw [ht]; rfl)

/-- Settles O56: each writer of `RingWriter` is the one the statement names for the fields it may write. -/
theorem indexAndStorageOwnership : Obligations.IndexAndStorageOwnership := by
  unfold Obligations.IndexAndStorageOwnership
  intro s t h
  cases (step_by h).2.ringWriter with
  | nobody ht =>
    simp only [ringFields, RingFields.mk.injEq] at ht
    simp [ht]
  | receiver hx ht =>
    simp only [ringFields, RingFields.mk.injEq] at ht
    simp [ht, hx]
  | taker hp ht =>
    simp only [ringFields, RingFields.mk.injEq] at ht
    simp [ht, hp]
  | storer hr hf ht =>
    simp only [ringFields, RingFields.mk.injEq] at ht
    simp [ht, hr, hf]
  | publisher hp ht =>
    simp only [ringFields, RingFields.mk.injEq] at ht
    simp [ht, hp]
  | sender hb ht =>
    simp only [ringFields, RingFields.mk.injEq] at ht
    exact ⟨by simp [ht], by simp [ht], by simp [ht], fun _ => hb.imp_right .inr, by simp [ht], by simp [ht]⟩
  | discarder hd hrx htx => simp [hd, hrx, htx]

end Sys2Proof.Machine
end

section
/-! The encoding of the command port (R80 to R84): the decoder accepts exactly the words the encoder makes, which
words it rejects, what the block does with a word presented, and the layout of the responses. -/

namespace Sys2Proof

/-! ### Words by their fields -/

/-- A word is built from these fields exactly where they are its fields. -/
theorem commandWord_eq_iff (op a : Byte) (b : BitVec 32) (w : CommandWord) :
    commandWord op a b = w ↔ op = opField w ∧ a = aField w ∧ b = bField w := by
  constructor
  · rintro rfl
    simp
  · rintro ⟨rfl, rfl, rfl⟩
    exact commandWord_fields w

@[simp] theorem opField_and (w v : CommandWord) : opField (w &&& v) = opField w &&& opField v :=
  BitVec.extractLsb'_and

@[simp] theorem aField_and (w v : CommandWord) : aField (w &&& v) = aField w &&& aField v :=
  BitVec.extractLsb'_and

@[simp] theorem bField_and (w v : CommandWord) : bField (w &&& v) = bField w &&& bField v :=
  BitVec.extractLsb'_and

/-- `a = W[39:32]` as arithmetic on the word (R80). -/
theorem ofNat_aField (w : CommandWord) : BitVec.ofNat 8 (w.toNat / 2 ^ 32) = aField w :=
  BitVec.eq_of_toNat_eq (toNat_fields w).2.1.symm

/-- `b = W[31:0]` as arithmetic on the word (R80). -/
theorem ofNat_bField (w : CommandWord) : BitVec.ofNat 32 w.toNat = bField w :=
  BitVec.eq_of_toNat_eq (toNat_fields w).2.2.symm

/-! ### The masks of R81 -/

/-- `W and mask = match` holds field by field. -/
theorem and_eq_commandWord_iff (w mask : CommandWord) (op a : Byte) (b : BitVec 32) :
    w &&& mask = commandWord op a b ↔
      op = opField w &&& opField mask ∧ a = aField w &&& aField mask ∧ b = bField w &&& bField mask := by
  rw [eq_comm, commandWord_eq_iff, opField_and, aField_and, bField_and]

/-- The full mask leaves one word. -/
theorem and_fullMask_iff (w v : CommandWord) : w &&& BitVec.allOnes 48 = v ↔ v = w := by
  rw [BitVec.and_allOnes, eq_comm]

/-- BEGIN's mask leaves both operands free. -/
theorem and_opMask_iff (w : CommandWord) (op : Byte) :
    w &&& commandWord (BitVec.allOnes 8) 0 0 = commandWord op 0 0 ↔ commandWord op (aField w) (bField w) = w := by
  simp [and_eq_commandWord_iff, commandWord_eq_iff, -BitVec.reduceAllOnes]

/-- WRITE's mask leaves `a` free. -/
theorem and_opAndBMask_iff (w : CommandWord) (op : Byte) :
    w &&& commandWord (BitVec.allOnes 8) 0 (BitVec.allOnes 32) = commandWord op 0 0 ↔
      commandWord op (aField w) 0 = w := by
  simp [and_eq_commandWord_iff, commandWord_eq_iff, -BitVec.reduceAllOnes]

/-- ATTACH's mask leaves `b` free. -/
theorem and_opAndAMask_iff (w : CommandWord) (op : Byte) :
    w &&& commandWord (BitVec.allOnes 8) (BitVec.allOnes 8) 0 = commandWord op 0 0 ↔
      commandWord op 0 (bField w) = w := by
  simp [and_eq_commandWord_iff, commandWord_eq_iff, -BitVec.reduceAllOnes]

/-! ### What the decoder accepts -/

theorem whenUnusedZero_eq_ok_iff {w : CommandWord} {z : Bool} {i j : Instr} :
    whenUnusedZero w z i = .ok j ↔ z = true ∧ i = j := by
  cases z <;> simp [whenUnusedZero]

theorem whenUnusedZero_error_iff {w : CommandWord} {z : Bool} {i : Instr} :
    (∃ e, whenUnusedZero w z i = .error e) ↔ z = false := by
  cases z <;> simp [whenUnusedZero]

/-- A command without operands is accepted only in the word that is its opcode and zeros. -/
theorem encode_of_whenUnusedZero_bare {w : CommandWord} {op : Byte} {i j : Instr}
    (hj : encode j = .command (commandWord op 0 0)) (hop : (opField w).toNat = op.toNat)
    (h : whenUnusedZero w (aField w == 0 && bField w == 0) j = .ok i) : encode i = .command w := by
  obtain ⟨hz, rfl⟩ := whenUnusedZero_eq_ok_iff.1 h
  obtain ⟨ha, hb⟩ : aField w = 0 ∧ bField w = 0 := by simpa using hz
  rw [hj, (commandWord_eq_iff ..).2 ⟨(BitVec.eq_of_toNat_eq hop).symm, ha.symm, hb.symm⟩]

/-- A word that decodes is the word of its instruction. -/
theorem encode_of_decodeCommand {w : CommandWord} {i : Instr} (h : decodeCommand w = .ok i) :
    encode i = .command w := by
  unfold decodeCommand at h
  split at h
  case h_1 hop => exact encode_of_whenUnusedZero_bare (op := 0x00) rfl hop h
  case h_2 hop =>
    obtain rfl := Except.ok.inj h
    exact congrArg _ ((commandWord_eq_iff ..).2 ⟨(BitVec.eq_of_toNat_eq hop).symm, rfl, rfl⟩)
  case h_3 hop => exact encode_of_whenUnusedZero_bare (op := 0x02) rfl hop h
  case h_4 hop => exact encode_of_whenUnusedZero_bare (op := 0x03) rfl hop h
  case h_5 hop => exact encode_of_whenUnusedZero_bare (op := 0x04) rfl hop h
  case h_6 hop => exact encode_of_whenUnusedZero_bare (op := 0x05) rfl hop h
  case h_7 hop => exact encode_of_whenUnusedZero_bare (op := 0x06) rfl hop h
  case h_8 hop => exact encode_of_whenUnusedZero_bare (op := 0x07) rfl hop h
  case h_9 hop =>
    obtain ⟨hb, rfl⟩ := whenUnusedZero_eq_ok_iff.1 h
    exact congrArg _ ((commandWord_eq_iff ..).2 ⟨(BitVec.eq_of_toNat_eq hop).symm, rfl, (eq_of_beq hb).symm⟩)
  case h_10 hop =>
    obtain ⟨ha, rfl⟩ := whenUnusedZero_eq_ok_iff.1 h
    exact congrArg _ ((commandWord_eq_iff ..).2 ⟨(BitVec.eq_of_toNat_eq hop).symm, (eq_of_beq ha).symm, rfl⟩)
  case h_11 => cases h

/-- The word of a command decodes as that command. -/
theorem decodeCommand_of_encode {w : CommandWord} {i : Instr} (h : encode i = .command w) :
    decodeCommand w = .ok i := by
  cases i
  case irqRx | irqUdre => cases h
  all_goals
    obtain rfl := Encoded.command.inj h
    simp [decodeCommand, whenUnusedZero]

/-- A word decodes as a command exactly where it is that command's word (R81). -/
theorem decodeCommand_eq_ok_iff {i : Instr} {v : CommandWord} (hi : encode i = .command v) (w : CommandWord) :
    decodeCommand w = .ok i ↔ v = w := by
  rw [← Encoded.command.injEq, ← hi]
  exact ⟨encode_of_decodeCommand, decodeCommand_of_encode⟩

/-- Settles O2: both sides of each row say that the word is the row's opcode with its operands in the fields the
mask leaves free. -/
theorem matchAndMaskSelectTheCommand : Obligations.MatchAndMaskSelectTheCommand := by
  unfold Obligations.MatchAndMaskSelectTheCommand
  intro w
  have bare {i : Instr} {v : CommandWord} (hi : encode i = .command v) :
      w &&& 0xFFFFFFFFFFFF = v ↔ decodeCommand w = .ok i :=
    (and_fullMask_iff w v).trans (decodeCommand_eq_ok_iff hi w).symm
  rw [ofNat_aField, ofNat_bField]
  exact ⟨bare rfl, (and_opMask_iff w 0x01).trans (decodeCommand_eq_ok_iff rfl w).symm, bare rfl, bare rfl, bare rfl,
    bare rfl, bare rfl, bare rfl, (and_opAndBMask_iff w 0x08).trans (decodeCommand_eq_ok_iff rfl w).symm,
    (and_opAndAMask_iff w 0x09).trans (decodeCommand_eq_ok_iff rfl w).symm⟩

/-! ### What the decoder rejects -/

/-- Every word with opcode 1 is BEGIN (R83e). -/
theorem decodeCommand_begin {w : CommandWord} (h : (opField w).toNat = 1) :
    decodeCommand w = .ok (.beginLine (bField w) (aField w)) := by
  simp [decodeCommand, h]

/-- The rejected words, by their fields (R83). -/
theorem decodeCommand_error_iff (w : CommandWord) : (∃ e, decodeCommand w = .error e) ↔
    0x0A ≤ (opField w).toNat ∨
    ((opField w).toNat ∈ [0x00, 0x02, 0x03, 0x04, 0x05, 0x06, 0x07] ∧ ¬ (aField w = 0 ∧ bField w = 0)) ∨
    ((opField w).toNat = 0x08 ∧ bField w ≠ 0) ∨ ((opField w).toNat = 0x09 ∧ aField w ≠ 0) := by
  unfold decodeCommand
  split
  case h_2 hop => simp [hop]
  case h_11 =>
    simp only [imp_false] at *
    exact iff_of_true ⟨_, rfl⟩ (.inl (by omega))
  all_goals
    rename_i hop
    simp [whenUnusedZero_error_iff, hop]

end Sys2Proof

namespace Sys2Proof.Machine

/-! ### Presenting a word -/

/-- A command presented to an idle foreground is executed, off the schedule (R28). -/
theorem step_present_of_ok {s : State} {w : CommandWord} {rest : List Move} {i : Instr} (hc : s.cfg.ok = true)
    (hf : s.fg = .idle) (hs : s.sched = .present w :: rest) (hi : decodeCommand w = .ok i) :
    step s = exec i { s with sched := rest } := by
  simp [step, stepOnce, hc, hs, runMove, movePresent, hf, hi]

/-- A word that is no command is only taken off the schedule (R83). -/
theorem step_present_of_error {s : State} {w : CommandWord} {rest : List Move} {e : DecodeError}
    (hc : s.cfg.ok = true) (hf : s.fg = .idle) (hs : s.sched = .present w :: rest)
    (he : decodeCommand w = .error e) : step s = .next { s with sched := rest } := by
  simp [step, stepOnce, hc, hs, runMove, movePresent, hf, he]

/-- BEGIN with operands R113 gives no meaning is refused. -/
theorem exec_beginLine_illFormed {s : State} {baud : BitVec 32} {frame : Byte}
    (h : beginOk s.cfg baud frame = false) : exec (.beginLine baud frame) s = .refused .illFormedBegin := by
  simp [exec, execBegin, h]

/-- Settles O3: the rejected words by their fields, then the step of a presented word. -/
theorem invalidWordsChangeNothing : Obligations.InvalidWordsChangeNothing := by
  unfold Obligations.InvalidWordsChangeNothing
  refine ⟨fun w => ?_, fun s w rest e hc hf hs he => ?_, fun s w rest hw => ?_⟩
  · obtain ⟨hop, ha, hb⟩ := toNat_fields w
    have ha0 : aField w = 0 ↔ w.toNat / 2 ^ 32 % 2 ^ 8 = 0 := by rw [← ha, ← BitVec.toNat_inj]; rfl
    have hb0 : bField w = 0 ↔ w.toNat % 2 ^ 32 = 0 := by rw [← hb, ← BitVec.toNat_inj]; rfl
    have hab : w.toNat / 2 ^ 32 % 2 ^ 8 = 0 ∧ w.toNat % 2 ^ 32 = 0 ↔ w.toNat % 2 ^ 40 = 0 := by omega
    rw [decodeCommand_error_iff, hop, Ne, Ne, ha0, hb0, hab]
  · exact step_present_of_error hc hf hs he
  · have hi : decodeCommand w = .ok (.beginLine (bField w) (aField w)) :=
      decodeCommand_begin ((toNat_fields w).1.trans hw)
    refine ⟨_, _, hi, fun hc hf hs hb => ?_⟩
    rw [step_present_of_ok hc hf hs hi]
    exact exec_beginLine_illFormed hb

/-! ### The response word -/

/-- `kind = R[17:16]` and `value = R[15:0]` (R84). -/
theorem responseWord_fields {kind value : Nat} (hk : kind < 2 ^ 2) (hv : value < 2 ^ 16) :
    (responseWord kind value).toNat / 2 ^ 16 = kind ∧ (responseWord kind value).toNat % 2 ^ 16 = value := by
  rw [responseWord, BitVec.toNat_ofNat]
  omega

/-- Settles O5: each response is a kind below 4 and a value of at most 16 bits. -/
theorem responseWordLayout : Obligations.ResponseWordLayout := by
  unfold Obligations.ResponseWordLayout
  exact ⟨responseWord_fields (by decide) (by decide), fun n hn => responseWord_fields (by decide) hn,
    responseWord_fields (by decide) (by decide),
    fun b => responseWord_fields (by decide) (b.isLt.trans (by decide))⟩

end Sys2Proof.Machine
end

section
/-! The RingBuffer component (R100 to R108): what each primitive answers, the count over the integers, and the FIFO
law, by what a push and a pop do to the list of buffered bytes. -/

namespace Sys2Proof.Machine

/-! ### The primitives, both cases at once -/

/-- The state after a byte is stored at the head and published (R100). -/
def ringPushed (q : Ring) (b : Byte) (s : State) : State :=
  setRingHead q (nextIndex (ringCap q s) (ringHead q s)) (setRingBuf q ((ringBuf q s).write (ringHead q s) b) s)

/-- The state after the oldest byte is released (R101). -/
def ringPopped (q : Ring) (s : State) : State := setRingTail q (nextIndex (ringCap q s) (ringTail q s)) s

/-- A push with the head in range (R100). -/
theorem tryPush_eq {q : Ring} {s : State} (b : Byte) (hh : ringHead q s < ringCap q s) :
    tryPush q b s = if nextIndex (ringCap q s) (ringHead q s) = ringTail q s then .next (false, s)
      else .next (true, ringPushed q b s) := by
  split
  next hf => exact tryPush_full b hf
  next hf => exact tryPush_room b hh hf

/-- A pop with the tail in range (R101). -/
theorem tryPop_eq {q : Ring} {s : State} (ht : ringTail q s < ringCap q s) :
    tryPop q s = if ringHead q s = ringTail q s then .next (none, s)
      else .next (some (cellValue (ringSpace q) (ringBuf q s) (ringTail q s)), ringPopped q s) := by
  split
  next he => exact tryPop_empty he
  next he => exact tryPop_some ht he

/-- A peek with the tail in range (R102). -/
theorem peekRing_eq {q : Ring} {s : State} (ht : ringTail q s < ringCap q s) :
    peekRing q s = if ringHead q s = ringTail q s then .next none
      else .next (some (cellValue (ringSpace q) (ringBuf q s) (ringTail q s))) := by
  rw [peekRing, memRead_ring ht, andThen_of_next]

/-- Settles O7: `tryPush_eq` at either ring. -/
theorem pushStoresAndPublishes : Obligations.PushStoresAndPublishes := by
  unfold Obligations.PushStoresAndPublishes
  exact fun b _ => ⟨tryPush_eq (q := .rx) b, tryPush_eq (q := .tx) b⟩

/-- Settles O8: `tryPop_eq` and `peekRing_eq` at either ring. -/
theorem popAndPeekGiveTheOldestByte : Obligations.PopAndPeekGiveTheOldestByte := by
  unfold Obligations.PopAndPeekGiveTheOldestByte
  exact fun _ => ⟨fun ht => ⟨tryPop_eq (q := .rx) ht, peekRing_eq (q := .rx) ht⟩,
    fun ht => ⟨tryPop_eq (q := .tx) ht, peekRing_eq (q := .tx) ht⟩⟩

/-! ### The count and the free space -/

/-- The naturals' `(C + h - t) mod C` is the integers' `(h - t) mod C` (R103). -/
theorem ringCount_cast {c h t : Nat} (ht : t ≤ c) :
    (ringCount c h t : Int) = ((h : Int) - (t : Int)) % (c : Int) := by
  have e : ((c + h - t : Nat) : Int) = ((h : Int) - t) + c := by omega
  rw [ringCount, Int.natCast_emod, e, Int.add_emod_right]

theorem count_eq_zero_iff {q : Ring} {s : State} (hh : ringHead q s < ringCap q s) (ht : ringTail q s < ringCap q s) :
    count q s = 0 ↔ ringHead q s = ringTail q s := ringCount_eq_zero hh ht

theorem count_eq_max_iff {q : Ring} {s : State} (hh : ringHead q s < ringCap q s) (ht : ringTail q s < ringCap q s) :
    count q s = ringCap q s - 1 ↔ nextIndex (ringCap q s) (ringHead q s) = ringTail q s := ringCount_full hh ht

theorem count_lt {q : Ring} {s : State} (hh : ringHead q s < ringCap q s) : count q s < ringCap q s :=
  ringCount_lt (Nat.zero_lt_of_lt hh)

/-- Settles O9: the free space is extreme where the count is, since the count is at most `C - 1`. -/
theorem countAndFreeSlots : Obligations.CountAndFreeSlots := by
  unfold Obligations.CountAndFreeSlots
  intro q s hh ht
  have hlt : count q s < ringCap q s := count_lt hh
  refine ⟨ringCount_cast ht.le, by omega, rfl, count_eq_zero_iff hh ht, ?_, ?_⟩
  · rw [← count_eq_zero_iff hh ht, freeSlots]
    omega
  · refine Iff.trans ?_ (count_eq_max_iff hh ht)
    rw [freeSlots]
    omega

/-! ### The buffered bytes as a list (R37e) -/

@[simp] theorem bytesFrom_length (sp : Space) (m : Memory) (c t k : Nat) : (bytesFrom sp m c t k).length = k := by
  induction k generalizing t with
  | zero => rfl
  | succ k ih => simp [bytesFrom, ih]

/-- A store in a cell outside the `k` slots from `t` on leaves their bytes. -/
theorem bytesFrom_write {sp : Space} {m : Memory} {c a t k : Nat} (v : Byte) (ha : a < c) (ht : t < c)
    (hk : k ≤ ringCount c a t) : bytesFrom sp (m.write a v) c t k = bytesFrom sp m c t k := by
  induction k generalizing t with
  | zero => rfl
  | succ k ih =>
    have hne : a ≠ t := fun e => by simp [e] at hk
    have hpop := ringCount_pop ha ht hne
    rw [bytesFrom, bytesFrom, cellValue_write_ne sp m v hne.symm,
      ih (nextIndex_lt (Nat.zero_lt_of_lt ha)) (by omega)]

/-- One slot more, up to and including the one at `h`, is the byte of `h` at the end. -/
theorem bytesFrom_snoc {sp : Space} {m : Memory} {c h t k : Nat} (hh : h < c) (ht : t < c) (hk : ringCount c h t = k) :
    bytesFrom sp m c t (k + 1) = bytesFrom sp m c t k ++ [cellValue sp m h] := by
  induction k generalizing t with
  | zero =>
    obtain rfl := (ringCount_eq_zero hh ht).1 hk
    rfl
  | succ k ih =>
    have hne : h ≠ t := fun e => by simp [e] at hk
    have hpop := ringCount_pop hh ht hne
    rw [bytesFrom, ih (nextIndex_lt (Nat.zero_lt_of_lt hh)) (by omega), bytesFrom, List.cons_append]

/-- A ring whose indices are in range (R37a). -/
structure RingInRange (q : Ring) (s : State) : Prop where
  head_lt : ringHead q s < ringCap q s
  tail_lt : ringTail q s < ringCap q s

theorem ringBytes_length (q : Ring) (s : State) : (ringBytes q s).length = count q s := bytesFrom_length ..

theorem ringBytes_eq_nil_iff {q : Ring} {s : State} (hr : RingInRange q s) :
    ringBytes q s = [] ↔ ringHead q s = ringTail q s := by
  rw [← List.length_eq_zero_iff, ringBytes_length, count_eq_zero_iff hr.head_lt hr.tail_lt]

@[simp] theorem ringCap_ringPushed (q : Ring) (b : Byte) (s : State) :
    ringCap q (ringPushed q b s) = ringCap q s := by
  simp [ringPushed]

theorem RingInRange.ringPushed {q : Ring} {s : State} (b : Byte) (hr : RingInRange q s) :
    RingInRange q (ringPushed q b s) where
  head_lt := by simpa [Machine.ringPushed] using nextIndex_lt (Nat.zero_lt_of_lt hr.head_lt)
  tail_lt := by simpa [Machine.ringPushed] using hr.tail_lt

theorem RingInRange.ringPopped {q : Ring} {s : State} (hr : RingInRange q s) : RingInRange q (ringPopped q s) where
  head_lt := by simpa [Machine.ringPopped] using hr.head_lt
  tail_lt := by simpa [Machine.ringPopped] using nextIndex_lt (Nat.zero_lt_of_lt hr.head_lt)

/-- A push on a ring with room appends its byte (R37c, R37e). -/
theorem ringBytes_ringPushed {q : Ring} {s : State} (b : Byte) (hr : RingInRange q s)
    (hroom : nextIndex (ringCap q s) (ringHead q s) ≠ ringTail q s) :
    ringBytes q (ringPushed q b s) = ringBytes q s ++ [b] := by
  obtain ⟨hh, ht⟩ := hr
  simp [ringBytes, ringPushed, count, ringCount_push hh ht hroom, bytesFrom_snoc hh ht rfl,
    bytesFrom_write b hh ht le_rfl]

/-- A pop of a ring that is not empty takes the first byte (R37c, R37e). -/
theorem ringBytes_eq_cons {q : Ring} {s : State} (hr : RingInRange q s) (hne : ringHead q s ≠ ringTail q s) :
    ringBytes q s = cellValue (ringSpace q) (ringBuf q s) (ringTail q s) :: ringBytes q (ringPopped q s) := by
  simp [ringBytes, ringPopped, count, ← ringCount_pop hr.head_lt hr.tail_lt hne, bytesFrom]

/-! ### Many pushes and pops -/

/-- Pushing as many bytes as there is room for succeeds and appends them in order. -/
theorem pushAll_next {q : Ring} {bs : List Byte} {s : State} (hr : RingInRange q s)
    (hroom : count q s + bs.length < ringCap q s) :
    ∃ t, pushAll q bs s = .next t ∧ RingInRange q t ∧ ringBytes q t = ringBytes q s ++ bs := by
  induction bs generalizing s with
  | nil => exact ⟨s, rfl, hr, by simp⟩
  | cons b bs ih =>
    rw [List.length_cons] at hroom
    have hfull : nextIndex (ringCap q s) (ringHead q s) ≠ ringTail q s := by
      rw [Ne, ← count_eq_max_iff hr.head_lt hr.tail_lt]
      omega
    have hbytes := ringBytes_ringPushed b hr hfull
    have hcount : count q (ringPushed q b s) = count q s + 1 := by
      simpa [ringBytes_length] using congrArg List.length hbytes
    have hrest : count q (ringPushed q b s) + bs.length < ringCap q (ringPushed q b s) := by
      rw [hcount, ringCap_ringPushed]
      omega
    obtain ⟨t, hpush, hrt, ht⟩ := ih (hr.ringPushed b) hrest
    refine ⟨t, ?_, hrt, by rw [ht, hbytes, List.append_assoc, List.singleton_append]⟩
    rw [pushAll, tryPush_eq b hr.head_lt, if_neg hfull]
    exact hpush

/-- Popping as many times as the ring holds bytes gives them in order and leaves it empty. -/
theorem popN_next {q : Ring} {bs : List Byte} {s : State} (hr : RingInRange q s) (hbs : ringBytes q s = bs) :
    ∃ u, popN q bs.length s = .next (bs.map some, u) ∧ ringHead q u = ringTail q u := by
  induction bs generalizing s with
  | nil => exact ⟨s, rfl, (ringBytes_eq_nil_iff hr).1 hbs⟩
  | cons b bs ih =>
    have hne : ringHead q s ≠ ringTail q s := fun he => by simp [(ringBytes_eq_nil_iff hr).2 he] at hbs
    obtain ⟨rfl, hrest⟩ := List.cons.inj ((ringBytes_eq_cons hr hne).symm.trans hbs)
    obtain ⟨u, hpop, hu⟩ := ih hr.ringPopped hrest
    refine ⟨u, ?_, hu⟩
    simp [popN, tryPop_eq hr.tail_lt, hne, hpop]

/-- Settles O10: the pushes make the list of buffered bytes `bs`, which the pops give back. -/
theorem fifoLaw : Obligations.FifoLaw := by
  unfold Obligations.FifoLaw
  intro q bs s hh he hlen
  have hr : RingInRange q s := ⟨hh, he ▸ hh⟩
  have hzero : count q s = 0 := (count_eq_zero_iff hr.head_lt hr.tail_lt).2 he
  obtain ⟨t, hpush, hrt, hbytes⟩ := pushAll_next hr (by omega : count q s + bs.length < ringCap q s)
  rw [(ringBytes_eq_nil_iff hr).2 he, List.nil_append] at hbytes
  obtain ⟨u, hpop, hu⟩ := popN_next hrt hbytes
  exact ⟨t, u, hpush, hpop, hu⟩

/-- Settles O11: a ring of count `C - 1` is full, and otherwise the count is the length of the list of buffered
bytes. -/
theorem fullBufferAndCountAccuracy : Obligations.FullBufferAndCountAccuracy := by
  unfold Obligations.FullBufferAndCountAccuracy
  intro q s _ hh ht
  have hr : RingInRange q s := ⟨hh, ht⟩
  refine ⟨fun b hmax => ?_, fun bs hzero hlen => ?_, fun hne => ?_⟩
  · exact tryPush_full b ((count_eq_max_iff hh ht).1 hmax)
  · obtain ⟨t, hpush, -, hbytes⟩ := pushAll_next hr (by omega : count q s + bs.length < ringCap q s)
    refine ⟨t, hpush, ?_⟩
    rw [← ringBytes_length, hbytes, List.length_append, ringBytes_length, hzero, Nat.zero_add]
  · have hne' : ringHead q s ≠ ringTail q s := mt (count_eq_zero_iff hh ht).2 hne
    refine ⟨_, ringPopped q s, tryPop_some ht hne', ?_⟩
    rw [← ringBytes_length q s, ringBytes_eq_cons hr hne', List.length_cons, ringBytes_length]

end Sys2Proof.Machine
end

section
/-! Line control (R110 to R122): the divisor as a rounding, when BEGIN has a meaning, and what READY, BEGIN and
ATTACH answer at each of their labels and when run to the end. -/

namespace Sys2Proof.Machine

/-! ### The divisor (R112) -/

/-- The comparison that says what a floor division is, for the division of R112. -/
theorem le_divisor_iff {clockHz baud : Nat} (hb : 1 ≤ baud) (k : Int) :
    k ≤ divisor clockHz baud ↔ (k + 1) * (16 * baud) ≤ clockHz + 8 * baud := by
  have hpos : (0 : Int) < 16 * baud := by omega
  rw [← Int.le_ediv_iff_mul_le hpos, divisor]
  push_cast
  omega

theorem divisor_lt_iff {clockHz baud : Nat} (hb : 1 ≤ baud) (k : Int) :
    divisor clockHz baud < k ↔ (clockHz : Int) + 8 * baud < (k + 1) * (16 * baud) := by
  rw [← not_le, le_divisor_iff hb, not_le]

theorem divisor_nonneg_iff {clockHz baud : Nat} (hb : 1 ≤ baud) :
    0 ≤ divisor clockHz baud ↔ 8 * baud ≤ clockHz := by
  rw [le_divisor_iff hb]
  omega

theorem neg_one_le_divisor (clockHz baud : Nat) : -1 ≤ divisor clockHz baud :=
  Int.sub_le_sub_right (Int.natCast_nonneg _) 1

/-- Settles O20: the bounds of the rounding are the two comparisons at the divisor itself. -/
theorem divisorRoundsHalfUp : Obligations.DivisorRoundsHalfUp := by
  unfold Obligations.DivisorRoundsHalfUp
  refine ⟨fun clockHz baud hb => ⟨?_, ?_, ?_, ?_⟩, by decide, by decide, by decide⟩
  · simp [divisor]
  · have hle := (le_divisor_iff hb _).1 (le_refl (divisor clockHz baud))
    linarith
  · have hlt := (divisor_lt_iff hb _).1 (lt_add_one (divisor clockHz baud))
    linarith
  · have hnonneg := divisor_nonneg_iff (clockHz := clockHz) hb
    have hmin := neg_one_le_divisor clockHz baud
    omega

/-! ### When BEGIN has a meaning (R113) -/

theorem validFrame_iff (v : Byte) : validFrame v = true ↔ ∃ r ∈ frameTable, r.value = v := by
  simp only [validFrame, List.any_eq_true, beq_iff_eq]

theorem beginOk_iff (p : Params) (baud : BitVec 32) (frame : Byte) :
    beginOk p baud frame = true ↔ (∃ r ∈ frameTable, r.value = frame) ∧ 1 ≤ baud.toNat ∧
      0 ≤ divisor p.clockHz baud.toNat ∧ divisor p.clockHz baud.toNat ≤ p.divMax := by
  simp only [beginOk, Bool.and_eq_true, decide_eq_true_eq, validFrame_iff, and_assoc]

/-- Condition (c) of R113 without a division. -/
theorem divisor_inRange_iff {clockHz baud : Nat} (hb : 1 ≤ baud) (divMax : Nat) :
    (0 ≤ divisor clockHz baud ∧ divisor clockHz baud ≤ divMax) ↔
      8 * baud ≤ clockHz ∧ clockHz + 8 * baud < 16 * baud * (divMax + 2) := by
  rw [divisor_nonneg_iff hb, ← Int.lt_add_one_iff, divisor_lt_iff hb]
  refine and_congr_right fun _ => ?_
  zify
  rw [show ((divMax : Int) + 1 + 1) * (16 * baud) = 16 * baud * (divMax + 2) by ring]

/-- Settles O21: the conditions are those `beginOk` tests, and the third is two comparisons of products. -/
theorem beginWellFormedness : Obligations.BeginWellFormedness := by
  unfold Obligations.BeginWellFormedness
  exact fun s baud frame =>
    ⟨beginOk_iff s.cfg baud frame, fun hb => divisor_inRange_iff hb s.cfg.divMax, exec_beginLine_illFormed⟩

/-! ### A command run step by step -/

@[simp] theorem execN_zero (i : Instr) (s : State) : execN i 0 s = .next s := rfl

theorem execN_succ_of_next {i : Instr} {n : Nat} {s t : State} (h : exec i s = .next t) :
    execN i (n + 1) s = execN i n t := by
  rw [execN, h, andThen_of_next]

/-- An idle foreground that goes to a label and answers from there is idle as before. -/
theorem respond_goTo_of_idle {s : State} (hf : s.fg = .idle) (l : Fg) (r : Response) :
    respond r (goTo l s) = { s with responses := s.responses ++ [r] } := by
  simp [respond, goTo, hf]

/-! ### READY (R111) -/

theorem exec_ready_idle {s : State} (hf : s.fg = .idle) : exec .ready s = .next (goTo .ready s) := by
  simp [exec, execReady, hf, present, admitted]

theorem exec_ready_answers {s : State} (hf : s.fg = .ready) : exec .ready s = .next (respond (.val 1) s) := by
  simp [exec, execReady, hf]

/-- Settles O19: presented, then answered. -/
theorem readyAnswersOne : Obligations.ReadyAnswersOne := by
  unfold Obligations.ReadyAnswersOne
  refine fun s => ⟨exec_ready_idle, exec_ready_answers, fun hf => ?_⟩
  rw [execN_succ_of_next (exec_ready_idle hf), execN_succ_of_next (exec_ready_answers rfl), execN_zero,
    respond_goTo_of_idle hf]

/-! ### BEGIN (R114, R115) -/

/-- The divisor as the baud registers hold it. -/
def divisorWord (p : Params) (baud : BitVec 32) : BitVec 16 := BitVec.ofNat 16 (divisor p.clockHz baud.toNat).toNat

theorem divisorHigh_eq_extract (p : Params) (baud : BitVec 32) :
    divisorHigh p baud = (divisorWord p baud).extractLsb' 8 8 := by
  apply BitVec.eq_of_toNat_eq
  simp only [divisorHigh, divisorWord, BitVec.toNat_ofNat, BitVec.extractLsb'_toNat, Nat.shiftRight_eq_div_pow]
  omega

theorem divisorLow_eq_extract (p : Params) (baud : BitVec 32) :
    divisorLow p baud = (divisorWord p baud).extractLsb' 0 8 := by
  apply BitVec.eq_of_toNat_eq
  simp [divisorLow, divisorWord]

/-- The baud registers hold the divisor whole (R9, R113). -/
theorem toNat_divisorWord {p : Params} {baud : BitVec 32} {frame : Byte} (hc : p.ok = true)
    (hok : beginOk p baud frame = true) : ((divisorWord p baud).toNat : Int) = divisor p.clockHz baud.toNat := by
  obtain ⟨-, -, hnonneg, hle⟩ := (beginOk_iff p baud frame).1 hok
  obtain ⟨-, -, -, -, -, hmax, -⟩ := (Params.ok_iff p).1 hc
  rw [divisorWord, BitVec.toNat_ofNat]
  omega

section
variable {s : State} {baud : BitVec 32} {frame : Byte} (hok : beginOk s.cfg baud frame = true)
include hok

theorem exec_beginLine_idle (hf : s.fg = .idle) :
    exec (.beginLine baud frame) s = .next (goTo (.beginLine baud frame .s1) s) := by
  simp [exec, execBegin, hok, hf, present, admitted]

theorem exec_beginLine_s1 (hf : s.fg = .beginLine baud frame .s1) :
    exec (.beginLine baud frame) s = .next (goTo (.beginLine baud frame .s2) (lineBegun baud frame s)) := by
  simp [exec, execBegin, hok, hf, beginAtomic_eq]

theorem exec_beginLine_s2 (hf : s.fg = .beginLine baud frame .s2) :
    exec (.beginLine baud frame) s = .next (respond .done s) := by
  simp [exec, execBegin, hok, hf]

theorem execN_beginLine (hf : s.fg = .idle) :
    execN (.beginLine baud frame) 3 s = .next (respond .done (goTo (.beginLine baud frame .s2)
      (lineBegun baud frame (goTo (.beginLine baud frame .s1) s)))) := by
  rw [execN_succ_of_next (exec_beginLine_idle hok hf),
    execN_succ_of_next (exec_beginLine_s1 (s := goTo (.beginLine baud frame .s1) s) hok rfl)]
  exact execN_succ_of_next (exec_beginLine_s2 hok rfl)

end

/-- A ring whose indices are both 0 holds nothing, whatever its capacity. -/
theorem count_of_indices_zero {q : Ring} {s : State} (hh : ringHead q s = 0) (ht : ringTail q s = 0) :
    count q s = 0 := by
  simp [count, ringCount, hh, ht]

/-- Settles O22: the word the baud registers hold is `divisorWord`, and S1 leaves `lineBegun`. -/
theorem beginConfiguresTheLine : Obligations.BeginConfiguresTheLine := by
  unfold Obligations.BeginConfiguresTheLine
  intro s baud frame hc hok
  refine ⟨divisorWord s.cfg baud, toNat_divisorWord hc hok, exec_beginLine_idle hok, fun hf => ?_,
    exec_beginLine_s2 hok, fun hf => ⟨_, execN_beginLine hok hf, rfl, rfl, rfl, ?_, ?_⟩⟩
  · rw [← divisorHigh_eq_extract, ← divisorLow_eq_extract]
    exact exec_beginLine_s1 hok hf
  · exact count_of_indices_zero rfl rfl
  · exact count_of_indices_zero rfl rfl

/-! ### ATTACH and DETACH (R121, R122) -/

section
variable {s : State} {handle : Handle}

theorem exec_attach_idle (hf : s.fg = .idle) :
    exec (.attach handle) s = .next (goTo (.attach handle .s1) s) := by
  simp [exec, execAttach, hf, present, admitted]

theorem exec_attach_s1 (hf : s.fg = .attach handle .s1) :
    exec (.attach handle) s = .next (goTo (.attach handle .s2) { s with hook := hookOf handle }) := by
  simp [exec, execAttach, hf]

theorem exec_attach_s2 (hf : s.fg = .attach handle .s2) : exec (.attach handle) s = .next (respond .done s) := by
  simp [exec, execAttach, hf]

theorem execN_attach (hf : s.fg = .idle) :
    execN (.attach handle) 3 s =
      .next { s with hook := hookOf handle, responses := s.responses ++ [.done] } := by
  rw [execN_succ_of_next (exec_attach_idle hf), execN_succ_of_next (exec_attach_s1 rfl),
    execN_succ_of_next (exec_attach_s2 rfl), execN_zero]
  exact congrArg _ (respond_goTo_of_idle (s := { s with hook := hookOf handle }) hf _ _)

end

/-- Settles O25: label by label, and DETACH as ATTACH of handle 0. -/
theorem attachReplacesTheHook : Obligations.AttachReplacesTheHook := by
  unfold Obligations.AttachReplacesTheHook
  exact fun s handle =>
    ⟨exec_attach_idle, exec_attach_s1, exec_attach_s2, execN_attach, execN_attach (handle := 0)⟩

end Sys2Proof.Machine
end

section
/-! The commands that count, show and take received bytes (R131 to R137): what AVAIL, AVAILW, PEEK and READ answer at
each of their labels and when run to the end. -/

namespace Sys2Proof.Machine

@[simp] theorem goTo_goTo (l m : Fg) (s : State) : goTo l (goTo m s) = goTo l s := rfl

section
variable {s : State}

/-! ### AVAIL and AVAILW (R131, R137) -/

theorem exec_avail_idle (hf : s.fg = .idle) : exec .avail s = .next (goTo (.avail .s1) s) := by
  simp [exec, execAvail, hf, present, admitted]

theorem exec_avail_s1 (hf : s.fg = .avail .s1) :
    exec .avail s = .next (goTo (.avail (.s2 s.rxHead s.rxTail)) s) := by
  simp [exec, execAvail, hf]

theorem exec_avail_s2 {h t : Nat} (hf : s.fg = .avail (.s2 h t)) :
    exec .avail s = .next (respond (.val (ringCount s.cfg.cRx h t)) s) := by
  simp [exec, execAvail, hf]

theorem execN_avail (hf : s.fg = .idle) :
    execN .avail 3 s = .next { s with responses := s.responses ++ [.val (count .rx s)] } := by
  rw [execN_succ_of_next (exec_avail_idle hf), execN_succ_of_next (exec_avail_s1 rfl),
    execN_succ_of_next (exec_avail_s2 rfl), execN_zero, goTo_goTo, respond_goTo_of_idle hf]
  rfl

theorem exec_availw_idle (hf : s.fg = .idle) : exec .availw s = .next (goTo (.availw .s1) s) := by
  simp [exec, execAvailw, hf, present, admitted]

theorem exec_availw_s1 (hf : s.fg = .availw .s1) :
    exec .availw s = .next (goTo (.availw (.s2 s.txHead s.txTail)) s) := by
  simp [exec, execAvailw, hf]

theorem exec_availw_s2 {h t : Nat} (hf : s.fg = .availw (.s2 h t)) :
    exec .availw s = .next (respond (.val (s.cfg.cTx - 1 - ringCount s.cfg.cTx h t)) s) := by
  simp [exec, execAvailw, hf]

theorem execN_availw (hf : s.fg = .idle) :
    execN .availw 3 s = .next { s with responses := s.responses ++ [.val (freeSlots .tx s)] } := by
  rw [execN_succ_of_next (exec_availw_idle hf), execN_succ_of_next (exec_availw_s1 rfl),
    execN_succ_of_next (exec_availw_s2 rfl), execN_zero, goTo_goTo, respond_goTo_of_idle hf]
  rfl

/-! ### PEEK (R133) -/

theorem exec_peek_idle (hf : s.fg = .idle) : exec .peek s = .next (goTo (.peek .s1) s) := by
  simp [exec, execPeek, hf, present, admitted]

theorem exec_peek_s1_empty (hf : s.fg = .peek .s1) (he : s.rxHead = s.rxTail) :
    exec .peek s = .next (respond .none s) := by
  simp [exec, execPeek, hf, he]

theorem exec_peek_s1_ne (hf : s.fg = .peek .s1) (hne : s.rxHead ≠ s.rxTail) :
    exec .peek s = .next (goTo (.peek (.s2 s.rxTail)) s) := by
  simp [exec, execPeek, hf, hne]

theorem exec_peek_s2 {k : Nat} (hf : s.fg = .peek (.s2 k)) (hk : k < s.cfg.cRx) :
    exec .peek s = .next (goTo (.peek (.s3 (cellValue .rxb s.rxBuf k))) s) := by
  simp [exec, execPeek, hf, memRead_rxb hk]

theorem exec_peek_s3 {b : Byte} (hf : s.fg = .peek (.s3 b)) : exec .peek s = .next (respond (.some b) s) := by
  simp [exec, execPeek, hf]

theorem execN_peek (hf : s.fg = .idle) (hne : s.rxHead ≠ s.rxTail) (ht : s.rxTail < s.cfg.cRx) :
    execN .peek 4 s =
      .next { s with responses := s.responses ++ [.some (cellValue .rxb s.rxBuf s.rxTail)] } := by
  have hfound : exec .peek (goTo (.peek .s1) s) = .next (goTo (.peek (.s2 s.rxTail)) s) := exec_peek_s1_ne rfl hne
  have hbyte : exec .peek (goTo (.peek (.s2 s.rxTail)) s) =
      .next (goTo (.peek (.s3 (cellValue .rxb s.rxBuf s.rxTail))) s) := exec_peek_s2 rfl ht
  rw [execN_succ_of_next (exec_peek_idle hf), execN_succ_of_next hfound, execN_succ_of_next hbyte,
    execN_succ_of_next (exec_peek_s3 rfl), execN_zero, respond_goTo_of_idle hf]

/-! ### READ (R135) -/

theorem exec_read_idle (hf : s.fg = .idle) : exec .read s = .next (goTo (.read .s1) s) := by
  simp [exec, execRead, hf, present, admitted]

theorem exec_read_s1_empty (hf : s.fg = .read .s1) (he : s.rxHead = s.rxTail) :
    exec .read s = .next (respond .none s) := by
  simp [exec, execRead, hf, he]

theorem exec_read_s1_ne (hf : s.fg = .read .s1) (hne : s.rxHead ≠ s.rxTail) :
    exec .read s = .next (goTo (.read (.s2 s.rxTail)) s) := by
  simp [exec, execRead, hf, hne]

theorem exec_read_s2 {k : Nat} (hf : s.fg = .read (.s2 k)) (hk : k < s.cfg.cRx) :
    exec .read s = .next (goTo (.read (.s3 k (cellValue .rxb s.rxBuf k))) s) := by
  simp [exec, execRead, hf, memRead_rxb hk]

theorem exec_read_s3 {k : Nat} {b : Byte} (hf : s.fg = .read (.s3 k b)) :
    exec .read s = .next (goTo (.read (.s4 b)) { s with rxTail := nextIndex s.cfg.cRx k }) := by
  simp [exec, execRead, hf]

theorem exec_read_s4 {b : Byte} (hf : s.fg = .read (.s4 b)) : exec .read s = .next (respond (.some b) s) := by
  simp [exec, execRead, hf]

theorem execN_read (hf : s.fg = .idle) (hne : s.rxHead ≠ s.rxTail) (ht : s.rxTail < s.cfg.cRx) :
    execN .read 5 s = .next { s with
      rxTail := nextIndex s.cfg.cRx s.rxTail
      responses := s.responses ++ [.some (cellValue .rxb s.rxBuf s.rxTail)] } := by
  have hfound : exec .read (goTo (.read .s1) s) = .next (goTo (.read (.s2 s.rxTail)) s) := exec_read_s1_ne rfl hne
  have hbyte : exec .read (goTo (.read (.s2 s.rxTail)) s) =
      .next (goTo (.read (.s3 s.rxTail (cellValue .rxb s.rxBuf s.rxTail))) s) := exec_read_s2 rfl ht
  rw [execN_succ_of_next (exec_read_idle hf), execN_succ_of_next hfound, execN_succ_of_next hbyte,
    execN_succ_of_next (exec_read_s3 rfl), execN_succ_of_next (exec_read_s4 rfl), execN_zero]
  exact congrArg _
    (respond_goTo_of_idle (s := { s with rxTail := nextIndex s.cfg.cRx s.rxTail }) hf _ _)

end

/-! ### The statements -/

/-- Settles O26: label by label; S2's count of a snapshot is the integer formula by `ringCount_cast`. -/
theorem availAndAvailwCount : Obligations.AvailAndAvailwCount := by
  unfold Obligations.AvailAndAvailwCount
  exact fun s h t =>
    ⟨exec_avail_idle, exec_avail_s1, fun hf ht => ⟨_, ringCount_cast ht, exec_avail_s2 hf⟩, execN_avail,
      exec_availw_idle, exec_availw_s1, fun hf ht => ⟨_, ringCount_cast ht, exec_availw_s2 hf⟩, execN_availw⟩

/-- Settles O27: label by label, and the four steps on a ring that is not empty. -/
theorem peekGivesTheOldestByte : Obligations.PeekGivesTheOldestByte := by
  unfold Obligations.PeekGivesTheOldestByte
  exact fun s k b =>
    ⟨exec_peek_idle, exec_peek_s1_empty, exec_peek_s1_ne, exec_peek_s2, exec_peek_s3, execN_peek⟩

/-- Settles O28: label by label, S2 with the byte before S3 with the tail, and the five steps on a ring that is not
empty. -/
theorem readTakesTheOldestByte : Obligations.ReadTakesTheOldestByte := by
  unfold Obligations.ReadTakesTheOldestByte
  exact fun s k b =>
    ⟨exec_read_idle, exec_read_s1_empty, exec_read_s1_ne, exec_read_s2, exec_read_s3, exec_read_s4, execN_read⟩

end Sys2Proof.Machine
end

section
/-! The transmit-empty handler (R155 to R157): what its body does to the whole state, and the value it writes to
CSA. -/

namespace Sys2Proof.Machine

/-- The image a read of CSA puts on the bus shows the named bits (R32, R38). -/
theorem statusShows_readCsa {s : State} (hc : s.cfg.ok = true) : statusShows s ((readCsa s).1.image s.cfg) :=
  image_fields hc _

/-- What the body writes to CSA for the value `v` it read (R155). -/
def txcAck (p : Params) (v : Byte) : Byte := (v &&& keepA p) ||| bitMask p.pTxc

/-- The written value, bit by bit (R156). -/
theorem bitOf_txcAck (p : Params) (v : Byte) {i : Nat} (hi : i < 8) :
    bitOf (txcAck p v) i =
      (decide (i = p.pTxc) || (decide (i = p.pU2x) && bitOf v i) ||
        (p.hasMpcm && decide (i = p.pMpcm) && bitOf v i)) := by
  rw [txcAck, bitOf_or, bitOf_and, bitOf_keepA p hi, bitOf_bitMask hi, Bool.or_comm, Bool.and_comm,
    Bool.and_or_distrib_right, ← Bool.or_assoc]
  simp only [eq_comm]

/-- Reading CSA and writing it back clears TXC and leaves the two accesses on the bus (R155). -/
theorem txcCleared_state {s : State} (hc : s.cfg.ok = true) :
    txcCleared s = { s with
      txc := false
      bus := s.bus ++ [.rd .csa ((readCsa s).1.image s.cfg), .wr .csa (txcAck s.cfg ((readCsa s).1.image s.cfg))]
      drawIn := (txcCleared s).drawIn
      drawCount := (txcCleared s).drawCount } := by
  have hwritten := congrArg (writeCsa (clearTxcValue s.cfg (readCsa s).1)) (readCsa_state s)
  refine hwritten.trans ?_
  rw [txcAck, ← clearTxcValue_image hc]
  cases hm : s.cfg.hasMpcm <;> simp [writeCsa, storeCsa, logAccess, clearTxcValue, txcCleared, hm]

/-- What the rest of the body does once the byte is handed over: TXC cleared by one read and one write of CSA, then
UDRIE cleared in CSB where the ring is empty (R155). -/
theorem txBodyEnd_state {s : State} (hc : s.cfg.ok = true) :
    txBodyEnd s = { s with
      txc := false
      csb := if s.txHead = s.txTail then s.csb &&& ~~~bitMask s.cfg.pUdrie else s.csb
      bus := s.bus ++
        [.rd .csa ((readCsa s).1.image s.cfg), .wr .csa (txcAck s.cfg ((readCsa s).1.image s.cfg))] ++
        if s.txHead = s.txTail then [.rd .csb s.csb, .wr .csb (s.csb &&& ~~~bitMask s.cfg.pUdrie)] else []
      drawIn := (txBodyEnd s).drawIn
      drawCount := (txBodyEnd s).drawCount } := by
  by_cases he : s.txHead = s.txTail
  · rw [txBodyEnd, if_pos he, txcCleared_state hc]
    simp [csbUpdated, he]
  · simpa [txBodyEnd, he] using txcCleared_state hc

/-- The body has no meaning on an empty ring (R157). -/
theorem txEmptyBody_of_empty {s : State} (he : s.txHead = s.txTail) :
    txEmptyBody s = .fault .txBodyOnEmptyRing := by
  rw [txEmptyBody, if_pos he]

/-- Settles O38: the written value is `txcAck` of the value read, whose bits `bitOf_txcAck` gives. -/
theorem valueWrittenToControlA : Obligations.ValueWrittenToControlA := by
  unfold Obligations.ValueWrittenToControlA
  intro s t hc h
  obtain ⟨-, -, -, rfl⟩ := txEmptyBody_next h
  have hbus := congrArg State.bus
    (txBodyEnd_state (s := handedOver (cellValue .txb s.txBuf s.txTail) s) hc)
  exact ⟨_, _, _, _, hbus.trans ((List.append_assoc ..).trans (List.append_assoc ..)),
    fun i hi => bitOf_txcAck s.cfg _ hi, by simp, by simp, by simp, by simp, by simp⟩

/-- Settles O37: the byte is handed over, then the rest of the body runs; whether CSB is touched is decided on the
ring after the pop. -/
theorem transmitHandler : Obligations.TransmitHandler := by
  unfold Obligations.TransmitHandler
  intro s hc
  refine ⟨txEmptyBody_of_empty, fun hne ht hh => ⟨_, _,
    statusShows_readCsa (s := handedOver (cellValue .txb s.txBuf s.txTail) s) hc, txEmptyBody_eq hne ht hh,
    (txBodyEnd_state (s := handedOver (cellValue .txb s.txBuf s.txTail) s) hc).trans ?_⟩⟩
  by_cases he : s.txHead = (s.txTail + 1) % s.cfg.cTx <;> simp [handedOver, txcAck, nextIndex, he]

end Sys2Proof.Machine
end

section
/-! Which command each line state admits (R199), and why no handler can be invoked while the line is
Uninitialized. -/

namespace Sys2Proof.Machine

/-- An active line admits every command (R199). -/
theorem admitted_active (i : Instr) : admitted i .active = true := by
  cases i <;> rfl

/-- A command presented to an active line is taken at its first label (R28, R199). -/
theorem present_of_active {s : State} (hl : s.line = .active) (i : Instr) (l : Fg) :
    present i l s = .next (goTo l s) := by
  rw [present, hl, if_pos (admitted_active i)]

/-- A command that the line state does not admit is refused (R199). -/
theorem present_of_not_admitted {i : Instr} {s : State} (ha : admitted i s.line = false) (l : Fg) :
    present i l s = .refused .commandNotAdmitted := by
  rw [present, ha, if_neg Bool.false_ne_true]

section
variable {s : State} (hf : s.fg = .idle)
include hf

/-! ### The three commands that only an active line admits, presented -/

theorem exec_endLine_idle : exec .endLine s = present .endLine (.endLine (.drain .f1)) s := by
  simp [exec, execEnd, hf]

theorem exec_flush_idle : exec .flush s = present .flush (.flush .f1) s := by
  simp [exec, execFlush, hf]

theorem exec_write_idle (byte : Byte) : exec (.write byte) s = present (.write byte) (.write byte .w1) s := by
  simp [exec, execWrite, hf]

/-- Presented to a line that is not active, none of the three is taken. -/
theorem activeOnly_refused (hl : s.line = .uninitialized) (byte : Byte) :
    exec .endLine s = .refused .commandNotAdmitted ∧ exec (.write byte) s = .refused .commandNotAdmitted ∧
      exec .flush s = .refused .commandNotAdmitted := by
  rw [exec_endLine_idle hf, exec_write_idle hf, exec_flush_idle hf]
  refine ⟨present_of_not_admitted ?_ _, present_of_not_admitted ?_ _, present_of_not_admitted ?_ _⟩ <;>
    rw [hl] <;> rfl

/-- Every other well-formed command is taken in both line states, and these three on an active line. -/
theorem command_taken {i : Instr} (hw : i.wellFormed s.cfg = true) (hrx : i ≠ .irqRx) (hudre : i ≠ .irqUdre)
    (hl : s.line = .active ∨ (i ≠ .endLine ∧ i ≠ .flush ∧ ∀ byte, i ≠ .write byte)) :
    ∃ f : Fg, f.command? = some i ∧ exec i s = .next (goTo f s) := by
  cases i with
  | ready => exact ⟨.ready, rfl, exec_ready_idle hf⟩
  | beginLine baud frame => exact ⟨.beginLine baud frame .s1, rfl, exec_beginLine_idle hw hf⟩
  | avail => exact ⟨.avail .s1, rfl, exec_avail_idle hf⟩
  | peek => exact ⟨.peek .s1, rfl, exec_peek_idle hf⟩
  | read => exact ⟨.read .s1, rfl, exec_read_idle hf⟩
  | availw => exact ⟨.availw .s1, rfl, exec_availw_idle hf⟩
  | attach handle => exact ⟨.attach handle .s1, rfl, exec_attach_idle hf⟩
  | endLine =>
    have hactive := hl.resolve_right fun ⟨hend, _, _⟩ => hend rfl
    exact ⟨.endLine (.drain .f1), rfl, (exec_endLine_idle hf).trans (present_of_active hactive _ _)⟩
  | flush =>
    have hactive := hl.resolve_right fun ⟨_, hflush, _⟩ => hflush rfl
    exact ⟨.flush .f1, rfl, (exec_flush_idle hf).trans (present_of_active hactive _ _)⟩
  | write byte =>
    have hactive := hl.resolve_right fun ⟨_, _, hwrite⟩ => hwrite byte rfl
    exact ⟨.write byte .w1, rfl, (exec_write_idle hf byte).trans (present_of_active hactive _ _)⟩
  | irqRx => exact absurd rfl hrx
  | irqUdre => exact absurd rfl hudre

end

/-! ### The entry points (R45, R172) -/

/-- With the receive interrupt disabled its handler is not invoked. -/
theorem handlerEnabled_irqRx_of_masked {s : State} (hm : rxcie s = false) : handlerEnabled s .irqRx = false := by
  rw [rxcie] at hm
  simp [handlerEnabled, irqRxRequest, hm]

/-- With the transmit-empty interrupt disabled its handler is not invoked. -/
theorem handlerEnabled_irqUdre_of_masked {s : State} (hm : udrie s = false) :
    handlerEnabled s .irqUdre = false := by
  rw [udrie] at hm
  simp [handlerEnabled, irqUdreRequest, hm]

/-- Settles O44: a command is presented to the line state, which takes or refuses it; an Uninitialized line has both
interrupts disabled and both rings empty by the invariant. -/
theorem admissionTable : Obligations.AdmissionTable := by
  unfold Obligations.AdmissionTable
  refine ⟨fun s byte hf hl => activeOnly_refused hf hl byte,
    fun s i hf hw hrx hudre hl => command_taken hf hw hrx hudre hl, fun s hinv hl => ?_⟩
  obtain ⟨hrxcie, hudrie, hrx, htx⟩ := hinv.uninitialized hl
  exact ⟨handlerEnabled_irqRx_of_masked hrxcie, handlerEnabled_irqUdre_of_masked hudrie, hrx, htx⟩

end Sys2Proof.Machine
end

section
/-! The encoding of instructions (R80 to R94): decoder and encoder are inverse, the words of spec/95 decode, the frame
patterns have one layout, and the masks follow from the positions. -/

namespace Sys2Proof

/-! ### Either port -/

/-- Decoding what the encoder writes gives the instruction back. -/
theorem decode_encode (i : Instr) : decode (encode i) = .ok i := by
  cases he : encode i with
  | command w => exact decodeCommand_of_encode he
  | vector v =>
    cases i
    case irqRx | irqUdre =>
      obtain rfl := Encoded.vector.inj he
      rfl
    all_goals cases he

/-- The two entry points are the two vector numbers (R86). -/
theorem encode_decodeVector (v : BitVec 1) : encode (decodeVector v) = .vector v := by
  obtain rfl | rfl : v = 0 ∨ v = 1 := by bv_omega
  · rfl
  · rfl

/-- A word or a vector number that decodes is the encoding of its instruction. -/
theorem encode_of_decode {e : Encoded} {i : Instr} (h : decode e = .ok i) : encode i = e := by
  cases e with
  | command w => exact encode_of_decodeCommand h
  | vector v =>
    obtain rfl := Except.ok.inj h
    exact encode_decodeVector v

/-- Settles O1: both directions on the command port and on the vector numbers. -/
theorem decodeEncodeInverse : Obligations.DecodeEncodeInverse := by
  unfold Obligations.DecodeEncodeInverse
  exact ⟨decode_encode, fun _ _ => encode_of_decode⟩

/-- Settles O4: seven of the words are encodings, and two are rejected. -/
theorem specWordsDecode : Obligations.SpecWordsDecode := by
  unfold Obligations.SpecWordsDecode
  exact ⟨decodeCommand_of_encode rfl, decodeCommand_of_encode rfl, decodeCommand_of_encode rfl,
    decodeCommand_of_encode rfl, decodeCommand_of_encode rfl, decodeCommand_of_encode rfl,
    decodeCommand_of_encode rfl, rfl, rfl⟩

end Sys2Proof

namespace Sys2Proof.Machine

/-! ### Frame patterns and masks (R90 to R92) -/

/-- The layout of a byte that is no valid frame pattern (R91). -/
theorem validFrame_eq_false_iff (v : Byte) : validFrame v = false ↔
    bitOf v 0 = true ∨ bitOf v 6 = true ∨ bitOf v 7 = true ∨ v.toNat / 2 ^ 4 % 4 = 1 := by
  revert v
  decide

/-- Settles O6: the table row by row, and the invalid bytes by their layout. -/
theorem frameConfigurations : Obligations.FrameConfigurations := by
  unfold Obligations.FrameConfigurations
  exact ⟨rfl, by decide, by decide, validFrame_eq_false_iff, ⟨_, by decide, rfl⟩, fun _ => rfl⟩

/-- Settles O13: the masks at the positions of `Config.default`. -/
theorem masksFromPositions : Obligations.MasksFromPositions := by
  unfold Obligations.MasksFromPositions
  exact ⟨rfl, rfl, rfl, rfl, rfl, rfl⟩

end Sys2Proof.Machine
end

section
/-! The invariant (R37, R47, R53, R169): what it says apart from the label of the running command is kept by every
shared operation; the label's promise is kept by every command and every handler; so every step keeps both. -/

namespace Sys2Proof.Machine

/-! ### Who drives `gie` (R29) -/

/-- A labelled step leaves `gie` alone. -/
theorem LabelStep.gie {s t : State} (h : LabelStep s t) : t.gie = s.gie := by
  cases h with
  | plain _ ht | begins _ _ _ ht | ends _ ht | attaches _ _ ht | takes _ _ _ ht | stores _ _ _ _ _ ht
    | publishes _ _ _ _ ht => exact ht ▸ rfl
  | polls _ ht => rw [ht]; simp
  | pumps _ _ _ _ _ _ _ ht => rw [ht]; simp [pumped]

/-- The receive body leaves `gie` alone. -/
theorem rxBody_gie {s t : State} (h : rxBody s = .next t) : t.gie = s.gie := by
  rcases rxBody_next h with rfl | ⟨-, -, -, rfl⟩ <;> simp

/-- The transmit-empty body leaves `gie` alone. -/
theorem txEmptyBody_gie {s t : State} (h : txEmptyBody s = .next t) : t.gie = s.gie := by
  obtain ⟨-, -, -, rfl⟩ := txEmptyBody_next h
  simp

/-- A move leaves `gie` alone, but for HOST's drive of it, which needs an idle foreground. -/
theorem runMove_gie {m : Move} {s t : State} (h : runMove m s = .next t) :
    t.gie = s.gie ∨ (s.fg = .idle ∧ ∃ on, m = .setGie on) := by
  cases m with
  | fg =>
    obtain ⟨i, hi, hx⟩ := moveFg_next h
    exact .inl (exec_labelStep hi hx).gie
  | irq idx =>
    rcases moveIrq_next h with ⟨-, -, rfl⟩ | ⟨-, -, hx⟩ | ⟨-, -, hx⟩
    · exact .inl rfl
    · exact .inl (rxBody_gie hx)
    · exact .inl (txEmptyBody_gie hx)
  | receive b pe =>
    obtain ⟨-, rfl⟩ := unitReceive_next h
    exact .inl rfl
  | load =>
    obtain ⟨-, rfl⟩ := unitLoad_next h
    exact .inl rfl
  | done =>
    obtain ⟨b, -, rfl⟩ := unitDone_next h
    exact .inl rfl
  | present w =>
    obtain ⟨hf, ⟨e, -, rfl⟩ | ⟨i, hi, hx⟩⟩ := movePresent_next h
    · exact .inl rfl
    · obtain ⟨hr, hu⟩ := decodeCommand_not_entry hi
      rw [exec_presented hf hr hu hx]
      exact .inl rfl
  | setGie on => exact .inr ⟨(moveSetGie_next h).1, on, rfl⟩

/-! ### The bits of CSB after each of its updates -/

section
variable {p : Params} (hp : p.ok = true) (v : Byte)
include hp

/-- S1 of BEGIN sets the three enables of R114 and clears UDRIE. -/
theorem enables_begin : bitOf ((v ||| beginSet p) &&& ~~~bitMask p.pUdrie) p.pRxcie = true ∧
    bitOf ((v ||| beginSet p) &&& ~~~bitMask p.pUdrie) p.pUdrie = false ∧
    bitOf ((v ||| beginSet p) &&& ~~~bitMask p.pUdrie) p.pRxen = true ∧
    bitOf ((v ||| beginSet p) &&& ~~~bitMask p.pUdrie) p.pTxen = true := by
  obtain ⟨⟨h1, h2, h3, h4⟩, d1, d2, d3, d4, d5, d6⟩ := Params.csb_facts hp
  simp [beginSet, bitOf_not, bitOf_bitMask, Ne.symm d1, *]

/-- E1 of END clears all four enables. -/
theorem enables_end : bitOf (v &&& ~~~endClear p) p.pRxcie = false ∧ bitOf (v &&& ~~~endClear p) p.pUdrie = false ∧
    bitOf (v &&& ~~~endClear p) p.pRxen = false ∧ bitOf (v &&& ~~~endClear p) p.pTxen = false := by
  obtain ⟨⟨h1, h2, h3, h4⟩, -⟩ := Params.csb_facts hp
  simp [endClear, bitOf_not, bitOf_bitMask, *]

/-- W4 of WRITE sets UDRIE and no other enable. -/
theorem enables_setUdrie : bitOf (v ||| bitMask p.pUdrie) p.pRxcie = bitOf v p.pRxcie ∧
    bitOf (v ||| bitMask p.pUdrie) p.pUdrie = true ∧
    bitOf (v ||| bitMask p.pUdrie) p.pRxen = bitOf v p.pRxen ∧
    bitOf (v ||| bitMask p.pUdrie) p.pTxen = bitOf v p.pTxen := by
  obtain ⟨⟨h1, h2, h3, h4⟩, d1, d2, d3, d4, d5, d6⟩ := Params.csb_facts hp
  simp [bitOf_bitMask, Ne.symm d1, *]

/-- The transmit-empty body clears UDRIE and no other enable. -/
theorem enables_clearUdrie : bitOf (v &&& ~~~bitMask p.pUdrie) p.pRxcie = bitOf v p.pRxcie ∧
    bitOf (v &&& ~~~bitMask p.pUdrie) p.pUdrie = false ∧
    bitOf (v &&& ~~~bitMask p.pUdrie) p.pRxen = bitOf v p.pRxen ∧
    bitOf (v &&& ~~~bitMask p.pUdrie) p.pTxen = bitOf v p.pTxen := by
  obtain ⟨⟨h1, h2, h3, h4⟩, d1, d2, d3, d4, d5, d6⟩ := Params.csb_facts hp
  simp [bitOf_not, bitOf_bitMask, Ne.symm d1, *]

end

/-- The enables after the rest of the transmit-empty body: UDRIE is cleared where the ring is empty (R155). -/
theorem txBodyEnd_enables {s : State} (hc : s.cfg.ok = true) :
    rxcie (txBodyEnd s) = rxcie s ∧ rxen (txBodyEnd s) = rxen s ∧ txen (txBodyEnd s) = txen s ∧
      udrie (txBodyEnd s) = (udrie s && decide (s.txHead ≠ s.txTail)) := by
  obtain ⟨hrxcie, hudrie, hrxen, htxen⟩ := enables_clearUdrie hc s.csb
  by_cases he : s.txHead = s.txTail
  · simp [rxcie, rxen, txen, udrie, he, hrxcie, hrxen, htxen, hudrie]
  · simp [rxcie, rxen, txen, udrie, he]

/-! ### The receive body before it stores -/

/-- A read of DR takes the waiting byte and besides changes the bus trace and the supply of free bytes alone (R40). -/
theorem readDr_state (s : State) : (readDr s).2 = { s with
    rxWait := none, bus := s.bus ++ [.rd .dr (readDr s).1]
    drawIn := (readDr s).2.drawIn, drawCount := (readDr s).2.drawCount } := by
  cases hw : s.rxWait with
  | some w => simp [readDr, hw, logAccess]
  | none => cases hd : s.drawIn <;> simp [readDr, drawByte, hw, hd, logAccess]

/-- The two reads of the receive body (R151). -/
theorem rxTaken_state (s : State) : rxTaken s = { s with
    rxWait := none, bus := s.bus ++ [.rd .csa (rxStatus s), .rd .dr (rxData s)]
    drawIn := (rxTaken s).drawIn, drawCount := (rxTaken s).drawCount } := by
  refine (readDr_state _).trans ?_
  simp [rxTaken, rxStatus, rxData]

/-- A hook call is recorded and takes the next scripted answer (R87). -/
theorem callHook_state (h : Handle) (b v : Byte) (s : State) : (callHook h b v s).2 = { s with
    hookIn := s.hookIn.tail, hookCalls := s.hookCalls ++ [⟨h, b, v, (callHook h b v s).1⟩] } := by
  unfold callHook
  cases s.hookIn <;> rfl

/-- The receive body up to its decision changes the unit's waiting byte, the observations and the inputs alone
(R151). -/
theorem rxDecided_state (s : State) : rxDecided s = { s with
    rxWait := none, bus := (rxDecided s).bus, hookCalls := (rxDecided s).hookCalls
    hookIn := (rxDecided s).hookIn, drawIn := (rxDecided s).drawIn, drawCount := (rxDecided s).drawCount } := by
  unfold rxDecided
  split
  · rw [callHook_state, rxTaken_state]
  · rw [rxTaken_state]

/-! ### Occupied cells and the storage spaces -/

/-- The distance from the tail tells two cells apart (R37e). -/
theorem ringCount_inj {c i j t : Nat} (hi : i < c) (hj : j < c) (ht : t < c)
    (h : ringCount c i t = ringCount c j t) : i = j := by
  rw [ringCount_eq hi ht, ringCount_eq hj ht] at h
  split at h <;> split at h <;> omega

/-- The next cells of two cells differ where the cells do. -/
theorem nextIndex_inj {c i j : Nat} (hi : i < c) (hj : j < c) (h : nextIndex c i = nextIndex c j) : i = j := by
  rw [nextIndex_eq hi, nextIndex_eq hj] at h
  split at h <;> split at h <;> omega

/-- A push makes the cell at the head occupied and no other. -/
theorem occupied_push {c h t i : Nat} (hh : h < c) (ht : t < c) (hn : nextIndex c h ≠ t)
    (ho : occupied c (nextIndex c h) t i) : i = h ∨ occupied c h t i := by
  obtain ⟨hi, hlt⟩ := ho
  rw [ringCount_push hh ht hn] at hlt
  by_cases he : ringCount c i t = ringCount c h t
  · exact .inl (ringCount_inj hi hh ht he)
  · exact .inr ⟨hi, by omega⟩

/-- A pop makes no cell occupied. -/
theorem occupied_pop {c h t i : Nat} (hh : h < c) (ht : t < c) (hn : h ≠ t)
    (ho : occupied c h (nextIndex c t) i) : occupied c h t i := by
  obtain ⟨hi, hlt⟩ := ho
  have hpop := ringCount_pop hh ht hn
  refine ⟨hi, ?_⟩
  by_cases he : i = t
  · rw [he, ringCount_self]
    omega
  · have := ringCount_pop hi ht he
    omega

/-- No cell of an empty ring is occupied. -/
theorem not_occupied_self {c h i : Nat} : ¬ occupied c h h i := by
  simp [occupied]

/-- The cell at the tail of a ring that is not empty is occupied. -/
theorem occupied_tail {c h t : Nat} (hh : h < c) (ht : t < c) (hn : h ≠ t) : occupied c h t t := by
  refine ⟨ht, ?_⟩
  rw [ringCount_self]
  exact Nat.pos_of_ne_zero (mt (ringCount_eq_zero hh ht).1 hn)

/-- A store in range keeps a storage space canonical and in range (R50). -/
theorem storageOk_write {c a : Nat} {m : Memory} (v : Byte) (h : storageOk c m) (ha : a < c) :
    storageOk c (m.write a v) := by
  refine ⟨Memory.wf_write a v h.1, fun x hx => ?_⟩
  rcases Memory.mem_write hx with rfl | hx
  · exact ha
  · exact h.2 x hx

/-- A store leaves every written cell written. -/
theorem isSome_read_write {m : Memory} {a i : Nat} (v : Byte) (h : i = a ∨ (m.read i).isSome = true) :
    ((m.write a v).read i).isSome = true := by
  rw [Memory.read_write]
  split
  · rfl
  · rename_i hne
    exact h.resolve_left hne

/-! ### The invariant apart from the label -/

/-- What the invariant says of a state whatever command runs: all its clauses but `sequencer`. -/
abbrev RestInv (s : State) : Prop := BlockInv (goTo .idle s)

theorem blockInv_iff (s : State) : BlockInv s ↔ RestInv s ∧ sequencerOk s :=
  ⟨fun h => ⟨⟨h.config, h.rxIndices, h.txIndices, h.rxStorage, h.txStorage, h.hookHandle, h.udrieIff,
      h.uninitialized, h.active, h.rxWritten, h.txWritten, h.txcIdle, h.onItsWay, trivial⟩, h.sequencer⟩,
    fun ⟨h, hq⟩ => ⟨h.config, h.rxIndices, h.txIndices, h.rxStorage, h.txStorage, h.hookHandle, h.udrieIff,
      h.uninitialized, h.active, h.rxWritten, h.txWritten, h.txcIdle, h.onItsWay, hq⟩⟩

section
variable {s : State} (h : RestInv s)
include h

/-- The fields the invariant does not speak of. -/
theorem RestInv.frame {t : State} (ht : t = { s with
    fg := t.fg, gie := t.gie, brh := t.brh, brl := t.brl, csc := t.csc, u2x := t.u2x, mpcm := t.mpcm
    rxWait := t.rxWait, wireOut := t.wireOut, responses := t.responses, bus := t.bus, hookCalls := t.hookCalls
    sched := t.sched, hookIn := t.hookIn, drawIn := t.drawIn, drawCount := t.drawCount }) : RestInv t := by
  rw [RestInv, ht]
  exact ⟨h.config, h.rxIndices, h.txIndices, h.rxStorage, h.txStorage, h.hookHandle, h.udrieIff,
    h.uninitialized, h.active, h.rxWritten, h.txWritten, h.txcIdle, h.onItsWay, trivial⟩

theorem RestInv.goTo (l : Fg) : RestInv (goTo l s) := h.frame rfl

theorem RestInv.readCsa : RestInv (readCsa s).2 := h.frame (by rw [readCsa_state])

/-- Both rings have room for an index 0. -/
theorem RestInv.cap_pos : 0 < s.cfg.cRx ∧ 0 < s.cfg.cTx := by
  have hrx : 2 ≤ s.cfg.cRx ∧ 2 ≤ s.cfg.cTx := Params.cap_facts h.config
  omega

/-- S1 of BEGIN (R114). -/
theorem RestInv.lineBegun (baud : BitVec 32) (frame : Byte) : RestInv (lineBegun baud frame s) := by
  obtain ⟨hrx, htx⟩ := h.cap_pos
  obtain ⟨hrxcie, hudrie, hrxen, htxen⟩ := enables_begin h.config s.csb
  exact {
    config := h.config
    rxIndices := ⟨hrx, hrx⟩
    txIndices := ⟨htx, htx⟩
    rxStorage := h.rxStorage
    txStorage := h.txStorage
    hookHandle := h.hookHandle
    udrieIff := iff_of_false (Bool.eq_false_iff.1 hudrie) (fun hne => hne rfl)
    uninitialized := nofun
    active := fun _ => ⟨hrxcie, hrxen, htxen⟩
    rxWritten := fun _ ho => absurd ho not_occupied_self
    txWritten := fun _ ho => absurd ho not_occupied_self
    txcIdle := h.txcIdle
    onItsWay := nofun
    sequencer := trivial }

/-- E1 of END, where nothing written is still on its way (R118). -/
theorem RestInv.lineEnded (hw : s.written = true → s.txc = true) : RestInv (lineEnded s) := by
  obtain ⟨hrx, htx⟩ := h.cap_pos
  obtain ⟨hrxcie, hudrie, -, -⟩ := enables_end h.config s.csb
  exact {
    config := h.config
    rxIndices := ⟨hrx, hrx⟩
    txIndices := ⟨htx, htx⟩
    rxStorage := h.rxStorage
    txStorage := h.txStorage
    hookHandle := h.hookHandle
    udrieIff := iff_of_false (Bool.eq_false_iff.1 hudrie) (fun hne => hne rfl)
    uninitialized := fun _ => ⟨hrxcie, hudrie, rfl, rfl⟩
    active := nofun
    rxWritten := fun _ ho => absurd ho not_occupied_self
    txWritten := fun _ ho => absurd ho not_occupied_self
    txcIdle := h.txcIdle
    onItsWay := fun hx => .inr (.inr (.inr (hw hx)))
    sequencer := trivial }

/-- S1 of ATTACH (R121). -/
theorem RestInv.hookReplaced (a : Handle) : RestInv { s with hook := hookOf a } where
  config := h.config
  rxIndices := h.rxIndices
  txIndices := h.txIndices
  rxStorage := h.rxStorage
  txStorage := h.txStorage
  hookHandle := by
    show hookOf a ≠ some 0
    unfold hookOf
    split
    · nofun
    · simpa
  udrieIff := h.udrieIff
  uninitialized := h.uninitialized
  active := h.active
  rxWritten := h.rxWritten
  txWritten := h.txWritten
  txcIdle := h.txcIdle
  onItsWay := h.onItsWay
  sequencer := trivial

/-- S3 of READ on a ring that is not empty (R135). -/
theorem RestInv.byteTaken (hne : s.rxHead ≠ s.rxTail) :
    RestInv { s with rxTail := nextIndex s.cfg.cRx s.rxTail } where
  config := h.config
  rxIndices := ⟨h.rxIndices.1, nextIndex_lt h.cap_pos.1⟩
  txIndices := h.txIndices
  rxStorage := h.rxStorage
  txStorage := h.txStorage
  hookHandle := h.hookHandle
  udrieIff := h.udrieIff
  uninitialized := fun hl => absurd (h.uninitialized hl).2.2.1 hne
  active := h.active
  rxWritten := fun i ho => h.rxWritten i (occupied_pop h.rxIndices.1 h.rxIndices.2 hne ho)
  txWritten := h.txWritten
  txcIdle := h.txcIdle
  onItsWay := h.onItsWay
  sequencer := trivial

/-- W3 of WRITE (R140). -/
theorem RestInv.byteStored {a : Nat} (ha : a < s.cfg.cTx) (byte : Byte) :
    RestInv { s with txBuf := s.txBuf.write a byte } where
  config := h.config
  rxIndices := h.rxIndices
  txIndices := h.txIndices
  rxStorage := h.rxStorage
  txStorage := storageOk_write byte h.txStorage ha
  hookHandle := h.hookHandle
  udrieIff := h.udrieIff
  uninitialized := h.uninitialized
  active := h.active
  rxWritten := h.rxWritten
  txWritten := fun i ho => isSome_read_write byte (.inr (h.txWritten i ho))
  txcIdle := h.txcIdle
  onItsWay := h.onItsWay
  sequencer := trivial

/-- W4 of WRITE, the byte stored in the free cell at the head (R140). -/
theorem RestInv.published (hl : s.line = .active) (hroom : nextIndex s.cfg.cTx s.txHead ≠ s.txTail)
    (hb : (s.txBuf.read s.txHead).isSome = true) : RestInv (published (nextIndex s.cfg.cTx s.txHead) s) := by
  obtain ⟨hrxcie, hudrie, hrxen, htxen⟩ := enables_setUdrie h.config s.csb
  exact {
    config := h.config
    rxIndices := h.rxIndices
    txIndices := ⟨nextIndex_lt h.cap_pos.2, h.txIndices.2⟩
    rxStorage := h.rxStorage
    txStorage := h.txStorage
    hookHandle := h.hookHandle
    udrieIff := iff_of_true hudrie hroom
    uninitialized := fun hu => nomatch hl.symm.trans hu
    active := fun ha => by
      obtain ⟨h1, h2, h3⟩ := h.active ha
      exact ⟨hrxcie.trans h1, hrxen.trans h2, htxen.trans h3⟩
    rxWritten := h.rxWritten
    txWritten := fun i ho => (occupied_push h.txIndices.1 h.txIndices.2 hroom ho).elim (fun e => e ▸ hb)
        (h.txWritten i)
    txcIdle := h.txcIdle
    onItsWay := fun _ => .inl hroom
    sequencer := trivial }

/-- The transmit-empty body on a ring that is not empty (R155). -/
theorem RestInv.transmitted (hne : s.txHead ≠ s.txTail) (c : Byte) : RestInv (txBodyEnd (handedOver c s)) := by
  obtain ⟨hrxcie, hrxen, htxen, hudrie⟩ := txBodyEnd_enables (s := handedOver c s) h.config
  have hset : udrie s = true := h.udrieIff.2 hne
  have hactive : s.line = .active → rxcie s = true ∧ rxen s = true ∧ txen s = true := h.active
  have hu : udrie (txBodyEnd (handedOver c s)) = true ↔ s.txHead ≠ nextIndex s.cfg.cTx s.txTail := by
    rw [hudrie, show udrie (handedOver c s) = true from hset, Bool.true_and]
    exact decide_eq_true_iff
  rw [txBodyEnd_state (s := handedOver c s) h.config] at hrxcie hrxen htxen hu ⊢
  exact {
    config := h.config
    rxIndices := h.rxIndices
    txIndices := ⟨h.txIndices.1, nextIndex_lt h.cap_pos.2⟩
    rxStorage := h.rxStorage
    txStorage := h.txStorage
    hookHandle := h.hookHandle
    udrieIff := hu
    uninitialized := fun hl => absurd (h.uninitialized hl).2.2.2 hne
    active := fun ha => ⟨hrxcie.trans (hactive ha).1, hrxen.trans (hactive ha).2.1, htxen.trans (hactive ha).2.2⟩
    rxWritten := h.rxWritten
    txWritten := fun i ho => h.txWritten i (occupied_pop h.txIndices.1 h.txIndices.2 hne ho)
    txcIdle := nofun
    onItsWay := fun _ => .inr (.inl rfl)
    sequencer := trivial }

/-- The receive body up to its decision (R151). -/
theorem RestInv.rxDecided : RestInv (rxDecided s) := h.frame (by rw [rxDecided_state])

/-- The receive body stores its byte, on an active line (R151). -/
theorem RestInv.received (hl : s.line = .active) (hroom : nextIndex s.cfg.cRx s.rxHead ≠ s.rxTail) (d : Byte) :
    RestInv { s with rxBuf := s.rxBuf.write s.rxHead d, rxHead := nextIndex s.cfg.cRx s.rxHead } where
  config := h.config
  rxIndices := ⟨nextIndex_lt h.cap_pos.1, h.rxIndices.2⟩
  txIndices := h.txIndices
  rxStorage := storageOk_write d h.rxStorage h.rxIndices.1
  txStorage := h.txStorage
  hookHandle := h.hookHandle
  udrieIff := h.udrieIff
  uninitialized := fun hu => nomatch hl.symm.trans hu
  active := h.active
  rxWritten := fun i ho => isSome_read_write d
    ((occupied_push h.rxIndices.1 h.rxIndices.2 hroom ho).imp_right (h.rxWritten i))
  txWritten := h.txWritten
  txcIdle := h.txcIdle
  onItsWay := h.onItsWay
  sequencer := trivial

/-- LOAD: the held byte moves to the shifter, so that nothing was complete (R42). -/
theorem RestInv.loaded {t : State} (hx : unitLoad s = .next t) : RestInv t := by
  obtain ⟨he, rfl⟩ := unitLoad_next hx
  have hheld : s.txHold.isSome = true := by
    simp only [loadEnabled, Bool.and_eq_true] at he
    exact he.1.2
  exact {
    config := h.config
    rxIndices := h.rxIndices
    txIndices := h.txIndices
    rxStorage := h.rxStorage
    txStorage := h.txStorage
    hookHandle := h.hookHandle
    udrieIff := h.udrieIff
    uninitialized := h.uninitialized
    active := h.active
    rxWritten := h.rxWritten
    txWritten := h.txWritten
    txcIdle := fun hc => by
      have hnone : s.txHold = none := (h.txcIdle hc).1
      simp [hnone] at hheld
    onItsWay := fun _ => .inr (.inr (.inl hheld))
    sequencer := trivial }

/-- DONE: with the shifter empty and nothing held, the transmission is complete (R43). -/
theorem RestInv.sent {t : State} (hx : unitDone s = .next t) : RestInv t := by
  obtain ⟨b, -, rfl⟩ := unitDone_next hx
  exact {
    config := h.config
    rxIndices := h.rxIndices
    txIndices := h.txIndices
    rxStorage := h.rxStorage
    txStorage := h.txStorage
    hookHandle := h.hookHandle
    udrieIff := h.udrieIff
    uninitialized := h.uninitialized
    active := h.active
    rxWritten := h.rxWritten
    txWritten := h.txWritten
    txcIdle := fun hc => by
      refine ⟨?_, rfl⟩
      cases hh : s.txHold with
      | none => rfl
      | some c =>
        have hc' : s.txc = true := by simpa [hh] using hc
        exact nomatch hh.symm.trans (h.txcIdle hc').1
    onItsWay := fun _ => by
      cases s.txHold with
      | none => simp
      | some c => simp
    sequencer := trivial }

end

end Sys2Proof.Machine
end

section
/-! The invariant's promise at each label (R28): kept by the commands at their own steps, and by every other agent
between them; with the rest of the invariant, kept by every step. -/

namespace Sys2Proof.Machine

/-! ### The promise at a label, kept by the other agents -/

/-- The fields no label promises anything about. -/
theorem sequencerOk_frame {s t : State} (hq : sequencerOk s) (ht : t = { s with
    hook := t.hook, brh := t.brh, brl := t.brl, csb := t.csb, csc := t.csc, u2x := t.u2x, mpcm := t.mpcm
    rxWait := t.rxWait, txHold := t.txHold, txShift := t.txShift, wireOut := t.wireOut, responses := t.responses
    bus := t.bus, hookCalls := t.hookCalls, sched := t.sched, hookIn := t.hookIn, drawIn := t.drawIn
    drawCount := t.drawCount }) : sequencerOk t := by
  rw [ht]
  exact hq

/-- A byte stored in the RX ring and published keeps what AVAIL, PEEK and READ have seen (R151). -/
theorem sequencerOk_received {s : State} (f : Fg) (hh : s.rxHead < s.cfg.cRx) (ht : s.rxTail < s.cfg.cRx)
    (hroom : nextIndex s.cfg.cRx s.rxHead ≠ s.rxTail) (d : Byte) (hq : sequencerOk (goTo f s)) :
    sequencerOk (goTo f { s with
      rxBuf := s.rxBuf.write s.rxHead d, rxHead := nextIndex s.cfg.cRx s.rxHead }) := by
  match f with
  | .avail (.s2 a b) => exact le_trans hq (Nat.le.intro (ringCount_push hh ht hroom).symm)
  | .peek (.s2 a) => exact ⟨hq.1, hroom⟩
  | .peek (.s3 b) =>
    obtain ⟨hne, hb⟩ := hq
    exact ⟨hroom, (Memory.read_write_ne _ _ hne.symm).trans hb⟩
  | .read (.s2 a) => exact ⟨hq.1, hroom⟩
  | .read (.s3 a b) =>
    have hq' : a = s.rxTail ∧ s.rxHead ≠ s.rxTail ∧ s.rxBuf.read a = some b := hq
    obtain ⟨rfl, hne, hb⟩ := hq'
    exact ⟨rfl, hroom, (Memory.read_write_ne _ _ hne.symm).trans hb⟩
  | .idle | .ready | .beginLine _ _ .s1 | .beginLine _ _ .s2 | .endLine (.drain _) | .endLine .e1 | .endLine .e2
  | .avail .s1 | .peek .s1 | .read .s1 | .read (.s4 _) | .availw .s1 | .availw (.s2 _ _) | .flush _ | .write _ _
  | .attach _ _ => exact hq

/-- The fields the transmit-empty body writes (R155). -/
theorem txEmptyBody_state {s t : State} (hc : s.cfg.ok = true) (h : txEmptyBody s = .next t) : t = { s with
    txTail := nextIndex s.cfg.cTx s.txTail, txHold := t.txHold, txc := t.txc, csb := t.csb, bus := t.bus
    drawIn := t.drawIn, drawCount := t.drawCount } := by
  obtain ⟨-, -, -, rfl⟩ := txEmptyBody_next h
  rw [txBodyEnd_state (s := handedOver (cellValue .txb s.txBuf s.txTail) s) hc]
  rfl

/-- The flush loop's promise while a handler takes a byte out of the TX ring: F3 has seen it empty, and F4 promises
nothing where handlers run. -/
theorem flushOk_transmitted {s t : State} {pt : FlushPt} (hne : s.txHead ≠ s.txTail) (hg : s.gie = true)
    (hl : t.line = s.line) (hw : t.written = s.written) (hgie : t.gie = s.gie) (hq : flushOk s pt) :
    flushOk t pt := by
  obtain ⟨hline, hwritten, hempty, -⟩ := hq
  exact ⟨hl.trans hline, fun h1 => hw.trans (hwritten h1), fun h3 => absurd (hempty h3) hne,
    fun _ h4 => by simp [hgie, hg] at h4⟩

/-- A byte taken out of the TX ring by the handler keeps what AVAILW and WRITE have seen (R155). -/
theorem sequencerOk_transmitted {s t : State} (f : Fg) (hh : s.txHead < s.cfg.cTx) (htail : s.txTail < s.cfg.cTx)
    (hne : s.txHead ≠ s.txTail) (hg : s.gie = true) (ht : t = { s with
      txTail := nextIndex s.cfg.cTx s.txTail, txHold := t.txHold, txc := t.txc, csb := t.csb, bus := t.bus
      drawIn := t.drawIn, drawCount := t.drawCount })
    (hq : sequencerOk (goTo f s)) : sequencerOk (goTo f t) := by
  rw [ht]
  have hfree : ∀ {n}, n = nextIndex s.cfg.cTx s.txHead → n ≠ nextIndex s.cfg.cTx s.txTail :=
    fun hn he => hne (nextIndex_inj hh htail (hn.symm.trans he))
  match f with
  | .endLine (.drain pt) | .flush pt => exact flushOk_transmitted (s := goTo _ s) hne hg rfl rfl rfl hq
  | .endLine .e1 => exact ⟨hq.1, fun hw => absurd (hq.2 hw).1 hne⟩
  | .availw (.s2 a b) => exact le_trans (Nat.le.intro (ringCount_pop hh htail hne)) hq
  | .write _ .w2 => exact ⟨hq.1, fun hm => nomatch hg.symm.trans hm⟩
  | .write _ (.w3 a n) =>
    obtain ⟨hl, ha, hn, -⟩ := hq
    exact ⟨hl, ha, hn, hfree (ha ▸ hn)⟩
  | .write _ (.w4 a n) =>
    obtain ⟨hl, ha, hn, -, hb⟩ := hq
    exact ⟨hl, ha, hn, hfree (ha ▸ hn), hb⟩
  | .idle | .ready | .beginLine _ _ .s1 | .beginLine _ _ .s2 | .endLine .e2 | .avail .s1 | .avail (.s2 _ _)
  | .peek .s1 | .peek (.s2 _) | .peek (.s3 _) | .read .s1 | .read (.s2 _) | .read (.s3 _ _) | .read (.s4 _)
  | .availw .s1 | .write _ .w1 | .write _ .w5 | .attach _ _ => exact hq

/-- DONE keeps what E1 of END promises: TXC does not fall (R43). -/
theorem sequencerOk_sent {s t : State} (f : Fg) (hx : unitDone s = .next t) (hq : sequencerOk (goTo f s)) :
    sequencerOk (goTo f t) := by
  obtain ⟨b, -, rfl⟩ := unitDone_next hx
  match f with
  | .endLine .e1 =>
    refine ⟨hq.1, fun hw => ⟨(hq.2 hw).1, ?_⟩⟩
    have hc : s.txc = true := (hq.2 hw).2
    simp [hc]
  | .idle | .ready | .beginLine _ _ .s1 | .beginLine _ _ .s2 | .endLine (.drain _) | .endLine .e2 | .avail .s1
  | .avail (.s2 _ _) | .peek .s1 | .peek (.s2 _) | .peek (.s3 _) | .read .s1 | .read (.s2 _) | .read (.s3 _ _)
  | .read (.s4 _) | .availw .s1 | .availw (.s2 _ _) | .flush _ | .write _ _ | .attach _ _ => exact hq

/-! ### The promise at a label, made by the command -/

/-- The masked fallback leaves the line and `written` as they were. -/
theorem pollAndPump_line_written {s t : State} (h : pollAndPump s = .next t) :
    t.line = s.line ∧ t.written = s.written := by
  rcases pollAndPump_pumped h with rfl | ⟨-, -, -, rfl⟩ <;> simp [pumped]

/-- A step of the flush loop goes to a label whose promise holds, or is finished: with nothing written, or with the
ring empty and the transmission complete (R144). -/
theorem flushStep_flushOk {loc : FlushPt → Fg} {finish : State → State} {pt : FlushPt} {s t : State}
    (hq : flushOk s pt) (h : flushStep loc finish pt s = .next t) :
    (∃ q, t.fg = loc q ∧ flushOk t q) ∨
    ∃ u, t = finish u ∧ u.line = .active ∧ (u.written = true → u.txHead = u.txTail ∧ u.txc = true) := by
  obtain ⟨hl, hw, hempty, -⟩ := hq
  cases flushStep_next h with
  | written hwr ht => exact .inl ⟨.f2, ht ▸ rfl, ht ▸ ⟨hl, fun _ => hwr, nofun, nofun⟩⟩
  | nothingWritten hwr ht => exact .inr ⟨s, ht, hl, fun hx => nomatch hwr.symm.trans hx⟩
  | ringEmpty he ht => exact .inl ⟨.f3, ht ▸ rfl, ht ▸ ⟨hl, fun _ => hw nofun, fun _ => he, nofun⟩⟩
  | stillQueued he ht => exact .inl ⟨.f4, ht ▸ rfl, ht ▸ ⟨hl, fun _ => hw nofun, nofun, fun _ _ => he⟩⟩
  | complete hc ht => exact .inr ⟨_, ht, by simpa using hl, fun _ => by simpa using ⟨hempty rfl, hc⟩⟩
  | notComplete hc ht =>
    subst ht
    exact .inl ⟨.f2, rfl, by simpa using hl, fun _ => by simpa using hw nofun, nofun, nofun⟩
  | reChecks hg ht => exact .inl ⟨.f2, ht ▸ rfl, ht ▸ ⟨hl, fun _ => hw nofun, nofun, nofun⟩⟩
  | pumps u hg hm hu ht =>
    obtain ⟨hul, huw⟩ := pollAndPump_line_written hu
    exact .inl ⟨.f2, ht ▸ rfl, ht ▸ ⟨hul.trans hl, fun _ => huw.trans (hw nofun), nofun, nofun⟩⟩

/-- A state whose label is known has the promise of that label. -/
theorem sequencerOk_at {s : State} {f : Fg} (h : BlockInv s) (hf : s.fg = f) : sequencerOk (goTo f s) :=
  hf ▸ h.sequencer

section
variable {s t : State} (h : BlockInv s)
include h

/-! What the labels promise whose locals later steps use (R28). -/

theorem BlockInv.at_flush {pt : FlushPt} (hf : s.fg = .flush pt) : flushOk s pt := sequencerOk_at h hf

theorem BlockInv.at_drain {pt : FlushPt} (hf : s.fg = .endLine (.drain pt)) : flushOk s pt := sequencerOk_at h hf

theorem BlockInv.at_e1 (hf : s.fg = .endLine .e1) :
    s.line = .active ∧ (s.written = true → s.txHead = s.txTail ∧ s.txc = true) := sequencerOk_at h hf

theorem BlockInv.at_peek_s2 {k : Nat} (hf : s.fg = .peek (.s2 k)) : k = s.rxTail ∧ s.rxHead ≠ s.rxTail :=
  sequencerOk_at h hf

theorem BlockInv.at_peek_s3 {b : Byte} (hf : s.fg = .peek (.s3 b)) :
    s.rxHead ≠ s.rxTail ∧ s.rxBuf.read s.rxTail = some b := sequencerOk_at h hf

theorem BlockInv.at_read_s2 {k : Nat} (hf : s.fg = .read (.s2 k)) : k = s.rxTail ∧ s.rxHead ≠ s.rxTail :=
  sequencerOk_at h hf

theorem BlockInv.at_read_s3 {k : Nat} {b : Byte} (hf : s.fg = .read (.s3 k b)) :
    k = s.rxTail ∧ s.rxHead ≠ s.rxTail ∧ s.rxBuf.read k = some b := sequencerOk_at h hf

theorem BlockInv.at_avail_s2 {a b : Nat} (hf : s.fg = .avail (.s2 a b)) :
    ringCount s.cfg.cRx a b ≤ count .rx s := sequencerOk_at h hf

theorem BlockInv.at_availw_s2 {a b : Nat} (hf : s.fg = .availw (.s2 a b)) :
    count .tx s ≤ ringCount s.cfg.cTx a b := sequencerOk_at h hf

theorem BlockInv.at_write {c : Byte} {pt : WritePt} (hf : s.fg = .write c pt) : s.line = .active :=
  (sequencerOk_at h hf).1

theorem BlockInv.at_w2 {c : Byte} (hf : s.fg = .write c .w2) (hg : s.gie = false) :
    nextIndex s.cfg.cTx s.txHead = s.txTail := (sequencerOk_at h hf).2 hg

theorem BlockInv.at_w3 {c : Byte} {a n : Nat} (hf : s.fg = .write c (.w3 a n)) :
    a = s.txHead ∧ n = nextIndex s.cfg.cTx a ∧ n ≠ s.txTail := (sequencerOk_at h hf).2

theorem BlockInv.at_w4 {c : Byte} {a n : Nat} (hf : s.fg = .write c (.w4 a n)) :
    a = s.txHead ∧ n = nextIndex s.cfg.cTx a ∧ n ≠ s.txTail ∧ s.txBuf.read a = some c := (sequencerOk_at h hf).2

/-! What each command leaves at its label. -/

theorem execFlush_sequencerOk (hx : execFlush s = .next t) : sequencerOk t := by
  obtain ⟨-, hl, rfl⟩ | ⟨pt, hf, hx⟩ := execFlush_next hx
  · exact ⟨hl, fun hne => absurd rfl hne, nofun, nofun⟩
  · obtain ⟨q, hfg, hok⟩ | ⟨u, rfl, -⟩ := flushStep_flushOk (h.at_flush hf) hx
    · simpa [sequencerOk, hfg] using hok
    · trivial

theorem execEnd_sequencerOk (hx : execEnd s = .next t) : sequencerOk t := by
  obtain ⟨-, hl, rfl⟩ | ⟨pt, hf, hx⟩ | ⟨-, rfl⟩ | ⟨-, rfl⟩ := execEnd_next hx
  · exact ⟨hl, fun hne => absurd rfl hne, nofun, nofun⟩
  · obtain ⟨q, hfg, hok⟩ | ⟨u, rfl, hl, hc⟩ := flushStep_flushOk (h.at_drain hf) hx
    · simpa [sequencerOk, hfg] using hok
    · exact ⟨hl, hc⟩
  · exact rfl
  · trivial

theorem execWrite_sequencerOk {c : Byte} (hx : execWrite c s = .next t) : sequencerOk t := by
  obtain ⟨-, hl, rfl⟩ | ⟨hf, hfull, rfl⟩ | ⟨hf, hroom, rfl⟩ | ⟨hf, -, rfl⟩ | ⟨hf, -, u, hu, rfl⟩ |
      ⟨a, n, hf, -, rfl⟩ |
    ⟨a, n, hf, rfl⟩ | ⟨-, rfl⟩ := execWrite_next hx
  · exact ⟨hl, trivial⟩
  · exact ⟨h.at_write hf, fun _ => hfull⟩
  · exact ⟨h.at_write hf, rfl, rfl, hroom⟩
  · exact ⟨h.at_write hf, trivial⟩
  · exact ⟨(pollAndPump_line_written hu).1.trans (h.at_write hf), trivial⟩
  · obtain ⟨rfl, hn, hroom⟩ := h.at_w3 hf
    exact ⟨h.at_write hf, rfl, hn, hroom, Memory.read_write_same ..⟩
  · exact ⟨h.at_write hf, trivial⟩
  · trivial

/-- The byte at the tail of an RX ring that is not empty has been written (R53). -/
theorem BlockInv.rxTail_written (hne : s.rxHead ≠ s.rxTail) :
    s.rxBuf.read s.rxTail = some (cellValue .rxb s.rxBuf s.rxTail) := by
  obtain ⟨b, hb⟩ := Option.isSome_iff_exists.1
    (h.rxWritten _ (occupied_tail h.rxIndices.1 h.rxIndices.2 hne))
  rw [hb, cellValue_of_read hb]

theorem execPeek_sequencerOk (hx : execPeek s = .next t) : sequencerOk t := by
  obtain ⟨-, rfl⟩ | ⟨-, -, rfl⟩ | ⟨-, hne, rfl⟩ | ⟨a, hf, -, rfl⟩ | ⟨b, -, rfl⟩ := execPeek_next hx
  · trivial
  · trivial
  · exact ⟨rfl, hne⟩
  · obtain ⟨rfl, hne⟩ := h.at_peek_s2 hf
    exact ⟨hne, h.rxTail_written hne⟩
  · trivial

theorem execRead_sequencerOk (hx : execRead s = .next t) : sequencerOk t := by
  obtain ⟨-, rfl⟩ | ⟨-, -, rfl⟩ | ⟨-, hne, rfl⟩ | ⟨a, hf, -, rfl⟩ | ⟨a, b, -, rfl⟩ | ⟨b, -, rfl⟩ := execRead_next hx
  · trivial
  · trivial
  · exact ⟨rfl, hne⟩
  · obtain ⟨rfl, hne⟩ := h.at_read_s2 hf
    exact ⟨rfl, hne, h.rxTail_written hne⟩
  · trivial
  · trivial

/-- What a command's step leaves at its label holds. -/
theorem exec_sequencerOk {i : Instr} (hr : i ≠ .irqRx) (hu : i ≠ .irqUdre) (hx : exec i s = .next t) :
    sequencerOk t := by
  cases i with
  | ready => rcases execReady_next hx with ⟨-, rfl⟩ | ⟨-, rfl⟩ <;> trivial
  | attach a => rcases execAttach_next hx with ⟨-, rfl⟩ | ⟨-, rfl⟩ | ⟨-, rfl⟩ <;> trivial
  | beginLine baud frame =>
    obtain ⟨hok, ⟨-, rfl⟩ | ⟨-, rfl⟩ | ⟨-, rfl⟩⟩ := execBegin_next hx
    · exact hok
    · exact rfl
    · trivial
  | avail =>
    rcases execAvail_next hx with ⟨-, rfl⟩ | ⟨-, rfl⟩ | ⟨a, b, -, rfl⟩
    · trivial
    · exact le_refl (ringCount s.cfg.cRx s.rxHead s.rxTail)
    · trivial
  | availw =>
    rcases execAvailw_next hx with ⟨-, rfl⟩ | ⟨-, rfl⟩ | ⟨a, b, -, rfl⟩
    · trivial
    · exact le_refl (ringCount s.cfg.cTx s.txHead s.txTail)
    · trivial
  | peek => exact execPeek_sequencerOk h hx
  | read => exact execRead_sequencerOk h hx
  | flush => exact execFlush_sequencerOk h hx
  | endLine => exact execEnd_sequencerOk h hx
  | write c => exact execWrite_sequencerOk h hx
  | irqRx => exact absurd rfl hr
  | irqUdre => exact absurd rfl hu

/-! ### Every step keeps the invariant -/

/-- A labelled step keeps what the invariant says apart from the label. -/
theorem LabelStep.restInv (hx : LabelStep s t) : RestInv t := by
  have hrest := ((blockInv_iff s).1 h).1
  cases hx with
  | plain _ ht => exact hrest.frame (by rw [ht])
  | polls _ ht => exact hrest.readCsa.frame (by rw [ht])
  | pumps back _ _ _ _ hne _ ht =>
    rw [ht]
    exact (hrest.readCsa.transmitted (by simpa using hne) _).goTo _
  | begins baud frame _ ht => exact ht ▸ (hrest.lineBegun baud frame).goTo _
  | ends hf ht =>
    obtain ⟨-, hc⟩ := h.at_e1 hf
    exact ht ▸ (hrest.lineEnded fun hw => (hc hw).2).goTo _
  | attaches a _ ht => exact ht ▸ (hrest.hookReplaced a).goTo _
  | takes k b hf ht =>
    obtain ⟨rfl, hne, -⟩ := h.at_read_s3 hf
    exact ht ▸ (hrest.byteTaken hne).goTo _
  | stores byte a n _ ha ht => exact ht ▸ (hrest.byteStored ha byte).goTo _
  | publishes byte a n hf ht =>
    obtain ⟨rfl, rfl, hroom, hb⟩ := h.at_w4 hf
    exact ht ▸ (hrest.published (h.at_write hf) hroom (Option.isSome_of_eq_some hb)).goTo _

/-- A step of a command, presented or running, keeps the invariant. -/
theorem BlockInv.command {i : Instr} (hi : s.fg = .idle ∨ s.fg.command? = some i) (hr : i ≠ .irqRx)
    (hu : i ≠ .irqUdre) (hx : exec i s = .next t) : BlockInv t := by
  refine (blockInv_iff t).2 ⟨?_, exec_sequencerOk h hr hu hx⟩
  rcases hi with hf | hi
  · rw [exec_presented hf hr hu hx]
    exact ((blockInv_iff s).1 h).1.goTo _
  · exact (exec_labelStep hi hx).restInv h

/-- With its interrupt requested, the receive handler runs on an active line (R169). -/
theorem BlockInv.active_of_irqRx (hq : irqRxRequest s = true) : s.line = .active := by
  cases hl : s.line with
  | active => rfl
  | uninitialized =>
    obtain ⟨hm, -⟩ := h.uninitialized hl
    rw [rxcie] at hm
    simp [irqRxRequest, hm] at hq

/-- A kept byte, on an active line, keeps the invariant. -/
theorem BlockInv.storeReceived {d : Byte} (hl : s.line = .active) (hx : storeReceived d s = .next t) :
    BlockInv t := by
  rcases storeReceived_next hx with ⟨-, rfl⟩ | ⟨hroom, hh, rfl⟩
  · exact h
  · exact (blockInv_iff _).2 ⟨((blockInv_iff s).1 h).1.received hl hroom d,
      sequencerOk_received s.fg hh h.rxIndices.2 hroom d h.sequencer⟩

/-- IRQ_RX keeps the invariant. -/
theorem BlockInv.receives (hq : irqRxRequest s = true) (hx : execIrqRx s = .next t) : BlockInv t := by
  have hdecided : BlockInv (rxDecided s) :=
    (blockInv_iff _).2 ⟨((blockInv_iff s).1 h).1.rxDecided, sequencerOk_frame h.sequencer (by rw [rxDecided_state])⟩
  rw [execIrqRx, rxBody_eq] at hx
  split at hx
  · exact hdecided.storeReceived (by simpa using h.active_of_irqRx hq) hx
  · obtain rfl := Host.Outcome.next.inj hx
    exact hdecided

/-- IRQ_UDRE, invoked with `gie = 1`, keeps the invariant. -/
theorem BlockInv.transmits (hg : s.gie = true) (hx : execIrqUdre s = .next t) : BlockInv t := by
  obtain ⟨hne, htail, -, ht⟩ := txEmptyBody_next hx
  have hstate := txEmptyBody_state h.config hx
  have hfg : t.fg = s.fg := by rw [hstate]
  have hq := sequencerOk_transmitted s.fg h.txIndices.1 htail hne hg hstate h.sequencer
  rw [← hfg] at hq
  exact (blockInv_iff t).2 ⟨ht ▸ ((blockInv_iff s).1 h).1.transmitted hne _, hq⟩

/-- RECEIVE keeps the invariant. -/
theorem BlockInv.unitReceives {b : Byte} {pe : Bool} (hx : unitReceive b pe s = .next t) : BlockInv t := by
  obtain ⟨-, rfl⟩ := unitReceive_next hx
  exact (blockInv_iff _).2 ⟨((blockInv_iff s).1 h).1.frame rfl, sequencerOk_frame h.sequencer rfl⟩

/-- LOAD keeps the invariant. -/
theorem BlockInv.unitLoads (hx : unitLoad s = .next t) : BlockInv t := by
  refine (blockInv_iff t).2 ⟨((blockInv_iff s).1 h).1.loaded hx, ?_⟩
  obtain ⟨-, rfl⟩ := unitLoad_next hx
  exact sequencerOk_frame h.sequencer rfl

/-- DONE keeps the invariant. -/
theorem BlockInv.unitSends (hx : unitDone s = .next t) : BlockInv t := by
  refine (blockInv_iff t).2 ⟨((blockInv_iff s).1 h).1.sent hx, ?_⟩
  have hq := sequencerOk_sent s.fg hx h.sequencer
  obtain ⟨b, -, rfl⟩ := unitDone_next hx
  exact hq

/-- A move taken off the schedule keeps the invariant. -/
theorem BlockInv.unscheduled (rest : List Move) : BlockInv { s with sched := rest } :=
  (blockInv_iff _).2 ⟨((blockInv_iff s).1 h).1.frame rfl, sequencerOk_frame h.sequencer rfl⟩

/-- Every move keeps the invariant. -/
theorem BlockInv.runMove {m : Move} (hx : runMove m s = .next t) : BlockInv t := by
  cases m with
  | fg =>
    obtain ⟨i, hi, hx⟩ := moveFg_next hx
    obtain ⟨hr, hu⟩ := command?_not_entry hi
    exact h.command (.inr hi) hr hu hx
  | irq idx =>
    rcases moveIrq_next hx with ⟨-, -, rfl⟩ | ⟨-, hq, hx⟩ | ⟨hg, -, hx⟩
    · exact h
    · exact h.receives hq hx
    · exact h.transmits hg hx
  | receive b pe => exact h.unitReceives hx
  | load => exact h.unitLoads hx
  | done => exact h.unitSends hx
  | present w =>
    obtain ⟨hf, ⟨e, -, rfl⟩ | ⟨i, hi, hx⟩⟩ := movePresent_next hx
    · exact h
    · obtain ⟨hr, hu⟩ := decodeCommand_not_entry hi
      exact h.command (.inl hf) hr hu hx
  | setGie on =>
    obtain ⟨hf, rfl⟩ := moveSetGie_next hx
    exact (blockInv_iff _).2 ⟨((blockInv_iff s).1 h).1.frame rfl, by simp [sequencerOk, hf]⟩

/-- Every step keeps the invariant. -/
theorem BlockInv.step (hx : step s = .next t) : BlockInv t := by
  obtain ⟨-, ⟨-, ⟨-, rfl⟩ | ⟨i, hi, hx⟩⟩ | ⟨m, rest, -, hx⟩⟩ := stepOnce_next hx
  · exact h
  · obtain ⟨hr, hu⟩ := command?_not_entry hi
    exact h.command (.inr hi) hr hu hx
  · exact (h.unscheduled rest).runMove hx

end

/-- Settles O49: `RestInv` and the label's promise, move by move. -/
theorem stepKeepsInv : Obligations.StepKeepsInv := by
  unfold Obligations.StepKeepsInv
  exact fun _ _ h hx => h.step hx

end Sys2Proof.Machine
end

section
/-! No step from a state with the invariant faults (R157, R41, R55). -/

namespace Sys2Proof.Machine

/-! ### Where each operation completes -/

theorem present_ne_fault (i : Instr) (l : Fg) (s : State) (r : Fault) : present i l s ≠ .fault r := by
  unfold present
  split <;> nofun

/-- The masked fallback completes on a ring that is not empty: it runs the body only where DR is free. -/
theorem pollAndPump_completes {s : State} (hne : s.txHead ≠ s.txTail) (ht : s.txTail < s.cfg.cTx) :
    ∃ t, pollAndPump s = .next t := by
  cases hh : s.txHold with
  | none =>
    rw [pollAndPump_of_none hh]
    exact ⟨_, txEmptyBody_eq (by simpa using hne) (by simpa using ht) (by simpa using hh)⟩
  | some c => exact ⟨_, pollAndPump_of_some hh⟩

/-- The receive body completes where the head is in range. -/
theorem rxBody_completes {s : State} (hh : s.rxHead < s.cfg.cRx) : ∃ t, rxBody s = .next t := by
  rw [rxBody_eq]
  split
  · by_cases hfull : nextIndex (rxDecided s).cfg.cRx (rxDecided s).rxHead = (rxDecided s).rxTail
    · exact ⟨_, storeReceived_full hfull⟩
    · exact ⟨_, storeReceived_room (by simpa using hh) hfull⟩
  · exact ⟨_, rfl⟩

/-- A step of the flush loop faults only where its fallback does. -/
theorem flushStep_ne_fault {loc : FlushPt → Fg} {finish : State → State} {pt : FlushPt} {s : State}
    (ht : s.txTail < s.cfg.cTx) (hq : flushOk s pt) (r : Fault) : flushStep loc finish pt s ≠ .fault r := by
  obtain ⟨-, -, -, hpump⟩ := hq
  cases pt with
  | f1 | f2 | f3 => simp only [flushStep]; split <;> simp
  | f4 =>
    simp only [flushStep]
    split
    · rename_i hm
      have hg : s.gie = false := by simpa using (Bool.and_eq_true_iff.1 hm).1
      obtain ⟨u, hu⟩ := pollAndPump_completes (hpump rfl hg) ht
      rw [hu]
      nofun
    · nofun

/-! ### The commands -/

theorem execBegin_ne_fault (s : State) (r : Fault) (baud : BitVec 32) (frame : Byte) :
    execBegin baud frame s ≠ .fault r := by
  unfold execBegin
  simp only [beginAtomic_eq, andThen_of_next]
  split
  · split
    · exact present_ne_fault _ _ _ _
    · split <;> nofun
    · split <;> nofun
    · nofun
  · nofun

theorem execAttach_ne_fault (s : State) (r : Fault) (a : Handle) : execAttach a s ≠ .fault r := by
  unfold execAttach
  split
  · exact present_ne_fault _ _ _ _
  · split <;> nofun
  · split <;> nofun
  · nofun

section
variable {s : State} (h : BlockInv s) (r : Fault)
include h

theorem execPeek_ne_fault : execPeek s ≠ .fault r := by
  unfold execPeek
  split
  · exact present_ne_fault _ _ _ _
  · split <;> nofun
  · rename_i k hf
    obtain ⟨rfl, -⟩ := h.at_peek_s2 hf
    rw [memRead_rxb h.rxIndices.2]
    nofun
  · nofun
  · nofun

theorem execRead_ne_fault : execRead s ≠ .fault r := by
  unfold execRead
  split
  · exact present_ne_fault _ _ _ _
  · split <;> nofun
  · rename_i k hf
    obtain ⟨rfl, -⟩ := h.at_read_s2 hf
    rw [memRead_rxb h.rxIndices.2]
    nofun
  · nofun
  · nofun
  · nofun

theorem execFlush_ne_fault : execFlush s ≠ .fault r := by
  unfold execFlush
  split
  · exact present_ne_fault _ _ _ _
  · rename_i pt hf
    exact flushStep_ne_fault h.txIndices.2 (h.at_flush hf) r
  · nofun

theorem execEnd_ne_fault : execEnd s ≠ .fault r := by
  unfold execEnd
  split
  · exact present_ne_fault _ _ _ _
  · rename_i pt hf
    exact flushStep_ne_fault h.txIndices.2 (h.at_drain hf) r
  · rw [endAtomic_eq]
    nofun
  · nofun
  · nofun

/-- WRITE: at W2 with `gie = 0` the ring is full, so the fallback has a byte to send; at W3 the cell is in range. -/
theorem execWrite_ne_fault (c : Byte) : execWrite c s ≠ .fault r := by
  unfold execWrite
  split
  · exact present_ne_fault _ _ _ _
  · rename_i b pt hf
    split
    · cases pt with
      | w1 => simp only [writeStep, writeW1]; split <;> simp
      | w2 =>
        simp only [writeStep, writeW2]
        split
        · nofun
        · rename_i hg
          have hfull := h.at_w2 hf (Bool.eq_false_iff.2 hg)
          have hne : s.txHead ≠ s.txTail := fun he => by
            have hcap := Params.cap_facts h.config
            have hnext := nextIndex_eq h.txIndices.1
            split at hnext <;> omega
          obtain ⟨u, hu⟩ := pollAndPump_completes hne h.txIndices.2
          rw [hu]
          nofun
      | w3 a n =>
        obtain ⟨rfl, -⟩ := h.at_w3 hf
        rw [writeStep, writeW3, memWrite_txb _ h.txIndices.1]
        nofun
      | w4 a n => rw [writeStep, writeW4_eq]; nofun
      | w5 => nofun
    · nofun
  · nofun

/-- No command's step faults, presented or running. -/
theorem exec_ne_fault {i : Instr} (hr : i ≠ .irqRx) (hu : i ≠ .irqUdre) : exec i s ≠ .fault r := by
  cases i with
  | ready =>
    simp only [exec, execReady]
    split
    · exact present_ne_fault _ _ _ _
    · nofun
    · nofun
  | avail =>
    simp only [exec, execAvail]
    split
    · exact present_ne_fault _ _ _ _
    all_goals nofun
  | availw =>
    simp only [exec, execAvailw]
    split
    · exact present_ne_fault _ _ _ _
    all_goals nofun
  | beginLine baud frame => exact execBegin_ne_fault s r baud frame
  | attach a => exact execAttach_ne_fault s r a
  | peek => exact execPeek_ne_fault h r
  | read => exact execRead_ne_fault h r
  | flush => exact execFlush_ne_fault h r
  | endLine => exact execEnd_ne_fault h r
  | write c => exact execWrite_ne_fault h r c
  | irqRx => exact absurd rfl hr
  | irqUdre => exact absurd rfl hu

/-! ### The handlers and the moves -/

/-- With its request up, the transmit-empty handler finds a byte queued and DR free (R47, R157, R41). -/
theorem BlockInv.udre_completes (hq : irqUdreRequest s = true) : ∃ t, execIrqUdre s = .next t := by
  obtain ⟨hu, hh⟩ : bitOf s.csb s.cfg.pUdrie = true ∧ s.txHold = none := by
    simpa [irqUdreRequest, Option.isNone_iff_eq_none] using hq
  exact ⟨_, txEmptyBody_eq (h.udrieIff.1 hu) h.txIndices.2 hh⟩

theorem moveIrq_ne_fault (idx : Nat) : moveIrq idx s ≠ .fault r := by
  unfold moveIrq
  split
  · rename_i i hi
    unfold invokeHandler
    split
    · rename_i he
      rcases routeVector_some hi with ⟨rfl, -⟩ | ⟨rfl, -⟩
      · obtain ⟨t, ht⟩ := rxBody_completes h.rxIndices.1
        rw [exec, execIrqRx, enterHandler, ht]
        nofun
      · obtain ⟨t, ht⟩ := h.udre_completes (Bool.and_eq_true_iff.1 he).2
        rw [exec, enterHandler, ht]
        nofun
    · nofun
  · split <;> nofun

theorem moveFg_ne_fault : moveFg s ≠ .fault r := by
  unfold moveFg
  split
  · rename_i i hi
    obtain ⟨hr, hu⟩ := command?_not_entry hi
    exact exec_ne_fault h r hr hu
  · nofun

theorem movePresent_ne_fault (w : CommandWord) : movePresent w s ≠ .fault r := by
  unfold movePresent
  split
  · split
    · rename_i i hi
      obtain ⟨hr, hu⟩ := decodeCommand_not_entry hi
      exact exec_ne_fault h r hr hu
    · nofun
  · nofun

theorem runMove_ne_fault (m : Move) : runMove m s ≠ .fault r := by
  cases m with
  | fg => exact moveFg_ne_fault h r
  | irq idx => exact moveIrq_ne_fault h r idx
  | present w => exact movePresent_ne_fault h r w
  | receive b pe => simp only [runMove, unitReceive]; split <;> nofun
  | load => simp only [runMove, unitLoad]; split <;> nofun
  | done => simp only [runMove, unitDone]; split <;> nofun
  | setGie on => simp only [runMove, moveSetGie]; split <;> nofun

end

/-- Settles O50: by the move the step takes; the invariant bounds every index and gives the body its byte. -/
theorem noFaultFromInv : Obligations.NoFaultFromInv := by
  unfold Obligations.NoFaultFromInv
  intro s r h
  unfold step stepOnce
  split
  · split
    · unfold runUnscheduled
      split
      · rename_i i hi
        obtain ⟨hr, hu⟩ := command?_not_entry hi
        exact exec_ne_fault h r hr hu
      · nofun
    · rename_i m rest _
      exact runMove_ne_fault (h.unscheduled rest) r m
  · nofun

end Sys2Proof.Machine
end

section
/-! Which step writes the control state (R25, R26, R117, R169): `written`, the hook reference, the line, the baud and
frame registers and CSB have one writer per step, and each writer touches its own fields only. -/

namespace Sys2Proof.Machine

/-- The control state: the parameters, what the commands configure, and the stored bits of CSA that nothing
changes. -/
structure ControlFields where
  cfg     : Params
  written : Bool
  hook    : Option Handle
  line    : Line
  brh     : Byte
  brl     : Byte
  csb     : Byte
  csc     : Byte
  u2x     : Bool
  mpcm    : Bool

/-- The control fields of a state. -/
def controlFields (s : State) : ControlFields :=
  ⟨s.cfg, s.written, s.hook, s.line, s.brh, s.brl, s.csb, s.csc, s.u2x, s.mpcm⟩

/-- A read of CSA leaves the control state alone (R57). -/
theorem controlFields_readCsa (s : State) : controlFields (readCsa s).2 = controlFields s := by
  simp [controlFields]

/-- The receive body leaves the control state alone (R179). -/
theorem rxBody_controlFields {s t : State} (h : rxBody s = .next t) : controlFields t = controlFields s := by
  rcases rxBody_next h with rfl | ⟨-, -, -, rfl⟩ <;> simp [controlFields]

/-- The rest of the transmit-empty body may clear UDRIE, and leaves the other control fields alone (R155). -/
theorem txBodyEnd_controlFields (s : State) :
    controlFields (txBodyEnd s) = controlFields s ∨
    controlFields (txBodyEnd s) = { controlFields s with csb := s.csb &&& ~~~bitMask s.cfg.pUdrie } := by
  by_cases he : s.txHead = s.txTail
  · exact .inr (by simp [controlFields, he])
  · exact .inl (by simp [controlFields, he])

/-- The agents that may write the control fields, and the fields each may write. -/
inductive ControlWriter (s t : State) : Prop where
  /-- The step writes none of them. -/
  | nobody (ht : controlFields t = controlFields s)
  /-- S1 of BEGIN. -/
  | begins (hr : runsFg s = true) (hf : ∃ baud frame, s.fg = .beginLine baud frame .s1)
      (ht : controlFields t = { controlFields s with
        written := false, line := .active, brh := t.brh, brl := t.brl, csc := t.csc
        csb := (s.csb ||| beginSet s.cfg) &&& ~~~bitMask s.cfg.pUdrie })
  /-- E1 of END. -/
  | ends (hr : runsFg s = true) (hf : s.fg = .endLine .e1)
      (ht : controlFields t = { controlFields s with line := .uninitialized, csb := s.csb &&& ~~~endClear s.cfg })
  /-- S1 of ATTACH. -/
  | attaches (hr : runsFg s = true) (a : Handle) (hf : s.fg = .attach a .s1)
      (ht : controlFields t = { controlFields s with hook := hookOf a })
  /-- W4 of WRITE. -/
  | publishes (hp : (publishes s).isSome = true)
      (ht : controlFields t = { controlFields s with written := true, csb := s.csb ||| bitMask s.cfg.pUdrie })
  /-- The transmit-empty body, where it leaves the ring empty. -/
  | masks (ht : controlFields t = { controlFields s with csb := s.csb &&& ~~~bitMask s.cfg.pUdrie })

/-- What the rest of the transmit-empty body makes of the control state, by its writer. -/
theorem controlWriter_of_txBodyEnd {s t u : State} (hu : controlFields u = controlFields s)
    (ht : controlFields t = controlFields (txBodyEnd u)) : ControlWriter s t := by
  have hcsb : u.csb = s.csb := congrArg ControlFields.csb hu
  have hcfg : u.cfg = s.cfg := congrArg ControlFields.cfg hu
  rcases txBodyEnd_controlFields u with he | he
  · exact .nobody (ht.trans (he.trans hu))
  · exact .masks (by rw [ht, he, hu, hcsb, hcfg])

/-- The writer of a labelled step. -/
theorem LabelStep.controlWriter {s t : State} {rest : List Move} (hr : runsFg s = true)
    (h : LabelStep { s with sched := rest } t) : ControlWriter s t := by
  cases h with
  | plain _ ht | takes _ _ _ ht | stores _ _ _ _ _ ht => exact .nobody (by rw [ht]; rfl)
  | polls _ ht =>
    refine .nobody ?_
    rw [ht]
    exact controlFields_readCsa _
  | pumps _ _ _ _ _ _ _ ht =>
    refine controlWriter_of_txBodyEnd (u := handedOver _ (readCsa { s with sched := rest }).2) ?_ (by rw [ht]; rfl)
    exact controlFields_readCsa _
  | begins baud frame hf ht => exact .begins hr ⟨baud, frame, hf⟩ (by rw [ht]; rfl)
  | ends hf ht => exact .ends hr hf (by rw [ht]; rfl)
  | attaches a hf ht => exact .attaches hr a hf (by rw [ht]; rfl)
  | publishes byte k n hf ht =>
    have hf' : s.fg = _ := hf
    exact .publishes (by simp [Machine.publishes, hr, hf', publishesAt, WritePt.publishes]) (by rw [ht]; rfl)

/-- Every step of the machine has one of these writers. -/
theorem StepBy.controlWriter {s t : State} (h : StepBy s t) : ControlWriter s t := by
  cases h with
  | waits _ _ ht => exact .nobody (by rw [ht])
  | label i rest hr hi hx => exact (exec_labelStep (s := { s with sched := rest }) hi hx).controlWriter hr
  | presented _ _ _ _ _ ht | input _ _ _ _ _ ht => exact .nobody (by rw [ht]; rfl)
  | receives rest _ _ _ _ _ hx => exact .nobody (rxBody_controlFields (s := { s with sched := rest }) hx)
  | transmits rest _ _ _ _ _ hx =>
    obtain ⟨-, -, -, rfl⟩ := txEmptyBody_next (s := { s with sched := rest }) hx
    exact controlWriter_of_txBodyEnd (u := handedOver _ { s with sched := rest }) rfl rfl
  | unitReceives _ _ _ _ _ _ hx =>
    obtain ⟨-, rfl⟩ := unitReceive_next hx
    exact .nobody rfl
  | unitLoads _ _ _ _ hx =>
    obtain ⟨-, rfl⟩ := unitLoad_next hx
    exact .nobody rfl
  | unitDone _ _ _ _ hx =>
    obtain ⟨b, -, rfl⟩ := unitDone_next hx
    exact .nobody rfl

/-- No step changes the parameters (R9). -/
theorem step_cfg {s t : State} (h : step s = .next t) : t.cfg = s.cfg := by
  cases (step_by h).2.controlWriter with
  | nobody ht | begins _ _ ht | ends _ _ ht | attaches _ _ _ ht | publishes _ ht | masks ht =>
    exact congrArg ControlFields.cfg ht

/-- Settles O57: each writer of `ControlWriter` is the one the statement names, with what it makes of the enables. -/
theorem controlStateOwnership : Obligations.ControlStateOwnership := by
  unfold Obligations.ControlStateOwnership
  intro s t hc h
  cases (step_by h).2.controlWriter with
  | nobody ht =>
    simp only [controlFields, ControlFields.mk.injEq] at ht
    simp +contextual [rxcie, udrie, ht]
  | begins hr hf ht =>
    obtain ⟨hrxcie, hudrie, -, -⟩ := enables_begin hc s.csb
    simp only [controlFields, ControlFields.mk.injEq] at ht
    obtain ⟨baud, frame, hf⟩ := hf
    simp [rxcie, udrie, ht, hr, hf, hrxcie, hudrie, discards, discardsAt]
  | ends hr hf ht =>
    obtain ⟨hrxcie, hudrie, -, -⟩ := enables_end hc s.csb
    simp only [controlFields, ControlFields.mk.injEq] at ht
    simp [rxcie, udrie, ht, hr, hf, hrxcie, hudrie, discards, discardsAt]
  | attaches hr a hf ht =>
    simp only [controlFields, ControlFields.mk.injEq] at ht
    simp +contextual [rxcie, udrie, ht, hr, hf]
  | publishes hp ht =>
    obtain ⟨hrxcie, -⟩ := enables_setUdrie hc s.csb
    simp only [controlFields, ControlFields.mk.injEq] at ht
    simp [rxcie, udrie, ht, hp, hrxcie]
  | masks ht =>
    obtain ⟨hrxcie, hudrie, -⟩ := enables_clearUdrie hc s.csb
    simp only [controlFields, ControlFields.mk.injEq] at ht
    simp [rxcie, udrie, ht, hrxcie, hudrie]

end Sys2Proof.Machine
end

section
/-! The way of a byte out and in (R3, R142, R145, R132, R138): what one step can do to the transmit path and to the
receive ring, and what follows for a whole run. -/

namespace Sys2Proof.Machine

/-! ### The transmit path (R142) -/

/-- The bytes past the TX ring, oldest first: sent, in the shifter, held (R142). -/
def onLine (s : State) : List Byte := s.wireOut ++ s.txShift.toList ++ s.txHold.toList

theorem transmitPath_eq (s : State) : transmitPath s = onLine s ++ ringBytes .tx s := rfl

/-- Everything the transmit path depends on. -/
theorem tx_congr {s t : State} (hw : t.wireOut = s.wireOut) (hs : t.txShift = s.txShift) (hh : t.txHold = s.txHold)
    (hr : ringFields t = { ringFields s with rxHead := t.rxHead, rxTail := t.rxTail, rxBuf := t.rxBuf })
    (hc : t.cfg = s.cfg) : onLine t = onLine s ∧ ringBytes .tx t = ringBytes .tx s := by
  simp only [ringFields, RingFields.mk.injEq] at hr
  simp [onLine, ringBytes, count, ringCap, ringHead, ringTail, ringBuf, hw, hs, hh, hc, hr]

/-- What one step can do to the transmit path. -/
inductive TxChange (s t : State) : Prop where
  /-- Nothing moves from the ring to the unit or into the ring. -/
  | keeps (hd : discards s = false) (hp : publishes s = none) (hline : onLine t = onLine s)
      (hring : ringBytes .tx t = ringBytes .tx s)
  /-- The transmit-empty body hands the oldest byte to the unit. -/
  | sends (hd : discards s = false) (hp : publishes s = none) (c : Byte) (hline : onLine t = onLine s ++ [c])
      (hring : ringBytes .tx s = c :: ringBytes .tx t)
  /-- W4 of WRITE publishes its byte. -/
  | queues (hd : discards s = false) (b : Byte) (hp : publishes s = some b) (hline : onLine t = onLine s)
      (hring : ringBytes .tx t = ringBytes .tx s ++ [b])
  /-- BEGIN or END empties the ring. -/
  | drops (hd : discards s = true) (hp : publishes s = none) (hline : onLine t = onLine s)
      (hring : ringBytes .tx t = [])

theorem BlockInv.ringInRange {s : State} (h : BlockInv s) (q : Ring) : RingInRange q s := by
  cases q
  · exact ⟨h.rxIndices.1, h.rxIndices.2⟩
  · exact ⟨h.txIndices.1, h.txIndices.2⟩

/-- A ring whose indices are both 0 holds no byte. -/
theorem ringBytes_of_indices_zero {q : Ring} {s : State} (hh : ringHead q s = 0) (ht : ringTail q s = 0) :
    ringBytes q s = [] := by
  rw [← List.length_eq_zero_iff, ringBytes_length, count_of_indices_zero hh ht]

/-- The transmit-empty body moves the oldest byte from the ring to the unit (R155). -/
theorem transmitted_path {s : State} (hr : RingInRange .tx s) (hne : s.txHead ≠ s.txTail) (hh : s.txHold = none)
    (hc : s.cfg.ok = true) :
    onLine (txBodyEnd (handedOver (cellValue .txb s.txBuf s.txTail) s)) =
      onLine s ++ [cellValue .txb s.txBuf s.txTail] ∧
    ringBytes .tx s = cellValue .txb s.txBuf s.txTail ::
      ringBytes .tx (txBodyEnd (handedOver (cellValue .txb s.txBuf s.txTail) s)) := by
  refine ⟨by simp [onLine, hh], ?_⟩
  rw [txBodyEnd_state (s := handedOver (cellValue .txb s.txBuf s.txTail) s) hc]
  exact ringBytes_eq_cons hr hne

/-- W4 of WRITE appends the byte stored at the head (R140). -/
theorem ringBytes_published {s : State} {b : Byte} (hr : RingInRange .tx s)
    (hroom : nextIndex s.cfg.cTx s.txHead ≠ s.txTail) (hb : s.txBuf.read s.txHead = some b) :
    ringBytes .tx (published (nextIndex s.cfg.cTx s.txHead) s) = ringBytes .tx s ++ [b] := by
  obtain ⟨hh, ht⟩ := hr
  have hcount : count .tx (published (nextIndex s.cfg.cTx s.txHead) s) = count .tx s + 1 :=
    ringCount_push hh ht hroom
  rw [ringBytes, hcount, ← cellValue_of_read (sp := .txb) hb]
  exact bytesFrom_snoc hh ht rfl

/-- A read of CSA leaves the transmit path alone (R57). -/
theorem readCsa_path (s : State) :
    onLine (readCsa s).2 = onLine s ∧ ringBytes .tx (readCsa s).2 = ringBytes .tx s :=
  tx_congr (by simp) (by simp) (by simp) (by simp [ringFields]) (by simp)

/-- So does the masked fallback that found DR free (R140 step W2, R144 step F4). -/
theorem pumped_path {s : State} (hr : RingInRange .tx s) (hne : s.txHead ≠ s.txTail) (hh : s.txHold = none)
    (hc : s.cfg.ok = true) :
    onLine (pumped s) = onLine s ++ [cellValue .txb s.txBuf s.txTail] ∧
    ringBytes .tx s = cellValue .txb s.txBuf s.txTail :: ringBytes .tx (pumped s) := by
  obtain ⟨hline, hring⟩ := readCsa_path s
  have hr' : RingInRange .tx (readCsa s).2 :=
    ⟨by simpa [ringHead, ringCap] using hr.head_lt, by simpa [ringTail, ringCap] using hr.tail_lt⟩
  have hpath := transmitted_path hr' (by simpa using hne) (by simpa using hh) (by simpa using hc)
  rw [hline, hring, readCsa_txBuf, readCsa_txTail] at hpath
  exact hpath

/-- What a labelled step does to the transmit path. -/
theorem LabelStep.txChange {s t : State} {rest : List Move} (h : BlockInv s) (hr : runsFg s = true)
    (hx : LabelStep { s with sched := rest } t) : TxChange s t := by
  cases hx with
  | plain hp ht =>
    obtain ⟨hd, hpub, -⟩ := nothing_of_plainAt (s := s) hp
    exact .keeps hd hpub (by rw [ht]; rfl) (by rw [ht]; rfl)
  | polls hp ht =>
    obtain ⟨hd, hpub, -⟩ := nothing_of_plainAt (s := s) hp
    obtain ⟨hline, hring⟩ := tx_congr (s := s) (t := t) (by rw [ht]; simp) (by rw [ht]; simp) (by rw [ht]; simp)
      (by rw [ht]; simp [ringFields]) (by rw [ht]; simp)
    exact .keeps hd hpub hline hring
  | pumps _ hp _ _ hh hne _ ht =>
    obtain ⟨hd, hpub, -⟩ := nothing_of_plainAt (s := s) hp
    obtain ⟨hline, hring⟩ := pumped_path (s := { s with sched := rest })
        ((h.unscheduled rest).ringInRange .tx) hne hh h.config
    exact .sends hd hpub _ (by rw [ht]; exact hline) (by rw [ht]; exact hring)
  | begins baud frame hf ht =>
    have hf' : s.fg = _ := hf
    exact .drops (by simp [discards, hr, hf', discardsAt]) (by simp [Machine.publishes, hf', publishesAt])
      (by rw [ht]; rfl) (by rw [ht]; exact ringBytes_of_indices_zero rfl rfl)
  | ends hf ht =>
    have hf' : s.fg = _ := hf
    exact .drops (by simp [discards, hr, hf', discardsAt]) (by simp [Machine.publishes, hf', publishesAt])
      (by rw [ht]; rfl) (by rw [ht]; exact ringBytes_of_indices_zero rfl rfl)
  | attaches a hf ht =>
    have hf' : s.fg = _ := hf
    exact .keeps (by simp [discards, hf', discardsAt]) (by simp [Machine.publishes, hf', publishesAt])
      (by rw [ht]; rfl) (by rw [ht]; rfl)
  | takes k b hf ht =>
    have hf' : s.fg = _ := hf
    exact .keeps (by simp [discards, hf', discardsAt]) (by simp [Machine.publishes, hf', publishesAt])
      (by rw [ht]; rfl) (by rw [ht]; rfl)
  | stores byte a n hf ha ht =>
    have hf' : s.fg = _ := hf
    obtain ⟨rfl, -⟩ := h.at_w3 hf'
    refine .keeps (by simp [discards, hf', discardsAt])
      (by simp [Machine.publishes, hf', publishesAt, WritePt.publishes]) (by rw [ht]; rfl) ?_
    rw [ht]
    exact bytesFrom_write byte h.txIndices.1 h.txIndices.2 le_rfl
  | publishes byte a n hf ht =>
    have hf' : s.fg = _ := hf
    obtain ⟨rfl, rfl, hroom, hb⟩ := h.at_w4 hf'
    refine .queues (by simp [discards, hf', discardsAt]) byte
      (by simp [Machine.publishes, hr, hf', publishesAt, WritePt.publishes]) (by rw [ht]; rfl) ?_
    rw [ht]
    exact ringBytes_published (h.ringInRange .tx) hroom hb

/-- A handler leaves the transmit path alone, or hands the oldest byte to the unit. -/
theorem rxBody_path {s t : State} (h : rxBody s = .next t) :
    onLine t = onLine s ∧ ringBytes .tx t = ringBytes .tx s := by
  rcases rxBody_next h with rfl | ⟨-, -, -, rfl⟩ <;>
    exact tx_congr (by simp) (by simp) (by simp) (by simp [ringFields]) (by simp)

/-- LOAD and DONE move a byte along the unit (R42, R43). -/
theorem unit_path {s t : State} (h : unitLoad s = .next t ∨ unitDone s = .next t) :
    onLine t = onLine s ∧ ringBytes .tx t = ringBytes .tx s := by
  rcases h with h | h
  · obtain ⟨he, rfl⟩ := unitLoad_next h
    have hshift : s.txShift = none := by
      simp only [loadEnabled, Bool.and_eq_true, Option.isNone_iff_eq_none] at he
      exact he.2
    exact ⟨by simp [onLine, hshift], rfl⟩
  · obtain ⟨b, hb, rfl⟩ := unitDone_next h
    exact ⟨by simp [onLine, hb], rfl⟩

/-- What a step of the machine does to the transmit path. -/
theorem StepBy.txChange {s t : State} (h : BlockInv s) (hx : StepBy s t) : TxChange s t := by
  cases hx with
  | waits hf _ ht =>
    exact .keeps (by simp [discards, hf, discardsAt]) (by simp [publishes, hf, publishesAt]) (by rw [ht])
        (by rw [ht])
  | label i rest hr hi hx => exact (exec_labelStep (s := { s with sched := rest }) hi hx).txChange h hr
  | presented rest hr _ _ _ ht | input _ rest hr _ _ ht =>
    obtain ⟨hd, hpub, -⟩ := nothing_of_runsFg hr
    exact .keeps hd hpub (by rw [ht]; rfl) (by rw [ht]; rfl)
  | receives rest hr _ _ _ _ hx =>
    obtain ⟨hd, hpub, -⟩ := nothing_of_runsFg hr
    obtain ⟨hline, hring⟩ := rxBody_path (s := { s with sched := rest }) hx
    exact .keeps hd hpub hline hring
  | transmits rest hr _ _ _ _ hx =>
    obtain ⟨hd, hpub, -⟩ := nothing_of_runsFg hr
    obtain ⟨hne, -, hh, rfl⟩ := txEmptyBody_next (s := { s with sched := rest }) hx
    obtain ⟨hline, hring⟩ := transmitted_path (s := { s with sched := rest })
      ((h.unscheduled rest).ringInRange .tx) hne hh h.config
    exact .sends hd hpub _ hline hring
  | unitReceives _ _ _ hr _ _ hx =>
    obtain ⟨hd, hpub, -⟩ := nothing_of_runsFg hr
    obtain ⟨-, rfl⟩ := unitReceive_next hx
    exact .keeps hd hpub rfl rfl
  | unitLoads rest hr _ _ hx =>
    obtain ⟨hd, hpub, -⟩ := nothing_of_runsFg hr
    obtain ⟨hline, hring⟩ := unit_path (.inl hx)
    exact .keeps hd hpub hline hring
  | unitDone rest hr _ _ hx =>
    obtain ⟨hd, hpub, -⟩ := nothing_of_runsFg hr
    obtain ⟨hline, hring⟩ := unit_path (.inr hx)
    exact .keeps hd hpub hline hring

/-- One step on the transmit path: what `TxChange` adds up to. -/
theorem transmitPath_step {s t : State} (h : BlockInv s) (hx : step s = .next t) : transmitPath t =
    if discards s then onLine s else transmitPath s ++ (publishes s).toList := by
  rw [transmitPath_eq, transmitPath_eq]
  cases (step_by hx).2.txChange h with
  | keeps hd hp hline hring => simp [hd, hp, hline, hring]
  | sends hd hp c hline hring => simp [hd, hp, hline, hring]
  | queues hd b hp hline hring => simp [hd, hp, hline, hring]
  | drops hd hp hline hring => simp [hd, hline, hring]

/-- Settles O52: `transmitPath_step`. -/
theorem transmitOrder : Obligations.TransmitOrder := by
  unfold Obligations.TransmitOrder
  exact fun _ _ h hx => transmitPath_step h hx

/-! ### A run up to FLUSH's response (R145) -/

/-- The first step of a run, discarding or not. -/
theorem discardsWithin_succ_of_next {n : Nat} {s t : State} (h : step s = .next t) :
    discardsWithin (n + 1) s = (discards s || discardsWithin n t) := by
  change (discards s || (match step s with | .next t => discardsWithin n t | _ => false)) = _
  rw [h]

/-- What the first step of a run publishes comes first. -/
theorem publishedWithin_succ_of_next {n : Nat} {s t : State} (h : step s = .next t) :
    publishedWithin (n + 1) s = (publishes s).toList ++ publishedWithin n t := by
  change (publishes s).toList ++ (match step s with | .next t => publishedWithin n t | _ => []) = _
  rw [h]

/-- Over a run without a discard the transmit path grows by exactly what is published. -/
theorem transmitPath_run {n : Nat} {s t : State} (h : BlockInv s) (hd : discardsWithin n s = false)
    (hx : stepN n s = .next t) : BlockInv t ∧ transmitPath t = transmitPath s ++ publishedWithin n s := by
  induction n generalizing s with
  | zero =>
    obtain rfl := Host.Outcome.next.inj hx
    exact ⟨h, (List.append_nil _).symm⟩
  | succ n ih =>
    obtain ⟨u, hu, hx⟩ := andThen_eq_next.1 hx
    rw [discardsWithin_succ_of_next hu, Bool.or_eq_false_iff] at hd
    obtain ⟨ht, hpath⟩ := ih (h.step hu) hd.2 hx
    refine ⟨ht, ?_⟩
    rw [hpath, transmitPath_step h hu, hd.1, if_neg Bool.false_ne_true, publishedWithin_succ_of_next hu,
      List.append_assoc]

/-- Where FLUSH answers after a write, it has read TXC as 1 at F3, on an empty ring (R144). -/
theorem flush_answers {s t : State} {pt : FlushPt} (h : BlockInv s) (hf : s.fg = .flush pt) (hw : s.written = true)
    (hx : exec .flush s = .next t) (hi : t.fg = .idle) :
    s.txc = true ∧ s.txHead = s.txTail ∧ t = respond .done (readCsa s).2 := by
  obtain ⟨hidle, -⟩ | ⟨q, hq, hx⟩ := execFlush_next hx
  · exact nomatch hf.symm.trans hidle
  · obtain ⟨-, -, hempty, -⟩ := h.at_flush hq
    cases flushStep_next hx with
    | nothingWritten hn _ => exact nomatch hw.symm.trans hn
    | complete hc ht => exact ⟨hc, hempty rfl, ht⟩
    | written _ ht | ringEmpty _ ht | stillQueued _ ht | notComplete _ ht | reChecks _ ht | pumps _ _ _ _ ht =>
      simp [ht] at hi

/-- Settles O53: where FLUSH answers the ring is empty and TXC is 1, so the whole path is on the wire. -/
theorem flushMeansEverythingSent : Obligations.FlushMeansEverythingSent := by
  unfold Obligations.FlushMeansEverythingSent
  intro s t u n pt h hd hx hf hw hflush hi
  obtain ⟨ht, hpath⟩ := transmitPath_run h hd hx
  obtain ⟨hc, hempty, rfl⟩ := flush_answers ht hf hw hflush hi
  obtain ⟨hhold, hshift⟩ := ht.txcIdle hc
  have hring : ringBytes .tx t = [] := (ringBytes_eq_nil_iff (ht.ringInRange .tx)).2 hempty
  rw [transmitPath_eq, hring, onLine, hhold, hshift] at hpath
  simpa [hempty, hhold, hshift] using hpath

end Sys2Proof.Machine
end

section
/-! The way of a byte in (R3, R134): what one step can do to the receive ring; and the counts as lower bounds (R132,
R138). -/

namespace Sys2Proof.Machine

/-- Everything the list of received bytes depends on. -/
theorem rx_congr {s t : State}
    (hr : ringFields t = { ringFields s with txHead := t.txHead, txTail := t.txTail, txBuf := t.txBuf })
    (hc : t.cfg = s.cfg) : ringBytes .rx t = ringBytes .rx s := by
  simp only [ringFields, RingFields.mk.injEq] at hr
  simp [ringBytes, count, ringCap, ringHead, ringTail, ringBuf, hc, hr]

/-- What one step can do to the list of received bytes. -/
inductive RxChange (s t : State) : Prop where
  /-- Nothing goes in or out. -/
  | keeps (hd : discards s = false) (hp : takesOne s = false) (hring : ringBytes .rx t = ringBytes .rx s)
  /-- IRQ_RX stores the waiting byte. -/
  | stores (hd : discards s = false) (hp : takesOne s = false) (hx : entersRx s = true) (hg : s.gie = true)
      (w : RxByte) (hw : s.rxWait = some w) (hring : ringBytes .rx t = ringBytes .rx s ++ [w.byte])
  /-- S3 of READ takes the first byte. -/
  | takes (hd : discards s = false) (hp : takesOne s = true) (hring : ringBytes .rx t = (ringBytes .rx s).tail)
  /-- BEGIN or END empties the ring. -/
  | drops (hd : discards s = true) (hring : ringBytes .rx t = [])

/-- S3 of READ takes the byte at the tail (R135). -/
theorem ringBytes_taken {s : State} (hr : RingInRange .rx s) (hne : s.rxHead ≠ s.rxTail) :
    ringBytes .rx { s with rxTail := nextIndex s.cfg.cRx s.rxTail } = (ringBytes .rx s).tail := by
  rw [ringBytes_eq_cons hr hne]
  rfl

/-- The byte the receive body reads is the waiting one (R151, R40). -/
theorem rxData_of_some {s : State} {w : RxByte} (hw : s.rxWait = some w) : rxData s = w.byte := by
  rw [rxData, readDr_of_some (s := (readCsa s).2) (w := w) (by simpa using hw)]

/-- A kept byte is appended, or dropped on a full ring (R151, R153). -/
theorem storeReceived_ringBytes {d : Byte} {s t : State} (hr : RingInRange .rx s)
    (h : storeReceived d s = .next t) :
    ringBytes .rx t = ringBytes .rx s ∨ ringBytes .rx t = ringBytes .rx s ++ [d] := by
  rcases storeReceived_next h with ⟨-, rfl⟩ | ⟨hroom, -, rfl⟩
  · exact .inl rfl
  · exact .inr (ringBytes_ringPushed d hr hroom)

/-- The receive body appends the byte it read, or none (R151). -/
theorem rxBody_ringBytes {s t : State} (hr : RingInRange .rx s) (h : rxBody s = .next t) :
    ringBytes .rx t = ringBytes .rx s ∨ ringBytes .rx t = ringBytes .rx s ++ [rxData s] := by
  have hdecided : ringBytes .rx (rxDecided s) = ringBytes .rx s := rx_congr (by simp [ringFields]) (by simp)
  have hr' : RingInRange .rx (rxDecided s) :=
    ⟨by simpa [ringHead, ringCap] using hr.head_lt, by simpa [ringTail, ringCap] using hr.tail_lt⟩
  rw [rxBody_eq] at h
  split at h
  · rw [← hdecided]
    exact storeReceived_ringBytes hr' h
  · obtain rfl := Host.Outcome.next.inj h
    exact .inl hdecided

/-- What a labelled step does to the list of received bytes. -/
theorem LabelStep.rxChange {s t : State} {rest : List Move} (h : BlockInv s) (hr : runsFg s = true)
    (hx : LabelStep { s with sched := rest } t) : RxChange s t := by
  cases hx with
  | plain hp ht =>
    obtain ⟨hd, -, htake⟩ := nothing_of_plainAt (s := s) hp
    exact .keeps hd htake (by rw [ht]; rfl)
  | polls hp ht =>
    obtain ⟨hd, -, htake⟩ := nothing_of_plainAt (s := s) hp
    exact .keeps hd htake (rx_congr (by rw [ht]; simp [ringFields]) (by rw [ht]; simp))
  | pumps _ hp _ _ _ _ _ ht =>
    obtain ⟨hd, -, htake⟩ := nothing_of_plainAt (s := s) hp
    exact .keeps hd htake (rx_congr (by rw [ht]; simp [ringFields, pumped]) (by rw [ht]; simp [pumped]))
  | begins baud frame hf ht =>
    have hf' : s.fg = _ := hf
    exact .drops (by simp [discards, hr, hf', discardsAt]) (by rw [ht]; exact ringBytes_of_indices_zero rfl rfl)
  | ends hf ht =>
    have hf' : s.fg = _ := hf
    exact .drops (by simp [discards, hr, hf', discardsAt]) (by rw [ht]; exact ringBytes_of_indices_zero rfl rfl)
  | attaches _ hf ht | stores _ _ _ hf _ ht | publishes _ _ _ hf ht =>
    have hf' : s.fg = _ := hf
    exact .keeps (by simp [discards, hf', discardsAt]) (by simp [takesOne, hf', takesOneAt]) (by rw [ht]; rfl)
  | takes k b hf ht =>
    have hf' : s.fg = _ := hf
    obtain ⟨rfl, hne, -⟩ := h.at_read_s3 hf'
    refine .takes (by simp [discards, hf', discardsAt]) (by simp [takesOne, hr, hf', takesOneAt, ReadPt.takes]) ?_
    rw [ht]
    exact ringBytes_taken (h.ringInRange .rx) hne

/-- What a step of the machine does to the list of received bytes. -/
theorem StepBy.rxChange {s t : State} (h : BlockInv s) (hx : StepBy s t) : RxChange s t := by
  cases hx with
  | waits hf _ ht =>
    exact .keeps (by simp [discards, hf, discardsAt]) (by simp [takesOne, hf, takesOneAt]) (by rw [ht])
  | label i rest hr hi hx => exact (exec_labelStep (s := { s with sched := rest }) hi hx).rxChange h hr
  | presented rest hr _ _ _ ht | input _ rest hr _ _ ht =>
    obtain ⟨hd, -, htake⟩ := nothing_of_runsFg hr
    exact .keeps hd htake (by rw [ht]; rfl)
  | receives rest hr henters _ hg hq hx =>
    obtain ⟨hd, -, htake⟩ := nothing_of_runsFg hr
    obtain ⟨w, hw⟩ : ∃ w, s.rxWait = some w :=
      Option.isSome_iff_exists.1 (Bool.and_eq_true_iff.1 hq).2
    rcases rxBody_ringBytes ((h.unscheduled rest).ringInRange .rx) hx with hring | hring
    · exact .keeps hd htake hring
    · rw [rxData_of_some (s := { s with sched := rest }) hw] at hring
      exact .stores hd htake henters hg w hw hring
  | transmits rest hr _ _ _ _ hx =>
    obtain ⟨hd, -, htake⟩ := nothing_of_runsFg hr
    obtain ⟨-, -, -, rfl⟩ := txEmptyBody_next (s := { s with sched := rest }) hx
    exact .keeps hd htake (rx_congr (by simp [ringFields]) (by simp))
  | unitReceives _ _ _ hr _ _ hx =>
    obtain ⟨hd, -, htake⟩ := nothing_of_runsFg hr
    obtain ⟨-, rfl⟩ := unitReceive_next hx
    exact .keeps hd htake rfl
  | unitLoads rest hr _ _ hx =>
    obtain ⟨hd, -, htake⟩ := nothing_of_runsFg hr
    obtain ⟨-, rfl⟩ := unitLoad_next hx
    exact .keeps hd htake rfl
  | unitDone rest hr _ _ hx =>
    obtain ⟨hd, -, htake⟩ := nothing_of_runsFg hr
    obtain ⟨b, -, rfl⟩ := unitDone_next hx
    exact .keeps hd htake rfl

/-- The byte read from the tail is the first of the list. -/
theorem ringBytes_head {s : State} {b : Byte} (h : BlockInv s) (hne : s.rxHead ≠ s.rxTail)
    (hb : s.rxBuf.read s.rxTail = some b) : (ringBytes .rx s).head? = some b := by
  rw [ringBytes_eq_cons (h.ringInRange .rx) hne]
  exact congrArg some (cellValue_of_read hb)

/-- Settles O54: the cases of `RxChange`, and what PEEK and READ have read is the byte at the tail. -/
theorem receiveOrder : Obligations.ReceiveOrder := by
  unfold Obligations.ReceiveOrder
  refine ⟨fun s t h hx => ?_, fun s k b h => ⟨fun hf => ?_, fun hf => ?_⟩⟩
  · cases (step_by hx).2.rxChange h with
    | keeps hd hp hring => exact ⟨[], by simp [hd, hp, hring], .inl rfl⟩
    | stores hd hp hen hg w hw hring =>
      exact ⟨[w.byte], by simp [hd, hp, hring], .inr ⟨hen, hg, w, hw, rfl⟩⟩
    | takes hd hp hring => exact ⟨[], by simp [hd, hp, hring], .inl rfl⟩
    | drops hd hring => exact ⟨[], by simp [hd, hring], .inl rfl⟩
  · obtain ⟨hne, hb⟩ := h.at_peek_s3 hf
    exact ringBytes_head h hne hb
  · obtain ⟨rfl, hne, hb⟩ := h.at_read_s3 hf
    exact ringBytes_head h hne hb

/-! ### The counts (R132, R138) -/

/-- A step that takes nothing out of the RX ring does not lower its count. -/
theorem count_rx_le {s t : State} (h : BlockInv s) (hx : step s = .next t) (ht : takesOne s = false)
    (hd : discards s = false) : count .rx s ≤ count .rx t := by
  rw [← ringBytes_length, ← ringBytes_length]
  cases (step_by hx).2.rxChange h with
  | keeps _ _ hring => rw [hring]
  | stores _ _ _ _ w _ hring => simp [hring]
  | takes _ hp _ => exact nomatch ht.symm.trans hp
  | drops hd' _ => exact nomatch hd.symm.trans hd'

/-- A step that publishes nothing does not raise the count of the TX ring. -/
theorem count_tx_le {s t : State} (h : BlockInv s) (hx : step s = .next t) (hp : publishes s = none) :
    count .tx t ≤ count .tx s := by
  rw [← ringBytes_length, ← ringBytes_length]
  cases (step_by hx).2.txChange h with
  | keeps _ _ _ hring => rw [hring]
  | sends _ _ c _ hring => simp [hring]
  | queues _ b hp' _ _ => exact nomatch hp.symm.trans hp'
  | drops _ _ _ hring => simp [hring]

/-- Settles O55: the two monotonicities, and what the snapshots of AVAIL and AVAILW promise at S2. -/
theorem countsAreLowerBounds : Obligations.CountsAreLowerBounds := by
  unfold Obligations.CountsAreLowerBounds
  intro s t h
  refine ⟨fun hx ht hd => count_rx_le h hx ht hd, fun hx hp => ?_, fun a b hf hx => ?_, fun a b hf hx => ?_⟩
  · have hcap : ringCap .tx t = ringCap .tx s := congrArg Params.cTx (step_cfg hx)
    rw [freeSlots, freeSlots, hcap]
    exact Nat.sub_le_sub_left (count_tx_le h hx hp) _
  · rw [exec_avail_s2 hf] at hx
    obtain rfl := Host.Outcome.next.inj hx
    exact ⟨_, rfl, h.at_avail_s2 hf⟩
  · rw [exec_availw_s2 hf] at hx
    obtain rfl := Host.Outcome.next.inj hx
    exact ⟨_, rfl, Nat.sub_le_sub_left (h.at_availw_s2 hf) _⟩

end Sys2Proof.Machine
end

section
/-! The register set (R32, R33, R40, R41, R57, R62) and the unit behind it (R38 to R45): what each register read and
write does, when each unit step is enabled, and the two interrupt requests. -/

namespace Sys2Proof.Machine

/-! ### CSA (R32, R38) -/

/-- A bit of CSA that R32 does not name is the drawn byte's (U9). -/
theorem bitOf_readCsa_other (s : State) {i : Nat} (hi : i < 8) (hn : bitOf (csaNamed s.cfg) i = false) :
    bitOf ((readCsa s).1.image s.cfg) i = bitOf (drawByte s).1 i := by
  rw [bitOf_image _ _ hi, hn]
  simp only [bitOf_csaNamed _ hi, Bool.or_eq_false_iff] at hn
  obtain ⟨⟨⟨⟨⟨h1, h2⟩, h3⟩, h4⟩, h5⟩, h6⟩ := hn
  have hm : (s.cfg.hasMpcm && (readCsa s).1.mpcm && decide (s.cfg.pMpcm = i)) = false := by
    rw [Bool.and_right_comm, h6, Bool.false_and]
  rw [h1, h2, h3, h4, h5, hm]
  simp [readCsa, csaView]

/-- Settles O14: the image of a CSA read, by its named and its other bits, and what the read changes. -/
theorem statusImage : Obligations.StatusImage := by
  unfold Obligations.StatusImage
  exact fun s hc => ⟨_, _, rfl, statusShows_readCsa hc, fun i hi hn => bitOf_readCsa_other s hi hn, readCsa_state s⟩

/-- Settles O18: the flags of both requests as the image of a CSA read shows them. -/
theorem interruptRequests : Obligations.InterruptRequests := by
  unfold Obligations.InterruptRequests
  intro s hc
  obtain ⟨hrxc, -, hudre, -⟩ := statusShows_readCsa hc
  exact ⟨congrArg (bitOf s.csb s.cfg.pRxcie && ·) hrxc.symm, congrArg (bitOf s.csb s.cfg.pUdrie && ·) hudre.symm⟩

/-! ### DR and the plain registers -/

/-- A read of DR with no byte waiting (R40, U7). -/
theorem readDr_of_none {s : State} (h : s.rxWait = none) : (readDr s).2 = { s with
    bus := s.bus ++ [.rd .dr (readDr s).1], drawIn := (readDr s).2.drawIn,
    drawCount := (readDr s).2.drawCount } := by
  have hstate := readDr_state s
  rw [← h] at hstate
  exact hstate

/-- Settles O15: the cases of a read and of a write of DR. -/
theorem dataRegister : Obligations.DataRegister := by
  unfold Obligations.DataRegister
  intro s v
  refine ⟨fun w hw => readDr_of_some hw, fun hw => ⟨_, _, rfl, readDr_of_none hw⟩, writeDr_of_none v, fun hh => ?_⟩
  obtain ⟨c, hc⟩ := Option.ne_none_iff_exists'.1 hh
  exact writeDr_of_some v hc

/-- A plain register reads back what was written to it (R31, R34, R57). -/
theorem regRead_regWrite_plain {r : Reg} (v : Byte) (s : State) (hcsa : r ≠ .csa) (hdr : r ≠ .dr) :
    ∃ t, regWrite r v s = .next t ∧ t.bus = s.bus ++ [.wr r v] ∧
      regRead r t = (v, { t with bus := t.bus ++ [.rd r v] }) := by
  cases r with
  | brh | brl | csb | csc => exact ⟨_, rfl, rfl, rfl⟩
  | csa => exact absurd rfl hcsa
  | dr => exact absurd rfl hdr

/-- Settles O16: the write of CSA by its fields, the plain registers, and the two updates of CSB. -/
theorem registerWritesAndBitUpdates : Obligations.RegisterWritesAndBitUpdates := by
  unfold Obligations.RegisterWritesAndBitUpdates
  exact ⟨fun _ _ => rfl, fun _ v s => regRead_regWrite_plain v s,
      fun m s => ⟨regSetBits_csb m s, regClearBits_csb m s⟩⟩

/-! ### The unit's steps (R39, R42, R43) -/

theorem receiveEnabled_iff (s : State) :
    receiveEnabled s = true ↔ bitOf s.csb s.cfg.pRxen = true ∧ s.rxWait = none := by
  simp [receiveEnabled]

theorem loadEnabled_iff (s : State) :
    loadEnabled s = true ↔ bitOf s.csb s.cfg.pTxen = true ∧ s.txHold ≠ none ∧ s.txShift = none := by
  simp [loadEnabled, Option.isSome_iff_ne_none, and_assoc]

theorem unitDone_of_none {s : State} (h : s.txShift = none) : unitDone s = .refused .moveNotEnabled := by
  simp [unitDone, h]

theorem unitDone_of_some {s : State} {b : Byte} (h : s.txShift = some b) : unitDone s = .next { s with
    wireOut := s.wireOut ++ [b], txShift := none, txc := s.txc || s.txHold.isNone } := by
  cases hh : s.txHold <;> simp [unitDone, h, hh]

/-- Settles O17: each unit step by its enabling condition. -/
theorem unitSteps : Obligations.UnitSteps := by
  unfold Obligations.UnitSteps
  intro s b pe
  refine ⟨?_, ?_, unitDone_of_none, unitDone_of_some⟩
  · simp only [runMove, unitReceive, receiveEnabled_iff]
  · simp only [runMove, unitLoad, loadEnabled_iff]

end Sys2Proof.Machine
end

section
/-! The buffered bytes as a list after one push or pop (R37), and READ as one pop (R136). -/

namespace Sys2Proof.Machine

/-- Settles O12: the answers of a push and of a pop that succeed, by what they do to the list. -/
theorem ringContentsAfterPushAndPop : Obligations.RingContentsAfterPushAndPop := by
  unfold Obligations.RingContentsAfterPushAndPop
  intro q s hh ht
  refine ⟨ringBytes_length q s, fun b t hx => ?_, fun b t hx => ?_⟩
  · rcases tryPush_next hx with ⟨-, he⟩ | ⟨hroom, -, he⟩
    · cases he
    · obtain ⟨-, rfl⟩ := Prod.mk.inj he
      exact ringBytes_ringPushed b ⟨hh, ht⟩ hroom
  · rw [tryPop_eq ht] at hx
    split at hx
    · cases hx
    · rename_i hne
      obtain ⟨he, rfl⟩ := Prod.mk.inj (Host.Outcome.next.inj hx)
      rw [← Option.some.inj he]
      exact ringBytes_eq_cons ⟨hh, ht⟩ hne

/-- Settles O29: at S3 the invariant has the byte at the tail, which is what a pop gives. -/
theorem readIsTryPop : Obligations.ReadIsTryPop := by
  unfold Obligations.ReadIsTryPop
  intro s k b h
  refine ⟨fun hf => ?_, fun hf hpop => ?_⟩
  · obtain ⟨rfl, hne, hb⟩ := h.at_read_s3 hf
    refine ⟨ringPopped .rx s, ?_, exec_read_s3 hf⟩
    rw [tryPop_some (q := .rx) h.rxIndices.2 hne]
    exact congrArg (fun c => Host.Outcome.next (some c, _)) (cellValue_of_read hb)
  · refine exec_read_s1_empty hf (by_contra fun hne => ?_)
    rw [tryPop_some (q := .rx) h.rxIndices.2 hne] at hpop
    cases hpop

end Sys2Proof.Machine
end

section
/-! END (R118), FLUSH (R144) and WRITE (R140): what each answers at its labels, run to the end, and where it waits
(R139, R146). -/

namespace Sys2Proof.Machine

/-- Going to the label where the foreground stands changes nothing. -/
theorem goTo_self {s : State} {f : Fg} (hf : s.fg = f) : goTo f s = s := by
  rw [← hf]
  rfl

/-! ### The flush loop (R144) -/

/-- Each case of `FlushStep` is the answer of the flush loop. -/
theorem flushStep_of {loc : FlushPt → Fg} {finish : State → State} {pt : FlushPt} {s t : State}
    (h : FlushStep loc finish s t pt) : flushStep loc finish pt s = .next t := by
  cases h with
  | written hw ht => simp [flushStep, hw, ht]
  | nothingWritten hw ht => simp [flushStep, hw, ht]
  | ringEmpty he ht => simp [flushStep, he, ht]
  | stillQueued he ht => simp [flushStep, he, ht]
  | complete hc ht => simp [flushStep, hc, ht]
  | notComplete hc ht => simp [flushStep, hc, ht]
  | reChecks hg ht => rcases hg with hg | hg <;> simp [flushStep, hg, ht]
  | pumps u hg hm hu ht => simp [flushStep, hg, hm, hu, ht]

section
variable {s t : State} {pt : FlushPt}

theorem exec_flush_of (hf : s.fg = .flush pt) (h : FlushStep .flush (respond .done) s t pt) :
    exec .flush s = .next t := by
  simpa [exec, execFlush, hf] using flushStep_of h

theorem exec_endLine_drain (hf : s.fg = .endLine (.drain pt))
    (h : FlushStep (fun p => .endLine (.drain p)) (goTo (.endLine .e1)) s t pt) : exec .endLine s = .next t := by
  simpa [exec, execEnd, hf] using flushStep_of h

end

/-- A step of END's drain from a step of FLUSH at the same label: at the label FLUSH goes on to, or at E1 where
FLUSH answers (R118). -/
theorem drain_of_flush {s t : State} {pt : FlushPt}
    (h : FlushStep .flush (respond .done) (goTo (.flush pt) s) t pt) :
    (∃ q, t.fg = .flush q ∧ FlushStep (fun p => .endLine (.drain p)) (goTo (.endLine .e1))
      (goTo (.endLine (.drain pt)) s) (goTo (.endLine (.drain q)) t) pt) ∨
    (t.fg = .idle ∧ FlushStep (fun p => .endLine (.drain p)) (goTo (.endLine .e1))
      (goTo (.endLine (.drain pt)) s) { t with fg := .endLine .e1, responses := s.responses } pt) := by
  cases h with
  | written hw ht => exact .inl ⟨.f2, ht ▸ rfl, .written hw (ht ▸ rfl)⟩
  | nothingWritten hw ht => exact .inr ⟨ht ▸ rfl, .nothingWritten hw (ht ▸ rfl)⟩
  | ringEmpty he ht => exact .inl ⟨.f3, ht ▸ rfl, .ringEmpty he (ht ▸ rfl)⟩
  | stillQueued he ht => exact .inl ⟨.f4, ht ▸ rfl, .stillQueued he (ht ▸ rfl)⟩
  | complete hc ht =>
    refine .inr ⟨ht ▸ rfl, .complete hc ?_⟩
    rw [ht, readCsa_goTo, readCsa_goTo]
    simp [respond, goTo]
  | notComplete hc ht =>
    refine .inl ⟨.f2, ht ▸ rfl, .notComplete hc ?_⟩
    rw [ht, readCsa_goTo, readCsa_goTo]
    rfl
  | reChecks hg ht => exact .inl ⟨.f2, ht ▸ rfl, .reChecks hg (ht ▸ rfl)⟩
  | pumps u hg hm hu ht =>
    have hu' := pollAndPump_goTo (f := .endLine (.drain .f4)) hu
    exact .inl ⟨.f2, ht ▸ rfl, .pumps _ hg hm hu' (ht ▸ rfl)⟩

/-- Settles O24: `drain_of_flush` at each label. -/
theorem endDrainsAsFlush : Obligations.EndDrainsAsFlush := by
  unfold Obligations.EndDrainsAsFlush
  intro s t pt hx
  have hx' : execFlush (goTo (.flush pt) s) = .next t := hx
  obtain ⟨hidle, -⟩ | ⟨p, hp, hflush⟩ := execFlush_next hx'
  · cases hidle
  obtain rfl : pt = p := Fg.flush.inj hp
  rcases drain_of_flush (s := s) (flushStep_next hflush) with ⟨q, hq, hstep⟩ | ⟨hi, hstep⟩
  · refine ⟨fun p hp => ?_, fun hi => nomatch hq.symm.trans hi⟩
    obtain rfl : q = p := Fg.flush.inj (hq.symm.trans hp)
    exact exec_endLine_drain rfl hstep
  · exact ⟨fun p hp => (nomatch hi.symm.trans hp), fun _ => exec_endLine_drain rfl hstep⟩

/-! ### END (R118) -/

section
variable {s : State}

theorem exec_endLine_e1 (hf : s.fg = .endLine .e1) :
    exec .endLine s = .next (goTo (.endLine .e2) (lineEnded s)) := by
  simp [exec, execEnd, hf, endAtomic_eq]

theorem exec_endLine_e2 (hf : s.fg = .endLine .e2) : exec .endLine s = .next (respond .done s) := by
  simp [exec, execEnd, hf]

/-- END with nothing written: taken, E1, E2, answered. -/
theorem execN_endLine (hf : s.fg = .idle) (hl : s.line = .active) (hw : s.written = false) :
    execN .endLine 4 s = .next { lineEnded s with responses := s.responses ++ [.done] } := by
  have htaken : exec .endLine s = .next (goTo (.endLine (.drain .f1)) s) :=
    (exec_endLine_idle hf).trans (present_of_active hl _ _)
  have hdrained : exec .endLine (goTo (.endLine (.drain .f1)) s) = .next (goTo (.endLine .e1) s) :=
    exec_endLine_drain rfl (.nothingWritten hw rfl)
  rw [execN_succ_of_next htaken, execN_succ_of_next hdrained,
    execN_succ_of_next (exec_endLine_e1 rfl), execN_succ_of_next (exec_endLine_e2 rfl), execN_zero]
  exact congrArg _ (respond_goTo_of_idle (s := lineEnded s) hf _ _)

end

/-- Settles O23: label by label, and the four steps with nothing written. -/
theorem endClosesTheLine : Obligations.EndClosesTheLine := by
  unfold Obligations.EndClosesTheLine
  exact fun s => ⟨fun hf hl => (exec_endLine_idle hf).trans (present_of_active hl _ _), exec_endLine_e1,
    exec_endLine_e2, execN_endLine⟩

/-! ### FLUSH (R144) -/

/-- F3 reads CSA once and answers exactly where TXC is 1. -/
theorem exec_flush_f3 {s : State} (hf : s.fg = .flush .f3) (hc : s.cfg.ok = true) :
    ∃ v t, statusShows s v ∧ exec .flush s = .next t ∧ t = { s with
      fg := if s.txc = true then .idle else .flush .f2
      responses := if s.txc = true then s.responses ++ [.done] else s.responses
      bus := s.bus ++ [.rd .csa v], drawIn := t.drawIn, drawCount := t.drawCount } := by
  refine ⟨(readCsa s).1.image s.cfg, ?_⟩
  cases htxc : s.txc with
  | true =>
    refine ⟨_, statusShows_readCsa hc, exec_flush_of hf (.complete htxc rfl), ?_⟩
    rw [readCsa_state]
    simp [respond, htxc]
  | false =>
    refine ⟨_, statusShows_readCsa hc, exec_flush_of hf (.notComplete htxc rfl), ?_⟩
    rw [readCsa_state]
    simp [goTo, htxc]

/-- Settles O33: label by label, and the two steps with nothing written. -/
theorem flushWaitsForTransmitComplete : Obligations.FlushWaitsForTransmitComplete := by
  unfold Obligations.FlushWaitsForTransmitComplete
  intro s
  have taken (hf : s.fg = .idle) (hl : s.line = .active) : exec .flush s = .next (goTo (.flush .f1) s) :=
    (exec_flush_idle hf).trans (present_of_active hl _ _)
  refine ⟨taken, fun hf hw => exec_flush_of hf (.nothingWritten hw rfl),
      fun hf hw => exec_flush_of hf (.written hw rfl),
    fun hf => ?_, exec_flush_f3, fun hf hg => exec_flush_of hf (.reChecks hg rfl), fun hf hl hw => ?_⟩
  · split
    · rename_i he
      exact exec_flush_of hf (.ringEmpty he rfl)
    · rename_i he
      exact exec_flush_of hf (.stillQueued he rfl)
  · rw [execN_succ_of_next (taken hf hl),
      execN_succ_of_next (exec_flush_of (s := goTo (.flush .f1) s) rfl (.nothingWritten hw rfl)),
      execN_zero, respond_goTo_of_idle hf]

/-! ### WRITE (R140) -/

section
variable {s : State} {byte : Byte}

theorem exec_write_taken (hf : s.fg = .idle) (hl : s.line = .active) :
    exec (.write byte) s = .next (goTo (.write byte .w1) s) :=
  (exec_write_idle hf byte).trans (present_of_active hl _ _)

theorem exec_write_w1_full (hf : s.fg = .write byte .w1) (hn : nextIndex s.cfg.cTx s.txHead = s.txTail) :
    exec (.write byte) s = .next (goTo (.write byte .w2) s) := by
  simp [exec, execWrite, hf, writeStep, writeW1, hn]

theorem exec_write_w1_room (hf : s.fg = .write byte .w1) (hn : nextIndex s.cfg.cTx s.txHead ≠ s.txTail) :
    exec (.write byte) s = .next (goTo (.write byte (.w3 s.txHead (nextIndex s.cfg.cTx s.txHead))) s) := by
  simp [exec, execWrite, hf, writeStep, writeW1, hn]

theorem exec_write_w2_waits (hf : s.fg = .write byte .w2) (hg : s.gie = true) :
    exec (.write byte) s = .next (goTo (.write byte .w1) s) := by
  simp [exec, execWrite, hf, writeStep, writeW2, hg]

theorem exec_write_w3 {h n : Nat} (hf : s.fg = .write byte (.w3 h n)) (hh : h < s.cfg.cTx) :
    exec (.write byte) s = .next (goTo (.write byte (.w4 h n)) { s with txBuf := s.txBuf.write h byte }) := by
  simp [exec, execWrite, hf, writeStep, writeW3, memWrite_txb _ hh]

theorem exec_write_w4 {h n : Nat} (hf : s.fg = .write byte (.w4 h n)) :
    exec (.write byte) s = .next (goTo (.write byte .w5) (published n s)) := by
  simp [exec, execWrite, hf, writeStep, writeW4_eq]

theorem exec_write_w5 (hf : s.fg = .write byte .w5) : exec (.write byte) s = .next (respond (.val 1) s) := by
  simp [exec, execWrite, hf, writeStep]

/-- The state after a byte is stored and published and WRITE has answered (R140). -/
def byteQueued (byte : Byte) (s : State) : State :=
  respond (.val 1) (published (nextIndex s.cfg.cTx s.txHead) { s with txBuf := s.txBuf.write s.txHead byte })

/-- WRITE from W1 on a ring with room: W3, W4, W5, answered. -/
theorem execN_write_w1 (hf : s.fg = .write byte .w1) (hh : s.txHead < s.cfg.cTx)
    (hn : nextIndex s.cfg.cTx s.txHead ≠ s.txTail) : execN (.write byte) 4 s = .next (byteQueued byte s) := by
  have hstored : exec (.write byte) (goTo (.write byte (.w3 s.txHead (nextIndex s.cfg.cTx s.txHead))) s) =
      .next (goTo (.write byte (.w4 s.txHead (nextIndex s.cfg.cTx s.txHead)))
        { s with txBuf := s.txBuf.write s.txHead byte }) := exec_write_w3 rfl hh
  rw [execN_succ_of_next (exec_write_w1_room hf hn), execN_succ_of_next hstored,
    execN_succ_of_next (exec_write_w4 rfl), execN_succ_of_next (exec_write_w5 rfl), execN_zero]
  rfl

/-- The byte queued is the last of the ring (R140). -/
theorem ringBytes_byteQueued (hr : RingInRange .tx s) (hn : nextIndex s.cfg.cTx s.txHead ≠ s.txTail) :
    ringBytes .tx (byteQueued byte s) = ringBytes .tx s ++ [byte] :=
  ringBytes_ringPushed byte hr hn

end

/-- Settles O30: label by label, and the five steps on a ring with room. -/
theorem writeQueuesTheByte : Obligations.WriteQueuesTheByte := by
  unfold Obligations.WriteQueuesTheByte
  intro s byte h n
  refine ⟨exec_write_taken, fun hf => ?_, exec_write_w2_waits, exec_write_w3, exec_write_w4, exec_write_w5,
    fun hf hl hh hn => ?_⟩
  · split
    · rename_i hn
      exact exec_write_w1_full hf hn
    · rename_i hn
      exact exec_write_w1_room hf hn
  · rw [execN_succ_of_next (exec_write_taken hf hl), execN_write_w1 (s := goTo (.write byte .w1) s) rfl hh hn]
    simp [byteQueued, respond, published, csbUpdated, goTo, nextIndex, hf]

/-! ### The masked-interrupt fallback (R139, R150) -/

/-- Where FG stands at a fallback with `gie = 0`, its step polls, pumps, and goes on (R140 step W2, R144 step F4). -/
theorem exec_fallback {s : State} {i : Instr} {back : Fg} (hg : s.gie = false) (hi : s.fg.command? = some i)
    (hb : fallbackTo s = some back) : exec i s = andThen (pollAndPump s) fun t => .next (goTo back t) := by
  unfold fallbackTo at hb
  split at hb
  · rename_i byte hf
    obtain rfl := Option.some.inj hb
    obtain rfl : Instr.write byte = i := by simpa [hf, Fg.command?] using hi
    simp [exec, execWrite, hf, writeStep, writeW2, hg]
  · rename_i hf
    obtain ⟨hm, rfl⟩ : s.cfg.flushPollsWhenMasked = true ∧ Fg.flush .f2 = back := by simpa using hb
    obtain rfl : Instr.flush = i := by simpa [hf, Fg.command?] using hi
    simp [exec, execFlush, hf, flushStep, hg, hm]
  · rename_i hf
    obtain ⟨hm, rfl⟩ : s.cfg.flushPollsWhenMasked = true ∧ Fg.endLine (.drain .f2) = back := by simpa using hb
    obtain rfl : Instr.endLine = i := by simpa [hf, Fg.command?] using hi
    simp [exec, execEnd, hf, flushStep, hg, hm]
  · cases hb

/-- Settles O31: the fallback reads CSA, and runs the transmit-empty body where DR is free. -/
theorem maskedFallbackRunsTheBody : Obligations.MaskedFallbackRunsTheBody := by
  unfold Obligations.MaskedFallbackRunsTheBody
  intro s i back hc hg hi hb
  have hx := exec_fallback hg hi hb
  refine ⟨fun hh => ?_, fun hh hne ht => ?_⟩
  · obtain ⟨c, hh⟩ := Option.ne_none_iff_exists'.1 hh
    rw [pollAndPump_of_some hh] at hx
    refine ⟨_, _, statusShows_readCsa hc, hx, ?_⟩
    rw [readCsa_state]
    rfl
  · have hbody : txEmptyBody (readCsa s).2 = .next _ :=
      txEmptyBody_eq (by simpa using hne) (by simpa using ht) (by simpa using hh)
    rw [pollAndPump_of_none hh, hbody] at hx
    exact ⟨_, _, _, statusShows_readCsa hc, readCsa_state s, hbody, hx⟩

/-- A full ring of at least two cells is not empty (R37d). -/
theorem ne_of_full {c h t : Nat} (hc : 2 ≤ c) (hh : h < c) (hfull : nextIndex c h = t) : h ≠ t := by
  have hnext := nextIndex_eq hh
  split at hnext <;> omega

/-- W2 with `gie = 0` and DR free, on a full ring: the oldest byte goes to the unit, and W1 finds room (R139b). -/
theorem exec_write_w2_pumps {s : State} {byte : Byte} (hf : s.fg = .write byte .w2) (hg : s.gie = false)
    (hne : s.txHead ≠ s.txTail) (ht : s.txTail < s.cfg.cTx) (hh : s.txHold = none) :
    exec (.write byte) s = .next (goTo (.write byte .w1) (pumped s)) := by
  have hbody : txEmptyBody (readCsa s).2 = .next _ :=
    txEmptyBody_eq (by simpa using hne) (by simpa using ht) (by simpa using hh)
  have hb : fallbackTo s = some (.write byte .w1) := by simp only [fallbackTo, hf]
  rw [exec_fallback hg (by rw [hf]; rfl) hb, pollAndPump_of_none hh, hbody, readCsa_txBuf, readCsa_txTail]
  rfl

/-- Settles O32: W1, W2 with the body, then W1 to W5 on a ring that now has room. -/
theorem writeFallbackCompletes : Obligations.WriteFallbackCompletes := by
  unfold Obligations.WriteFallbackCompletes
  intro s byte hc hf hl hg hh ht hfull hhold
  have hne : s.txHead ≠ s.txTail := ne_of_full (Params.cap_facts hc).2 hh hfull
  have hw1 : exec (.write byte) (goTo (.write byte .w1) s) = .next (goTo (.write byte .w2) s) :=
    exec_write_w1_full rfl hfull
  have hw2 : exec (.write byte) (goTo (.write byte .w2) s) =
      .next (goTo (.write byte .w1) (pumped (goTo (.write byte .w2) s))) := exec_write_w2_pumps rfl hg hne ht hhold
  generalize hu : goTo (.write byte .w1) (pumped (goTo (.write byte .w2) s)) = u at hw2
  have hur : RingInRange .tx u := by
    subst hu
    exact ⟨by simpa [pumped, ringHead, ringCap] using hh,
      by simpa [pumped, ringTail, ringCap] using nextIndex_lt (Nat.zero_lt_of_lt hh)⟩
  have huroom : nextIndex u.cfg.cTx u.txHead ≠ u.txTail := by
    subst hu
    simpa [pumped] using fun he => hne (nextIndex_inj hh ht he)
  have hubytes : ringBytes .tx u = (ringBytes .tx s).tail := by
    subst hu
    have hr' : RingInRange .tx (goTo (.write byte .w2) s) := ⟨hh, ht⟩
    obtain ⟨-, hring⟩ := pumped_path hr' hne hhold hc
    exact (congrArg List.tail hring).symm
  refine ⟨byteQueued byte u, ?_, rfl, ?_, ?_, ?_, ?_⟩
  · rw [execN_succ_of_next (exec_write_taken hf hl), execN_succ_of_next hw1, execN_succ_of_next hw2]
    exact execN_write_w1 (by rw [← hu]; rfl) hur.head_lt huroom
  · subst hu
    simp [byteQueued, published, pumped]
  · subst hu
    simp [byteQueued, published, pumped]
  · rw [ringBytes_byteQueued hur huroom, hubytes]
  · have huc : u.cfg.ok = true := by
      subst hu
      simpa [pumped] using hc
    exact (enables_setUdrie huc u.csb).2.1

/-! ### Loops that wait (R146, R207) -/

/-- Settles O34: the two passes of each loop, back at the label they began at. -/
theorem blockedLoopsStutter : Obligations.BlockedLoopsStutter := by
  unfold Obligations.BlockedLoopsStutter
  intro s byte
  refine ⟨fun hf hn hg => ?_, fun hf hne hg => ?_, fun hf he hc => ?_⟩
  · rw [execN_succ_of_next (exec_write_w1_full hf hn),
      execN_succ_of_next (exec_write_w2_waits (s := goTo (.write byte .w2) s) rfl hg), execN_zero,
      goTo_goTo, goTo_self hf]
  · rw [execN_succ_of_next (exec_flush_of hf (.stillQueued hne rfl)),
      execN_succ_of_next (exec_flush_of (s := goTo (.flush .f4) s) rfl (.reChecks hg rfl)), execN_zero, goTo_goTo,
      goTo_self hf]
  · refine ⟨(readCsa s).1.image s.cfg, goTo (.flush .f2) (readCsa s).2, ?_, ?_⟩
    · rw [execN_succ_of_next (exec_flush_of hf (.ringEmpty he rfl)),
        execN_succ_of_next (exec_flush_of (s := goTo (.flush .f3) s) rfl (.notComplete hc rfl)), execN_zero,
        readCsa_goTo, goTo_goTo]
    · rw [readCsa_state]
      simp [goTo, hf]

end Sys2Proof.Machine
end

section
/-! The two handlers (R150 to R158, R173, R179): what IRQ_RX leaves as one state, what becomes of the byte, what a
handler leaves alone, where the transmit-empty body stops, and that the two bodies commute. -/

namespace Sys2Proof.Machine

/-! ### What the receive body leaves (R151) -/

/-- The byte read is stored: it is kept, and the ring has room (R151, R153). -/
def rxStores (s : State) : Bool := rxKeeps s && !decide (nextIndex s.cfg.cRx s.rxHead = s.rxTail)

/-- The state after the receive body (R151). -/
def rxResult (s : State) : State :=
  { rxDecided s with
    rxHead := if rxStores s then nextIndex s.cfg.cRx s.rxHead else s.rxHead
    rxBuf := if rxStores s then s.rxBuf.write s.rxHead (rxData s) else s.rxBuf }

/-- The receive body completes where the head is in range. -/
theorem rxBody_eq_rxResult {s : State} (hh : s.rxHead < s.cfg.cRx) : rxBody s = .next (rxResult s) := by
  have hdropped : rxStores s = false → rxResult s = rxDecided s := fun hs => by
    simp only [rxResult, hs, Bool.false_eq_true, if_false]
    rw [rxDecided_state]
  rw [rxBody_eq]
  cases hk : rxKeeps s with
  | false => rw [if_neg Bool.false_ne_true, hdropped (by simp [rxStores, hk])]
  | true =>
    by_cases hfull : nextIndex s.cfg.cRx s.rxHead = s.rxTail
    · rw [if_pos rfl, storeReceived_full (by simpa using hfull), hdropped (by simp [rxStores, hfull])]
    · rw [if_pos rfl, storeReceived_room (by simpa using hh) (by simpa using hfull)]
      simp [rxResult, rxStores, hk, hfull]

/-- The scripted answer is the hook's (R87). -/
theorem callHook_of_script {s : State} {a : Bool} {rest : List Bool} (hs : s.hookIn = a :: rest) (h : Handle)
    (b v : Byte) : (callHook h b v s).1 = a := by
  simp [callHook, hs]

section
variable {s : State}

/-- Without a hook the parity bit decides (R151). -/
theorem rxStores_of_no_hook (hk : s.hook = none) : rxStores s = false ↔
    upeOf s.rxWait = true ∨ nextIndex s.cfg.cRx s.rxHead = s.rxTail := by
  simp only [rxStores, rxKeeps, hk]
  cases upeOf s.rxWait <;> simp

/-- Without a hook no hook is called and no answer used (R151). -/
theorem rxDecided_of_no_hook (hk : s.hook = none) : rxDecided s = rxTaken s := by
  simp only [rxDecided, hk]

/-- With a hook installed its answer decides (R151, R152). -/
theorem rxStores_of_hook : rxStores s = false ↔ rxKeeps s = false ∨ nextIndex s.cfg.cRx s.rxHead = s.rxTail := by
  cases hk : rxKeeps s <;> simp [rxStores, hk]

/-- With a hook installed it is called once (R151). -/
theorem rxDecided_of_hook {h : Handle} (hk : s.hook = some h) : rxDecided s = { rxTaken s with
    hookIn := s.hookIn.tail, hookCalls := s.hookCalls ++ [⟨h, rxData s, rxStatus s, rxKeeps s⟩] } := by
  simp only [rxDecided, rxKeeps, hk]
  rw [callHook_state]
  simp

/-- The installed hook's answer is the scripted one where there is one (R87). -/
theorem rxKeeps_of_script {h : Handle} {a : Bool} {rest : List Bool} (hk : s.hook = some h)
    (hs : s.hookIn = a :: rest) : rxKeeps s = a := by
  simp only [rxKeeps, hk]
  exact callHook_of_script (by simpa using hs) ..

end

/-- What is decided by storing, decided by dropping. -/
theorem ite_rxStores {α : Type} {s : State} {p : Prop} [Decidable p] (h : rxStores s = false ↔ p) (x y : α) :
    (if rxStores s then x else y) = if p then y else x := by
  cases hs : rxStores s with
  | false => rw [if_pos (h.1 hs), if_neg Bool.false_ne_true]
  | true =>
    have hn : ¬ p := fun hp => nomatch hs.symm.trans (h.2 hp)
    rw [if_neg hn, if_pos rfl]

/-- Settles O35: the state `rxResult`, without and with a hook. -/
theorem receiveHandler : Obligations.ReceiveHandler := by
  unfold Obligations.ReceiveHandler
  intro s hc hh
  refine ⟨rxStatus s, rxData s, rxResult s, statusShows_readCsa hc, fun w hw => rxData_of_some hw,
    rxBody_eq_rxResult hh, fun hk => ?_, fun h hk => ⟨rxKeeps s, fun a rest hs => rxKeeps_of_script hk hs, ?_⟩⟩
  · rw [rxResult, rxDecided_of_no_hook hk, rxTaken_state, ite_rxStores (rxStores_of_no_hook hk),
      ite_rxStores (rxStores_of_no_hook hk)]
    rfl
  · rw [rxResult, rxDecided_of_hook hk, rxTaken_state, ite_rxStores rxStores_of_hook, ite_rxStores rxStores_of_hook]
    rfl

/-! ### The number of buffered bytes (R154) -/

/-- A byte that is not stored leaves the ring as it was. -/
theorem rxResult_of_dropped {s : State} (hs : rxStores s = false) :
    count .rx (rxResult s) = count .rx s ∧ (rxResult s).rxBuf = s.rxBuf := by
  simp [rxResult, hs, count, ringCap, ringHead, ringTail]

/-- A byte that is stored makes the count one more. -/
theorem rxResult_of_stored {s : State} (hh : s.rxHead < s.cfg.cRx) (ht : s.rxTail < s.cfg.cRx)
    (hs : rxStores s = true) : count .rx (rxResult s) = count .rx s + 1 := by
  have hroom : nextIndex s.cfg.cRx s.rxHead ≠ s.rxTail := by
    simp only [rxStores, Bool.and_eq_true, Bool.not_eq_true', decide_eq_false_iff_not] at hs
    exact hs.2
  simpa [rxResult, hs, count, ringCap, ringHead, ringTail] using ringCount_push hh ht hroom

/-- Settles O36: whether the byte is stored, by the row of the table. -/
theorem receiveOutcomes : Obligations.ReceiveOutcomes := by
  unfold Obligations.ReceiveOutcomes
  intro s t hc hh ht hx
  obtain rfl : rxResult s = t := Host.Outcome.next.inj ((rxBody_eq_rxResult hh).symm.trans hx)
  have hfull : count .rx s = s.cfg.cRx - 1 ↔ nextIndex s.cfg.cRx s.rxHead = s.rxTail := count_eq_max_iff hh ht
  have hroom (hlt : count .rx s < s.cfg.cRx - 1) : nextIndex s.cfg.cRx s.rxHead ≠ s.rxTail :=
    fun he => hlt.ne (hfull.2 he)
  have hstored {p : Prop} (h : rxStores s = false ↔ p ∨ nextIndex s.cfg.cRx s.rxHead = s.rxTail) (hp : ¬ p)
      (hlt : count .rx s < s.cfg.cRx - 1) : count .rx (rxResult s) = count .rx s + 1 :=
    rxResult_of_stored hh ht (Bool.eq_true_of_not_eq_false fun hs => (h.1 hs).elim hp (hroom hlt))
  refine ⟨fun hmax => rxResult_of_dropped (by simp [rxStores, hfull.1 hmax]),
      fun hk => ⟨?_, fun hpe => ?_, fun hpe => ?_⟩,
    fun h hk => ⟨⟨h, rxData s, rxStatus s, rxKeeps s⟩, rfl, ?_, fun ha => ?_, fun ha => ?_⟩⟩
  · simp [rxResult, rxDecided_of_no_hook hk]
  · exact rxResult_of_dropped ((rxStores_of_no_hook hk).2 (.inl hpe))
  · exact hstored (rxStores_of_no_hook hk) (by simp [hpe])
  · simp [rxResult, rxDecided_of_hook hk]
  · exact rxResult_of_dropped (rxStores_of_hook.2 (.inl ha))
  · exact hstored rxStores_of_hook (by simpa using ha)

/-! ### What a handler leaves alone (R174, R176, R179) -/

/-- The byte is not taken while DR is held (R41). -/
theorem txEmptyBody_of_held {s : State} {c : Byte} (hne : s.txHead ≠ s.txTail) (ht : s.txTail < s.cfg.cTx)
    (hh : s.txHold = some c) : txEmptyBody s = .fault .dataRegisterHeld := by
  simp [txEmptyBody, hne, memRead_txb ht, writeDr, hh]

/-- Settles O39: the two stops of the body. -/
theorem transmitBodyFaults : Obligations.TransmitBodyFaults := by
  unfold Obligations.TransmitBodyFaults
  refine fun s => ⟨txEmptyBody_of_empty, fun hne ht hh => ?_⟩
  obtain ⟨c, hc⟩ := Option.ne_none_iff_exists'.1 hh
  exact txEmptyBody_of_held hne ht hc

/-- Settles O40: by the handler, field by field; the enables of IRQ_UDRE by `txBodyEnd_enables`. -/
theorem handlersKeepTheForeground : Obligations.HandlersKeepTheForeground := by
  unfold Obligations.HandlersKeepTheForeground
  intro v s t hc hx
  obtain rfl | rfl : v = 0 ∨ v = 1 := by bv_omega
  · rcases rxBody_next (s := s) hx with rfl | ⟨-, -, -, rfl⟩ <;> simp [rxcie, rxen, txen]
  · obtain ⟨-, -, -, rfl⟩ := txEmptyBody_next (s := s) hx
    obtain ⟨hrxcie, hrxen, htxen, -⟩ := txBodyEnd_enables (s := handedOver (cellValue .txb s.txBuf s.txTail) s) hc
    rw [hrxcie, hrxen, htxen]
    simp [rxcie, rxen, txen]

/-! ### The order of the two handlers (R173) -/

/-- The state after the transmit-empty body (R155). -/
def txResult (s : State) : State := txBodyEnd (handedOver (cellValue .txb s.txBuf s.txTail) s)

/-- What is left of the script depends on the hook and the script alone (R87). -/
theorem rxDecided_hookIn_congr {s t : State} (hhook : t.hook = s.hook) (hscript : t.hookIn = s.hookIn) :
    (rxDecided t).hookIn = (rxDecided s).hookIn := by
  cases hs : s.hook with
  | none => simp [rxDecided_of_no_hook hs, rxDecided_of_no_hook (hhook.trans hs), hscript]
  | some h => simp [rxDecided_of_hook hs, rxDecided_of_hook (hhook.trans hs), hscript]

section
variable {s t : State} (hk : s.hook = none ∨ s.hookIn ≠ []) (hhook : t.hook = s.hook)
    (hscript : t.hookIn = s.hookIn)
include hk hhook hscript

/-- With no hook or a scripted answer, the decision depends on the waiting byte and the script alone. -/
theorem rxKeeps_congr (hw : t.rxWait = s.rxWait) : rxKeeps t = rxKeeps s := by
  cases hs : s.hook with
  | none => simp only [rxKeeps, hhook, hs, hw]
  | some h =>
    obtain ⟨a, rest, he⟩ := List.exists_cons_of_ne_nil (hk.resolve_left (by simp [hs]))
    rw [rxKeeps_of_script hs he, rxKeeps_of_script (hhook.trans hs) (hscript.trans he)]

/-- So does whether the byte is stored, with the ring's indices. -/
theorem rxStores_congr (hw : t.rxWait = s.rxWait) (hc : t.cfg = s.cfg) (hh : t.rxHead = s.rxHead)
    (ht : t.rxTail = s.rxTail) : rxStores t = rxStores s := by
  rw [rxStores, rxStores, rxKeeps_congr hk hhook hscript hw, hc, hh, ht]

/-- The calls made are the same but for the status. -/
theorem rxDecided_hookCalls_congr (hw : t.rxWait = s.rxWait) (hd : rxData t = rxData s)
    (hcalls : t.hookCalls = s.hookCalls) :
    (rxDecided t).hookCalls.map (fun k => (k.handle, k.byte, k.answer)) =
      (rxDecided s).hookCalls.map (fun k => (k.handle, k.byte, k.answer)) := by
  cases hs : s.hook with
  | none => simp [rxDecided_of_no_hook hs, rxDecided_of_no_hook (hhook.trans hs), hcalls]
  | some h =>
    simp [rxDecided_of_hook hs, rxDecided_of_hook (hhook.trans hs), hcalls, hd,
      rxKeeps_congr hk hhook hscript hw]

end

/-- Settles O41: the receive body finds the same byte, script and indices before and after the transmit-empty body,
which finds the same ring and the same free DR before and after the receive body. -/
theorem handlersCommute : Obligations.HandlersCommute := by
  unfold Obligations.HandlersCommute
  intro s hc hh ht hne hhold hw hk
  obtain ⟨w, hw⟩ := Option.ne_none_iff_exists'.1 hw
  have hdata : rxData (txResult s) = rxData s := by
    rw [rxData_of_some hw, rxData_of_some (by simpa [txResult] using hw)]
  have hstores : rxStores (txResult s) = rxStores s :=
    rxStores_congr hk (by simp [txResult]) (by simp [txResult]) (by simp [txResult]) (by simp [txResult])
      (by simp [txResult]) (by simp [txResult])
  have hscript : (rxDecided (txResult s)).hookIn = (rxDecided s).hookIn :=
    rxDecided_hookIn_congr (by simp [txResult]) (by simp [txResult])
  have hcalls := rxDecided_hookCalls_congr (t := txResult s) hk (by simp [txResult]) (by simp [txResult])
    (by simp [txResult]) hdata (by simp [txResult])
  refine ⟨rxResult s, txResult (rxResult s), txResult s, rxResult (txResult s), rxBody_eq_rxResult hh,
    txEmptyBody_eq (by simpa [rxResult] using hne) (by simpa [rxResult] using ht) (by simpa [rxResult] using hhold),
    txEmptyBody_eq hne ht hhold, rxBody_eq_rxResult (by simpa [txResult] using hh), ?_, ?_⟩
  · rw [rxResult, hstores, hdata, hscript]
    simp [rxResult, txResult]
    rfl
  · simpa [rxResult, txResult] using hcalls

end Sys2Proof.Machine
end

section
/-! The state after reset (R49, R195 to R197) and the invariant over every run from it (R47, R169). -/

namespace Sys2Proof.Machine

/-! ### The values after reset (R49) -/

theorem storageOk_nil (c : Nat) : storageOk c [] := ⟨rfl, fun _ hx => nomatch hx⟩

/-- The state after reset has the values R49 gives, whatever the parameters. -/
theorem resetState_resetWith (p : Params) : ResetState (State.resetWith p) where
  rxHead := rfl
  rxTail := rfl
  txHead := rfl
  txTail := rfl
  rxStorage := storageOk_nil _
  txStorage := storageOk_nil _
  written := rfl
  hook := rfl
  line := rfl
  fg := rfl
  rxcie := bitOf_zero _
  udrie := bitOf_zero _
  txc := rfl
  rxWait := rfl
  txHold := rfl
  txShift := rfl
  wireOut := rfl

/-- Settles O46: `resetState_resetWith`, and empty observations and storage. -/
theorem resetValues : Obligations.ResetValues := by
  unfold Obligations.ResetValues
  exact ⟨fun p => ⟨resetState_resetWith p, rfl, rfl, rfl, rfl, Memory.read_nil, Memory.read_nil⟩, rfl⟩

/-! ### Queries in the reset state (R197) -/

/-- PEEK of an empty ring, run to the end. -/
theorem execN_peek_empty {s : State} (hf : s.fg = .idle) (he : s.rxHead = s.rxTail) :
    execN .peek 2 s = .next { s with responses := s.responses ++ [.none] } := by
  rw [execN_succ_of_next (exec_peek_idle hf),
    execN_succ_of_next (exec_peek_s1_empty (s := goTo (.peek .s1) s) rfl he),
    execN_zero, respond_goTo_of_idle hf]

/-- READ of an empty ring, run to the end. -/
theorem execN_read_empty {s : State} (hf : s.fg = .idle) (he : s.rxHead = s.rxTail) :
    execN .read 2 s = .next { s with responses := s.responses ++ [.none] } := by
  rw [execN_succ_of_next (exec_read_idle hf),
    execN_succ_of_next (exec_read_s1_empty (s := goTo (.read .s1) s) rfl he),
    execN_zero, respond_goTo_of_idle hf]

/-- Settles O47: both rings are empty, so the counts are 0 and PEEK and READ find nothing. -/
theorem resetQueries : Obligations.ResetQueries := by
  unfold Obligations.ResetQueries
  intro s h
  have hrx : count .rx s = 0 := count_of_indices_zero (q := .rx) h.rxHead h.rxTail
  have htx : freeSlots .tx s = s.cfg.cTx - 1 :=
    congrArg (s.cfg.cTx - 1 - ·) (count_of_indices_zero (q := .tx) h.txHead h.txTail)
  have he : s.rxHead = s.rxTail := h.rxHead.trans h.rxTail.symm
  refine ⟨?_, ?_, ?_, execN_peek_empty h.fg he, execN_read_empty h.fg he⟩
  · rw [execN_succ_of_next (exec_ready_idle h.fg), execN_succ_of_next (exec_ready_answers rfl), execN_zero,
      respond_goTo_of_idle h.fg]
  · rw [execN_avail h.fg, hrx]
  · rw [execN_availw h.fg, htx]

/-! ### The invariant from reset on (R47, R169) -/

/-- The reset state has the invariant. -/
theorem ResetState.blockInv {s : State} (h : ResetState s) (hc : s.cfg.ok = true) : BlockInv s := by
  obtain ⟨hcrx, hctx⟩ := Params.cap_facts hc
  have hrx : s.rxHead = s.rxTail := h.rxHead.trans h.rxTail.symm
  have htx : s.txHead = s.txTail := h.txHead.trans h.txTail.symm
  exact {
    config := hc
    rxIndices := by rw [h.rxHead, h.rxTail]; omega
    txIndices := by rw [h.txHead, h.txTail]; omega
    rxStorage := h.rxStorage
    txStorage := h.txStorage
    hookHandle := by simp [h.hook]
    udrieIff := by simp [h.udrie, htx]
    uninitialized := fun _ => ⟨h.rxcie, h.udrie, hrx, htx⟩
    active := fun ha => nomatch h.line.symm.trans ha
    rxWritten := fun _ ho => absurd (hrx ▸ ho) not_occupied_self
    txWritten := fun _ ho => absurd (htx ▸ ho) not_occupied_self
    txcIdle := fun _ => ⟨h.txHold, h.txShift⟩
    onItsWay := fun hw => nomatch h.written.symm.trans hw
    sequencer := by simp [sequencerOk, h.fg] }

/-- Settles O48: `ResetState.blockInv`. -/
theorem resetInv : Obligations.ResetInv := by
  unfold Obligations.ResetInv
  exact fun _ hc h => h.blockInv hc

/-- Every run keeps the invariant. -/
theorem BlockInv.stepN {n : Nat} {s t : State} (h : BlockInv s) (hx : stepN n s = .next t) : BlockInv t := by
  induction n generalizing s with
  | zero =>
    obtain rfl := Host.Outcome.next.inj hx
    exact h
  | succ n ih =>
    obtain ⟨u, hu, hx⟩ := andThen_eq_next.1 hx
    exact ih (h.step hu) hx

/-- Settles O51: the clause `udrieIff` of the invariant, in every state a run from reset reaches. -/
theorem transmitInterruptInvariant : Obligations.TransmitInterruptInvariant := by
  unfold Obligations.TransmitInterruptInvariant
  intro s t n hc hreset hx _
  have hinv : BlockInv t := (hreset.blockInv hc).stepN hx
  exact ⟨hinv.udrieIff.1, fun _ => hinv.udrieIff⟩

end Sys2Proof.Machine
end

section
/-! The step of the machine (R28, R29, R60, R172, R182, R201): what it runs, and what it refuses. -/

namespace Sys2Proof.Machine

/-! ### The scheduled move -/

/-- A step takes the scheduled move (R60). -/
theorem step_of_move {s : State} {m : Move} {rest : List Move} (hc : s.cfg.ok = true) (hs : s.sched = m :: rest) :
    step s = runMove m { s with sched := rest } := by
  simp [step, stepOnce, hc, hs]

/-- FG's move runs the command that `fg` points at (R28). -/
theorem moveFg_of_command {s : State} {i : Instr} (hi : s.fg.command? = some i) : moveFg s = exec i s := by
  simp [moveFg, hi]

/-- With no move listed FG goes on (assumption log 7). -/
theorem step_unscheduled {s : State} {i : Instr} (hc : s.cfg.ok = true) (hs : s.sched = [])
    (hi : s.fg.command? = some i) : step s = exec i s := by
  simp [step, stepOnce, hc, hs, runUnscheduled, hi]

/-! ### Dispatching an entry (R86, R172) -/

/-- The two entries of this line stand at `2L` and `2L + 1` (R86). -/
theorem routeVector_this_line (l : Nat) (v : BitVec 1) :
    routeVector l (2 * l + v.toNat) = some (decodeVector v) := by
  obtain rfl | rfl : v = 0 ∨ v = 1 := by bv_omega
  · simp [routeVector, vectorIndex]
  · simp [routeVector, vectorIndex]

/-- Every other index is another line's (R86, R182). -/
theorem routeVector_other_line {l idx : Nat} (h0 : idx ≠ 2 * l) (h1 : idx ≠ 2 * l + 1) :
    routeVector l idx = none := by
  simp [routeVector, vectorIndex, h0, h1]

/-- An enabled handler is its body (R172, R174, R176). -/
theorem invokeHandler_of_enabled {s : State} {i : Instr} (body : State → Result State)
    (h : handlerEnabled s i = true) : invokeHandler i body s = body s := by
  rw [invokeHandler, if_pos h, enterHandler]
  cases body s <;> rfl

/-- The dispatch of an entry of this line that is not enabled is refused (assumption log 8). -/
theorem moveIrq_of_disabled {s : State} (v : BitVec 1) (h : handlerEnabled s (decodeVector v) = false) :
    moveIrq (2 * s.cfg.lineId + v.toNat) s = .refused .moveNotEnabled := by
  simp [moveIrq, routeVector_this_line, invokeHandler, h]

/-- The dispatch of an entry of this line that is enabled runs its body (R172). -/
theorem moveIrq_of_enabled {s : State} (v : BitVec 1) (h : handlerEnabled s (decodeVector v) = true) :
    moveIrq (2 * s.cfg.lineId + v.toNat) s = exec (decodeVector v) s := by
  simp only [moveIrq, routeVector_this_line]
  exact invokeHandler_of_enabled _ h

/-- With `gie = 1` and its request up an entry is enabled (R172). -/
theorem handlerEnabled_decodeVector {s : State} {v : BitVec 1} (hg : s.gie = true)
    (hrx : v = 0 → irqRxRequest s = true) (hudre : v = 1 → irqUdreRequest s = true) :
    handlerEnabled s (decodeVector v) = true := by
  obtain rfl | rfl : v = 0 ∨ v = 1 := by bv_omega
  · exact Bool.and_eq_true_iff.2 ⟨hg, hrx rfl⟩
  · exact Bool.and_eq_true_iff.2 ⟨hg, hudre rfl⟩

/-- Settles O42: one scheduled move at a time. -/
theorem stepRunsTheInstruction : Obligations.StepRunsTheInstruction := by
  unfold Obligations.StepRunsTheInstruction
  intro s rest hc
  refine ⟨fun w i hf hs hi => step_present_of_ok hc hf hs hi, fun i hi hs => ?_,
      fun i hi hs => step_unscheduled hc hs hi,
    fun v hs hg hrx hudre => ?_⟩
  · rw [step_of_move hc hs]
    exact moveFg_of_command hi
  · rw [step_of_move hc hs]
    exact moveIrq_of_enabled (s := { s with sched := rest }) v (handlerEnabled_decodeVector hg hrx hudre)

/-- Settles O43: this line's two indices, and every other. -/
theorem dispatchOfHandlers : Obligations.DispatchOfHandlers := by
  unfold Obligations.DispatchOfHandlers
  intro s idx rest hc hs
  rw [step_of_move hc hs]
  refine ⟨fun hidx hoff => ?_, fun hidx hoff => ?_, fun h0 h1 => ?_⟩
  · subst hidx
    refine moveIrq_of_disabled (s := { s with sched := rest }) 0 ?_
    rwa [Bool.and_assoc] at hoff
  · subst hidx
    refine moveIrq_of_disabled (s := { s with sched := rest }) 1 ?_
    rwa [Bool.and_assoc] at hoff
  · simp [runMove, moveIrq, routeVector_other_line h0 h1]

/-! ### What HOST may not do (R28, R29, R201) -/

/-- A step changes `gie` only where HOST drives it, with FG idle (R29). -/
theorem step_gie {s t : State} (h : step s = .next t) (hg : t.gie ≠ s.gie) :
    s.fg = .idle ∧ ∃ on, s.sched.head? = some (.setGie on) := by
  obtain ⟨-, ⟨-, ⟨-, rfl⟩ | ⟨i, hi, hx⟩⟩ | ⟨m, rest, hs, hx⟩⟩ := stepOnce_next h
  · exact absurd rfl hg
  · exact absurd (exec_labelStep hi hx).gie hg
  · obtain ⟨hf, on, rfl⟩ := (runMove_gie hx).resolve_left hg
    exact ⟨hf, on, by rw [hs]; rfl⟩

/-- A capacity outside 2 to 256 is no configuration (R9, R201). -/
theorem cfg_not_ok {p : Params} (h : 256 < p.cRx ∨ 256 < p.cTx ∨ p.cRx < 2 ∨ p.cTx < 2) : p.ok = false := by
  refine Bool.eq_false_iff.2 fun hok => ?_
  obtain ⟨h1, h2, h3, h4, -⟩ := (Params.ok_iff p).1 hok
  omega

/-- Settles O45: the refusals of the two moves, the drive of `gie`, and `step_gie`. -/
theorem whatHostMayNotDo : Obligations.WhatHostMayNotDo := by
  unfold Obligations.WhatHostMayNotDo
  intro s rest
  refine ⟨fun w hc hf hs => ?_, fun on hc hf hs => ?_, fun on hc hf hs => ?_, fun t h hg => step_gie h hg,
      fun h => ?_⟩
  · rw [step_of_move hc hs]
    exact if_neg hf
  · rw [step_of_move hc hs]
    exact if_neg hf
  · rw [step_of_move hc hs]
    exact if_pos hf
  · rw [step, stepOnce, cfg_not_ok h]
    rfl

end Sys2Proof.Machine
end

section
/-! What every instruction does on the buses: the register-set accesses of every step, in order (R70), and the storage
cell it writes, with every other cell left as it was (R50). -/

namespace Sys2Proof.Machine

/-! ### Register-set accesses (R70) -/

/-- `t` has on the bus what `s` has and then accesses of these shapes. -/
def BusAdds (s t : State) (shapes : List (Bool × Reg)) : Prop :=
  ∃ l, t.bus = s.bus ++ l ∧ l.map Access.shape = shapes

theorem busAdds_nil {s t : State} (h : t.bus = s.bus) : BusAdds s t [] := ⟨[], by simp [h], rfl⟩

theorem BusAdds.trans {s t u : State} {l m : List (Bool × Reg)} (h : BusAdds s t l) (h' : BusAdds t u m) :
    BusAdds s u (l ++ m) := by
  obtain ⟨a, ha, rfl⟩ := h
  obtain ⟨b, hb, rfl⟩ := h'
  exact ⟨a ++ b, by rw [hb, ha, List.append_assoc], List.map_append⟩

theorem busAdds_readCsa (s : State) : BusAdds s (readCsa s).2 [(false, .csa)] := ⟨_, readCsa_bus s, rfl⟩

theorem busAdds_csbUpdated (v : Byte) (s : State) : BusAdds s (csbUpdated v s) [(false, .csb), (true, .csb)] :=
  ⟨_, rfl, rfl⟩

/-- The rest of the transmit-empty body: CSA read and written, then CSB where the ring is empty (R155). -/
theorem busAdds_txBodyEnd (s : State) : BusAdds s (txBodyEnd s) ([(false, .csa), (true, .csa)] ++
    if (txBodyEnd s).txHead = (txBodyEnd s).txTail then [(false, .csb), (true, .csb)] else []) := by
  have hcsa : BusAdds s (txcCleared s) [(false, .csa), (true, .csa)] := ⟨_, txcCleared_bus s, rfl⟩
  rw [txBodyEnd_txHead, txBodyEnd_txTail, txBodyEnd]
  split
  · exact hcsa.trans (busAdds_csbUpdated _ _)
  · exact hcsa.trans (busAdds_nil rfl)

/-- The transmit-empty body (R155). -/
theorem txEmptyBody_bus {s t : State} (h : txEmptyBody s = .next t) : BusAdds s t (bodyShapes t) := by
  obtain ⟨-, -, -, rfl⟩ := txEmptyBody_next h
  have hdr : BusAdds s (handedOver (cellValue .txb s.txBuf s.txTail) s) [(true, .dr)] := ⟨_, rfl, rfl⟩
  exact hdr.trans (busAdds_txBodyEnd _)

/-- The masked-interrupt fallback (R140 step W2, R144 step F4). -/
theorem pollAndPump_bus {s t : State} (h : pollAndPump s = .next t) : BusAdds s t (pumpShapes s t) := by
  rcases pollAndPump_next h with ⟨hh, rfl⟩ | ⟨hh, hbody⟩
  · rw [pumpShapes, if_neg hh]
    exact busAdds_readCsa s
  · rw [pumpShapes, if_pos hh]
    exact (busAdds_readCsa s).trans (txEmptyBody_bus hbody)

/-- The flush loop (R144). -/
theorem flushStep_bus {loc : FlushPt → Fg} {finish : State → State} {pt : FlushPt} {s t : State}
    (hfin : ∀ u, (finish u).bus = u.bus) (h : flushStep loc finish pt s = .next t) :
    BusAdds s t (flushShapes pt s t) := by
  cases flushStep_next h with
  | written _ ht | ringEmpty _ ht | stillQueued _ ht => exact busAdds_nil (ht ▸ rfl)
  | nothingWritten _ ht => exact busAdds_nil (ht ▸ hfin s)
  | complete _ ht => exact (busAdds_readCsa s).trans (busAdds_nil (ht ▸ hfin _))
  | notComplete _ ht => exact (busAdds_readCsa s).trans (busAdds_nil (ht ▸ rfl))
  | reChecks hg ht =>
    have hoff : (!s.gie && s.cfg.flushPollsWhenMasked) = false := by rcases hg with hg | hg <;> simp [hg]
    rw [flushShapes, hoff]
    exact busAdds_nil (ht ▸ rfl)
  | pumps u hg hm hu ht =>
    subst ht
    have hbus : BusAdds s u (pumpShapes s u) := pollAndPump_bus hu
    simp only [flushShapes, hg, hm]
    exact hbus

/-- The receive body (R151). -/
theorem rxBody_bus {s t : State} (h : rxBody s = .next t) : BusAdds s t [(false, .csa), (false, .dr)] := by
  rcases rxBody_next h with rfl | ⟨-, -, -, rfl⟩
  · exact ⟨_, rxDecided_bus s, rfl⟩
  · exact ⟨_, rxDecided_bus s, rfl⟩

/-- WRITE (R140). -/
theorem execWrite_bus {c : Byte} {s t : State} (h : execWrite c s = .next t) :
    BusAdds s t (writeShapes s t s.fg) := by
  obtain ⟨hf, -, rfl⟩ | ⟨hf, -, rfl⟩ | ⟨hf, -, rfl⟩ | ⟨hf, hg, rfl⟩ | ⟨hf, hg, u, hu, rfl⟩ | ⟨a, n, hf, -, rfl⟩ |
    ⟨a, n, hf, rfl⟩ | ⟨hf, rfl⟩ := execWrite_next h
  case inr.inr.inr.inl =>
    simp only [writeShapes, hf, hg]
    exact busAdds_nil rfl
  case inr.inr.inr.inr.inl =>
    have hbus : BusAdds s u (pumpShapes s u) := pollAndPump_bus hu
    simp only [writeShapes, hf, hg]
    exact hbus
  case inr.inr.inr.inr.inr.inr.inl =>
    simp only [writeShapes, hf]
    exact busAdds_csbUpdated _ { s with txHead := n, written := true }
  all_goals
    simp only [writeShapes, hf]
    exact busAdds_nil rfl

/-- Settles O58: instruction by instruction, at the label where it stands. -/
theorem busTracePerStep : Obligations.BusTracePerStep := by
  unfold Obligations.BusTracePerStep
  intro i s t h
  show BusAdds s t (busShapes i s t)
  cases i with
  | irqRx => exact rxBody_bus h
  | irqUdre => exact txEmptyBody_bus h
  | write c => exact execWrite_bus h
  | ready => rcases execReady_next h with ⟨-, rfl⟩ | ⟨-, rfl⟩ <;> exact busAdds_nil rfl
  | avail => rcases execAvail_next h with ⟨-, rfl⟩ | ⟨-, rfl⟩ | ⟨_, _, -, rfl⟩ <;> exact busAdds_nil rfl
  | availw => rcases execAvailw_next h with ⟨-, rfl⟩ | ⟨-, rfl⟩ | ⟨_, _, -, rfl⟩ <;> exact busAdds_nil rfl
  | attach a => rcases execAttach_next h with ⟨-, rfl⟩ | ⟨-, rfl⟩ | ⟨-, rfl⟩ <;> exact busAdds_nil rfl
  | peek =>
    rcases execPeek_next h with ⟨-, rfl⟩ | ⟨-, -, rfl⟩ | ⟨-, -, rfl⟩ | ⟨_, -, -, rfl⟩ | ⟨_, -, rfl⟩ <;>
      exact busAdds_nil rfl
  | read =>
    rcases execRead_next h with ⟨-, rfl⟩ | ⟨-, -, rfl⟩ | ⟨-, -, rfl⟩ | ⟨_, -, -, rfl⟩ | ⟨_, _, -, rfl⟩ |
        ⟨_, -, rfl⟩ <;>
      exact busAdds_nil rfl
  | beginLine baud frame =>
    rcases (execBegin_next h).2 with ⟨hf, rfl⟩ | ⟨hf, rfl⟩ | ⟨hf, rfl⟩ <;> simp only [busShapes, beginShapes, hf]
    · exact busAdds_nil rfl
    · exact ⟨_, rfl, rfl⟩
    · exact busAdds_nil rfl
  | flush =>
    rcases execFlush_next h with ⟨hf, -, rfl⟩ | ⟨pt, hf, hstep⟩ <;> simp only [busShapes, flushLoopShapes, hf]
    · exact busAdds_nil rfl
    · exact flushStep_bus (finish := respond .done) (fun _ => rfl) hstep
  | endLine =>
    rcases execEnd_next h with ⟨hf, -, rfl⟩ | ⟨pt, hf, hstep⟩ | ⟨hf, rfl⟩ | ⟨hf, rfl⟩ <;>
      simp only [busShapes, endShapes, hf]
    · exact busAdds_nil rfl
    · exact flushStep_bus (finish := goTo (.endLine .e1)) (fun _ => rfl) hstep
    · exact ⟨_, rfl, rfl⟩
    · exact busAdds_nil rfl

/-! ### Storage (R50) -/

/-- A command that answers was presented to an idle foreground, or is the one that runs (R28). -/
theorem exec_idle_or_running {i : Instr} {s t : State} (hr : i ≠ .irqRx) (hu : i ≠ .irqUdre)
    (h : exec i s = .next t) :
    s.fg = .idle ∨ s.fg.command? = some i := by
  cases i with
  | irqRx => exact absurd rfl hr
  | irqUdre => exact absurd rfl hu
  | ready => exact (execReady_next h).imp And.left fun ⟨hf, _⟩ => by rw [hf]; rfl
  | avail => rcases execAvail_next h with ⟨hf, -⟩ | ⟨hf, -⟩ | ⟨_, _, hf, -⟩ <;> simp [hf, Fg.command?]
  | availw => rcases execAvailw_next h with ⟨hf, -⟩ | ⟨hf, -⟩ | ⟨_, _, hf, -⟩ <;> simp [hf, Fg.command?]
  | attach a => rcases execAttach_next h with ⟨hf, -⟩ | ⟨hf, -⟩ | ⟨hf, -⟩ <;> simp [hf, Fg.command?]
  | beginLine baud frame => rcases (execBegin_next h).2 with ⟨hf, -⟩ | ⟨hf, -⟩ | ⟨hf, -⟩ <;> simp [hf, Fg.command?]
  | peek =>
    rcases execPeek_next h with ⟨hf, -⟩ | ⟨hf, -⟩ | ⟨hf, -⟩ | ⟨_, hf, -⟩ | ⟨_, hf, -⟩ <;> simp [hf, Fg.command?]
  | read =>
    rcases execRead_next h with ⟨hf, -⟩ | ⟨hf, -⟩ | ⟨hf, -⟩ | ⟨_, hf, -⟩ | ⟨_, _, hf, -⟩ | ⟨_, hf, -⟩ <;>
      simp [hf, Fg.command?]
  | flush => rcases execFlush_next h with ⟨hf, -⟩ | ⟨_, hf, -⟩ <;> simp [hf, Fg.command?]
  | endLine => rcases execEnd_next h with ⟨hf, -⟩ | ⟨_, hf, -⟩ | ⟨hf, -⟩ | ⟨hf, -⟩ <;> simp [hf, Fg.command?]
  | write c =>
    rcases execWrite_next h with ⟨hf, -⟩ | ⟨hf, -⟩ | ⟨hf, -⟩ | ⟨hf, -⟩ | ⟨hf, -⟩ | ⟨_, _, hf, -⟩ | ⟨_, _, hf, -⟩ |
      ⟨hf, -⟩ <;> simp [hf, Fg.command?]

/-- A labelled step stores nothing, but for W3 of WRITE (R140). -/
theorem LabelStep.storage {s t : State} (h : LabelStep s t) : t.rxBuf = s.rxBuf ∧
    (t.txBuf = s.txBuf ∨ ∃ c a n, s.fg = .write c (.w3 a n) ∧ t.txBuf = s.txBuf.write a c) := by
  cases h with
  | plain _ ht | begins _ _ _ ht | ends _ ht | attaches _ _ ht | takes _ _ _ ht | publishes _ _ _ _ ht =>
    exact ⟨ht ▸ rfl, .inl (ht ▸ rfl)⟩
  | polls _ ht => exact ⟨by rw [ht]; simp, .inl (by rw [ht]; simp)⟩
  | pumps _ _ _ _ _ _ _ ht => exact ⟨by rw [ht]; simp [pumped], .inl (by rw [ht]; simp [pumped])⟩
  | stores c a n hf _ ht => exact ⟨ht ▸ rfl, .inr ⟨c, a, n, hf, ht ▸ rfl⟩⟩

/-- The frame of a command: only the cell of W3 is written. -/
theorem exec_command_frame {i : Instr} {s t : State} (hr : i ≠ .irqRx) (hu : i ≠ .irqUdre) (h : exec i s = .next t)
    (a : Nat) : t.rxBuf.read a = s.rxBuf.read a ∧
      (storeAddress i s ≠ some (.txb, a) → t.txBuf.read a = s.txBuf.read a) := by
  rcases exec_idle_or_running hr hu h with hf | hi
  · rw [exec_presented hf hr hu h]
    exact ⟨rfl, fun _ => rfl⟩
  · obtain ⟨hrx, htx | ⟨c, k, n, hf, htx⟩⟩ := (exec_labelStep hi h).storage
    · exact ⟨by rw [hrx], fun _ => by rw [htx]⟩
    · obtain rfl : Instr.write c = i := by simpa [hf, Fg.command?] using hi
      refine ⟨by rw [hrx], fun ha => ?_⟩
      have hne : a ≠ k := fun he => ha (by simp [storeAddress, writeStore, hf, he])
      rw [htx, Memory.read_write_ne _ _ hne]

/-- The frame of IRQ_RX: only the cell at the head is written, on a ring with room (R151). -/
theorem exec_irqRx_frame {s t : State} (h : exec .irqRx s = .next t) (a : Nat) :
    (storeAddress .irqRx s ≠ some (.rxb, a) → t.rxBuf.read a = s.rxBuf.read a) ∧
      t.txBuf.read a = s.txBuf.read a := by
  rcases rxBody_next (s := s) h with rfl | ⟨-, hroom, -, rfl⟩
  · simp
  · refine ⟨fun ha => ?_, by simp⟩
    have hne : a ≠ s.rxHead := fun he => ha (by simp [storeAddress, hroom, he])
    exact Memory.read_write_ne _ _ hne

/-- Settles O59: commands and handlers, each with the one cell it may write. -/
theorem memoryFrame : Obligations.MemoryFrame := by
  unfold Obligations.MemoryFrame
  intro i s t h a
  by_cases hr : i = .irqRx
  · subst hr
    obtain ⟨hrx, htx⟩ := exec_irqRx_frame h a
    exact ⟨hrx, fun _ => htx⟩
  by_cases hu : i = .irqUdre
  · subst hu
    obtain ⟨-, -, -, rfl⟩ := txEmptyBody_next (s := s) h
    simp
  · obtain ⟨hrx, htx⟩ := exec_command_frame hr hu h a
    exact ⟨fun _ => hrx, htx⟩

end Sys2Proof.Machine
end
